-- ==== Sys2Proof/Word.lean ====
section
/-! DEFINITION. The integer types of the TM CPU (spec/00_scope.md R7, R11) and the three widths an
operation can have. Every value an operation works on is carried as a `Long`; a value of a narrower
width has zeros above that width. -/

namespace Sys2Proof

/-- "Byte: An 8-bit unsigned integer" (R11). -/
abbrev Byte := BitVec 8

/-- "Word: A 16-bit unsigned integer" (R11). -/
abbrev Word := BitVec 16

/-- "Long: A 32-bit unsigned integer" (R11). -/
abbrev Long := BitVec 32

/-- The three operand widths (R7, R23). -/
inductive Width where
  | byte
  | word
  | long
deriving DecidableEq, Repr

/-- The width in bits: 8, 16 or 32 (R7). -/
def Width.bits : Width → Nat
  | .byte => 8
  | .word => 16
  | .long => 32

/-- The width in bytes: 1, 2 or 4 (R75). -/
def Width.bytes : Width → Nat
  | .byte => 1
  | .word => 2
  | .long => 4

/-- Half the width in bits (`half(w)` of R7): the lower half of a long is its lo word, of a word its
lo byte, of a byte its lo nibble. -/
def Width.half : Width → Nat
  | .byte => 4
  | .word => 8
  | .long => 16

end Sys2Proof
end

