-- ==== Sys2Proof/Syntax.lean ====
section
/-! DEFINITION. The instructions of the TM CPU: one constructor of `Instr` for each of the 83 rows of
spec/opcode_table.json (spec/30_encoding.md R110), in the table's order, and the operands they have:
register names (10_state.md R21), execution conditions (R106), immediates (R103, R104). -/

namespace Sys2Proof

/-- The four long registers (R20). -/
inductive Row where
  | a
  | b
  | c
  | d
deriving DecidableEq, Repr

/-- The four names each long register has (R21): itself, its lo word, and the hi byte and the lo byte of
that word. -/
inductive Part where
  | long
  | word
  | hi
  | lo
deriving DecidableEq, Repr

/-- A register name, one of sixteen (R21): `⟨.a, .hi⟩` is `AH`. -/
structure Reg where
  row : Row
  part : Part
deriving DecidableEq, Repr

/-- Width of a part (R23). -/
def Part.width : Part → Width
  | .long => .long
  | .word => .word
  | .hi => .byte
  | .lo => .byte

/-- `W(r)` (R23). -/
def Reg.width (r : Reg) : Width := r.part.width

/-- The seven execution conditions, by the source's names (R106). -/
inductive Cond where
  | n
  | cs
  | cc
  | zs
  | zc
  | os
  | us
deriving DecidableEq, Repr

/-- The immediate operand an instruction's mnemonic names (R103). -/
inductive ImmKind where
  | absent
  | i
  | a32
  | a16
  | a8
  | s16
  | bit
deriving DecidableEq, Repr

/-- The instructions. An immediate `I` has the width of register `X` and is carried in a `Long`
(`Instr.wf` says it fits); an operand in square brackets is an address or a pointer register; a suffix
`I`, `R` or `M` of a constructor says that the last operand is an immediate, a register or memory. -/
inductive Instr where
  -- general (40_general.md)
  | nop
  | stop
  | halt
  | sec (xx : Byte)
  | cec
  | di
  | ei
  | daa
  | cpl
  | cpw
  | cpb
  | scf
  | ccf
  -- data transfer (41_data_transfer.md)
  | ldI (x : Reg) (imm : Long)
  | ldA32 (x : Reg) (addr : Long)
  | ldM (x y : Reg)
  | ldq (x : Reg) (off : Word)
  | ldh (x : Reg) (off : Byte)
  | stA32 (addr : Long) (y : Reg)
  | stM (x y : Reg)
  | stq (off : Word) (y : Reg)
  | sth (off : Byte) (y : Reg)
  | mv (x y : Reg)
  | push (x : Reg)
  | pop (x : Reg)
  -- control transfer (42_control_transfer.md)
  | jmpA32 (c : Cond) (addr : Long)
  | jmpR (c : Cond) (y : Reg)
  | jpb (c : Cond) (off : Word)
  | call (c : Cond) (addr : Long)
  | rst (v : BitVec 4)
  | ret (c : Cond)
  | reti
  | jps
  -- arithmetic (43_arithmetic.md)
  | incR (x : Reg)
  | incM (y : Reg)
  | decR (x : Reg)
  | decM (y : Reg)
  | addI (x : Reg) (imm : Long)
  | addR (x y : Reg)
  | addM (x y : Reg)
  | adcI (x : Reg) (imm : Long)
  | adcR (x y : Reg)
  | adcM (x y : Reg)
  | subI (x : Reg) (imm : Long)
  | subR (x y : Reg)
  | subM (x y : Reg)
  | sbcI (x : Reg) (imm : Long)
  | sbcR (x y : Reg)
  | sbcM (x y : Reg)
  -- bitwise and comparison (44_bitwise_compare.md)
  | andI (x : Reg) (imm : Long)
  | andR (x y : Reg)
  | andM (x y : Reg)
  | orI (x : Reg) (imm : Long)
  | orR (x y : Reg)
  | orM (x y : Reg)
  | xorI (x : Reg) (imm : Long)
  | xorR (x y : Reg)
  | xorM (x y : Reg)
  | cmpI (x : Reg) (imm : Long)
  | cmpR (x y : Reg)
  | cmpM (x y : Reg)
  -- shifts and rotates (45_shift_rotate.md)
  | slaR (x : Reg)
  | slaM (x : Reg)
  | sraR (x : Reg)
  | sraM (x : Reg)
  | srlR (x : Reg)
  | srlM (x : Reg)
  | rlR (x : Reg)
  | rlM (x : Reg)
  | rlcR (x : Reg)
  | rlcM (x : Reg)
  | rrR (x : Reg)
  | rrM (x : Reg)
  | rrcR (x : Reg)
  | rrcM (x : Reg)
  -- bit checking (46_bit_check.md)
  | bitR (b : Byte) (y : Reg)
  | bitM (b : Byte) (y : Reg)
  | setR (b : Byte) (y : Reg)
  | setM (b : Byte) (y : Reg)
  | resR (b : Byte) (y : Reg)
  | resM (b : Byte) (y : Reg)
  | swapR (x : Reg)
  | swapM (x : Reg)
deriving DecidableEq, Repr

end Sys2Proof
end

