-- ==== Sys2Proof/Machine/Params.lean ====
section
/-! DEFINITION. The parameters of spec/00_scope.md R5 to which the spec gives a value: those it decides are
the fields of one record, `configuration`; those the source fixes are definitions of their own. The open
ones, to which the spec gives no value, are the constants of Sys2Proof/Config.lean. -/

namespace Sys2Proof

/-! ### Byte order (20_memory.md R61) -/

/-- The number whose little-endian bytes these are: the first byte is the least significant (R61). -/
def littleEndian : List Byte → Nat
  | [] => 0
  | b :: rest => b.toNat + 256 * littleEndian rest

/-- The low `n` bytes of a number, least significant first (R61). -/
def leBytes (v : Nat) : Nat → List Byte
  | 0 => []
  | n + 1 => BitVec.ofNat 8 v :: leBytes (v / 256) n

/-! ### Where an immediate stands (00_scope.md R5, 30_encoding.md R103, R104) -/

/-- One reading of where an immediate stands, how long it is and how its bytes are ordered (R5, D4, D6): it
may stand in bytes after the opcode word, in bits of the opcode word itself, or in both. An instruction has
at most one immediate (R110), so an order among several does not arise. -/
structure ImmLayout where
  /-- The bits of the opcode word that belong to the immediate; its other bits are op byte, register and
  condition numbers, and pattern digits (R100, R107). -/
  wordMask : Word
  /-- How many bytes are fetched after the opcode word, padding included, from the width of register `X`. -/
  bytes : Width → Nat
  /-- The immediate that an opcode word and the bytes after it hold. -/
  read : Word → List Byte → Nat
  /-- The opcode-word bits that hold an immediate. -/
  writeWord : Nat → Word
  /-- The bytes after the opcode word that hold an immediate. -/
  writeBytes : Width → Nat → List Byte

/-- The reading of D4: the immediate stands in `n` bytes directly after the opcode word, little-endian and
unpadded, and takes no bit of that word (R103, R104). -/
def afterOpcode (n : Width → Nat) : ImmLayout where
  wordMask := 0
  bytes := n
  read _ l := littleEndian l
  writeWord _ := 0
  writeBytes w v := leBytes v (n w)

end Sys2Proof

namespace Sys2Proof.Machine

/-! ### The decided parameters (R5, marked "decided") -/

/-- The parameters of R5 that the source leaves open and the spec decides: the machine reads each of them
from the one value `configuration`, so that another reading can be put in its place. -/
structure Configuration where
  /-- `REGMAP`: the register name a number stands for (R22, D1). -/
  regMap : BitVec 4 → Reg
  /-- `REGMAP` read the other way. -/
  regNumber : Reg → BitVec 4
  /-- `CONDMAP`: the condition a number stands for, if any (R106, D2). -/
  condMap : BitVec 4 → Option Cond
  /-- `CONDMAP` read the other way. -/
  condNumber : Cond → BitVec 4
  /-- `IMM_LAYOUT`: where an immediate of each kind but the bit number stands, with its size and its byte
  order (R103, R104, D4, D5). -/
  immLayout : ImmKind → ImmLayout
  /-- `BITIDX_LAYOUT`: where the bit number of `BIT`, `SET`, `RES` stands (R280, D6). -/
  bitIndexLayout : ImmLayout
  /-- `MEMOP_WIDTH`: the width of the memory operand of the one-operand memory forms (R75, D12). -/
  memopWidth : Width
  /-- `INT_COUNT`: how many interrupts and interrupt vectors there are (R68, R306, D29). -/
  intCount : Nat
  /-- `INT_STRIDE`: the distance from one interrupt vector to the next (R68, R307, D29). -/
  intStride : Long

/-- The row of a register number, `r[3:2]` (R22). -/
def rowOfBits (v : BitVec 2) : Row :=
  match v.toNat with
  | 0 => .a
  | 1 => .b
  | 2 => .c
  | _ => .d

/-- The part of a register number, `r[1:0]` (R22). -/
def partOfBits (v : BitVec 2) : Part :=
  match v.toNat with
  | 0 => .long
  | 1 => .word
  | 2 => .hi
  | _ => .lo

/-- The spec's `REGMAP` (R22, R105, D1): all sixteen register numbers are legal. -/
def specRegMap (d : BitVec 4) : Reg :=
  ⟨rowOfBits (d.extractLsb' 2 2), partOfBits (d.extractLsb' 0 2)⟩

/-- The spec's `REGMAP` read the other way: number = 4 * row + column (R22). -/
def specRegNumber (r : Reg) : BitVec 4 :=
  (match r.row with
    | .a => 0#2
    | .b => 1#2
    | .c => 2#2
    | .d => 3#2) ++
  (match r.part with
    | .long => 0#2
    | .word => 1#2
    | .hi => 2#2
    | .lo => 3#2)

/-- The spec's `CONDMAP` (R106, D2): numbers 7 to 15 are no condition. -/
def specCondMap (d : BitVec 4) : Option Cond :=
  match d.toNat with
  | 0 => some .n
  | 1 => some .cs
  | 2 => some .cc
  | 3 => some .zs
  | 4 => some .zc
  | 5 => some .os
  | 6 => some .us
  | _ => none

/-- The spec's `CONDMAP` read the other way (R106). -/
def specCondNumber : Cond → BitVec 4
  | .n => 0
  | .cs => 1
  | .cc => 2
  | .zs => 3
  | .zc => 4
  | .os => 5
  | .us => 6

/-- The spec's sizes of the immediates (R103, R104, R280, D5, D6): `I` has the width of register `X`, a bit
number is one byte. -/
def specImmBytes (k : ImmKind) (w : Width) : Nat :=
  match k with
  | .absent => 0
  | .i => w.bytes
  | .a32 => 4
  | .a16 => 2
  | .a8 => 1
  | .s16 => 2
  | .bit => 1

/-- The configuration the model runs with: every decided parameter at the spec's default (R5; DESIGN CHOICE,
log 1). -/
abbrev configuration : Configuration where
  regMap := specRegMap
  regNumber := specRegNumber
  condMap := specCondMap
  condNumber := specCondNumber
  immLayout k := afterOpcode (specImmBytes k)
  bitIndexLayout := afterOpcode (specImmBytes .bit)
  memopWidth := .byte
  intCount := 16
  intStride := 0x100

/-- `INT_COUNT` (R306). -/
abbrev intCount : Nat := configuration.intCount

/-- The number of an interrupt, below `INT_COUNT` (R306). -/
abbrev InterruptNumber := Fin intCount

/-- `INT_STRIDE` (R68). -/
def intStride : Long := configuration.intStride

/-- `MEMOP_WIDTH` (R75). -/
def memopWidth : Width := configuration.memopWidth

/-! ### The parameters the source fixes (R5, marked "source") -/

/-- `PC_RESET`: the initial value of `PC` and the target of `JPS` (R5, R32, R188). -/
def pcReset : Long := 0x00003000

/-- `STACK_BASE`: `SP` is relative to it (R33). -/
def stackBase : Long := 0xFFFD0000

/-- `CALLSTACK_BASE`: `RP` is relative to it (R34). -/
def callStackBase : Long := 0xFFFE0000

/-- `QRAM_BASE`: base of `LDQ` and `STQ` (R72). -/
def qramBase : Long := 0xFFFF0000

/-- `HWREG_BASE`: base of `LDH` and `STH`, start of the hardware-register page (R63, R72). -/
def hwregBase : Long := 0xFFFFFF00

/-- `RST_BASE` (R67). -/
def rstBase : Long := 0x00001000

/-- `RST_STRIDE` (R67). -/
def rstStride : Long := 0x100

/-- `INT_BASE` (R68). -/
def intBase : Long := 0x00002000

/-- One past the last address of the 32-bit address space (R60). -/
abbrev addrLimit : Nat := 0x100000000

/-- One past the last address of ROM (R63). -/
abbrev romLimit : Nat := 0x80000000

/-- First address of XRAM (R63). -/
abbrev xramStart : Nat := 0xC0000000

/-- One past the last address of XRAM (R63). -/
abbrev xramLimit : Nat := 0xFFFD0000

/-- First address of the hardware-register page (R63). -/
abbrev hwregStart : Nat := 0xFFFFFF00

/-- The value both stack pointers have when their stack is empty (R70, R71). -/
def emptyPointer : Word := 0xFFFF

end Sys2Proof.Machine
end

