-- ==== Sys2Proof/WellFormed.lean ====
section
/-! DEFINITION. Which terms of `Instr` are instructions of the TM CPU: the two operand rules of
spec/30_encoding.md that the operand types alone do not say, R103/R104 (an immediate `I` has the width of
register `X`) and R109 (the first operand of a two-operand arithmetic, bitwise or comparison
instruction is a register of row `A`). The range of a bit number is no such rule: `BIT 8, AL` is an
instruction, and running it faults (46_bit_check.md R280). -/

namespace Sys2Proof

/-- An immediate fits the width of the register it goes with (R103: it has `W(X)` bits). -/
def immFits (x : Reg) (imm : Long) : Bool := decide (imm.toNat < 2 ^ x.width.bits)

/-- R109: the accumulator operand is `A`, `AW`, `AH` or `AL`. -/
def isAccumulator (x : Reg) : Bool := decide (x.row = .a)

/-- Well-formedness of an instruction: exactly the terms that some bytes decode to. -/
def Instr.wf : Instr → Bool
  | .ldI x imm => immFits x imm
  | .addI x imm => isAccumulator x && immFits x imm
  | .addR x _ => isAccumulator x
  | .addM x _ => isAccumulator x
  | .adcI x imm => isAccumulator x && immFits x imm
  | .adcR x _ => isAccumulator x
  | .adcM x _ => isAccumulator x
  | .subI x imm => isAccumulator x && immFits x imm
  | .subR x _ => isAccumulator x
  | .subM x _ => isAccumulator x
  | .sbcI x imm => isAccumulator x && immFits x imm
  | .sbcR x _ => isAccumulator x
  | .sbcM x _ => isAccumulator x
  | .andI x imm => isAccumulator x && immFits x imm
  | .andR x _ => isAccumulator x
  | .andM x _ => isAccumulator x
  | .orI x imm => isAccumulator x && immFits x imm
  | .orR x _ => isAccumulator x
  | .orM x _ => isAccumulator x
  | .xorI x imm => isAccumulator x && immFits x imm
  | .xorR x _ => isAccumulator x
  | .xorM x _ => isAccumulator x
  | .cmpI x imm => isAccumulator x && immFits x imm
  | .cmpR x _ => isAccumulator x
  | .cmpM x _ => isAccumulator x
  | .nop => true
  | .stop => true
  | .halt => true
  | .sec _ => true
  | .cec => true
  | .di => true
  | .ei => true
  | .daa => true
  | .cpl => true
  | .cpw => true
  | .cpb => true
  | .scf => true
  | .ccf => true
  | .ldA32 _ _ => true
  | .ldM _ _ => true
  | .ldq _ _ => true
  | .ldh _ _ => true
  | .stA32 _ _ => true
  | .stM _ _ => true
  | .stq _ _ => true
  | .sth _ _ => true
  | .mv _ _ => true
  | .push _ => true
  | .pop _ => true
  | .jmpA32 _ _ => true
  | .jmpR _ _ => true
  | .jpb _ _ => true
  | .call _ _ => true
  | .rst _ => true
  | .ret _ => true
  | .reti => true
  | .jps => true
  | .incR _ => true
  | .incM _ => true
  | .decR _ => true
  | .decM _ => true
  | .slaR _ => true
  | .slaM _ => true
  | .sraR _ => true
  | .sraM _ => true
  | .srlR _ => true
  | .srlM _ => true
  | .rlR _ => true
  | .rlM _ => true
  | .rlcR _ => true
  | .rlcM _ => true
  | .rrR _ => true
  | .rrM _ => true
  | .rrcR _ => true
  | .rrcM _ => true
  | .bitR _ _ => true
  | .bitM _ _ => true
  | .setR _ _ => true
  | .setM _ _ => true
  | .resR _ _ => true
  | .resM _ _ => true
  | .swapR _ => true
  | .swapM _ => true

end Sys2Proof
end

