-- ==== Sys2Proof/Decode.lean ====
section
/-! DEFINITION. The decoder, total on every opcode word and every list of bytes, and the encoder, each
written from spec/30_encoding.md (R100 to R111). The parameters `REGMAP`, `CONDMAP`, `IMM_LAYOUT` and
`BITIDX_LAYOUT` (which bits and bytes an immediate takes) are fields of `configuration` in
Sys2Proof/Machine/Params.lean. -/

namespace Sys2Proof

/-! ### Operand digits -/

/-- The register with a number: `REGMAP` of the configuration (R22, R105, D1). -/
def regOfDigit (d : BitVec 4) : Reg := Machine.configuration.regMap d

/-- The number of a register: `REGMAP` read the other way (R22). -/
def digitOfReg (r : Reg) : BitVec 4 := Machine.configuration.regNumber r

/-- The condition with a number, if it has one: `CONDMAP` of the configuration (R106, D2). -/
def condOfDigit (d : BitVec 4) : Option Cond := Machine.configuration.condMap d

/-- The number of a condition: `CONDMAP` read the other way (R106). -/
def digitOfCond (c : Cond) : BitVec 4 := Machine.configuration.condNumber c

/-! ### The opcode word -/

/-- The op byte, `word[15:8]` (R100). -/
def opByte (w : Word) : Byte := w.extractLsb' 8 8

/-- The digit `X`, `word[7:4]` (R100). -/
def xDigit (w : Word) : BitVec 4 := w.extractLsb' 4 4

/-- The digit `Y`, `word[3:0]` (R100). -/
def yDigit (w : Word) : BitVec 4 := w.extractLsb' 0 4

/-- The opcode word with an op byte and two digits (R100). -/
def opWord (op : Byte) (x y : BitVec 4) : Word := op ++ x ++ y

/-- Where an immediate stands (R103, R104, R280): `IMM_LAYOUT` and, for a bit number, `BITIDX_LAYOUT` of
the configuration (D4, D5, D6); a row without immediate has none anywhere. -/
def ImmKind.layout : ImmKind → ImmLayout
  | .absent => afterOpcode fun _ => 0
  | .i => Machine.configuration.immLayout .i
  | .a32 => Machine.configuration.immLayout .a32
  | .a16 => Machine.configuration.immLayout .a16
  | .a8 => Machine.configuration.immLayout .a8
  | .s16 => Machine.configuration.immLayout .s16
  | .bit => Machine.configuration.bitIndexLayout

/-- How many bytes follow the opcode word for an immediate (R103). -/
def ImmKind.bytes (k : ImmKind) (w : Width) : Nat := k.layout.bytes w

/-- The opcode word without the bits that belong to the immediate: its pattern digits are 0 in every
instruction (R107). -/
def ImmKind.pattern (k : ImmKind) (w : Word) : Word := w &&& ~~~k.layout.wordMask

/-- The immediate that an opcode word and the bytes after it hold, zero-extended to a `Long` (R103). -/
def ImmKind.value (k : ImmKind) (w : Word) (bytes : List Byte) : Long :=
  BitVec.ofNat 32 (k.layout.read w bytes)

/-- A format of R102 with the instruction it makes of its operands, the immediate last. `ax` and `axy`
are `RX` and `RXY` for the rows whose first operand must be an accumulator register (R109). -/
inductive Format where
  | z (i : Instr)
  | b (mk : Byte → Instr)
  | rx (k : ImmKind) (mk : Reg → Long → Instr)
  | ry (k : ImmKind) (mk : Reg → Long → Instr)
  | rxy (mk : Reg → Reg → Instr)
  | cx (k : ImmKind) (mk : Cond → Long → Instr)
  | cxy (mk : Cond → Reg → Instr)
  | vx (mk : BitVec 4 → Instr)
  | ax (mk : Reg → Long → Instr)
  | axy (mk : Reg → Reg → Instr)

/-- The opcode map of R110 (patterns corrected per 90_conflicts.md C4); `none` for an op byte it does not
assign (R108). The row of `JPS` is the word `0xFFFF`, in `decodeWord`. -/
def formatOf (op : Byte) : Option Format :=
  match op.toNat with
  | 0x00 => some (.z .nop)
  | 0x01 => some (.z .stop)
  | 0x02 => some (.z .halt)
  | 0x03 => some (.b .sec)
  | 0x04 => some (.z .cec)
  | 0x05 => some (.z .di)
  | 0x06 => some (.z .ei)
  | 0x07 => some (.z .daa)
  | 0x08 => some (.z .cpl)
  | 0x09 => some (.z .cpw)
  | 0x0A => some (.z .cpb)
  | 0x0B => some (.z .scf)
  | 0x0C => some (.z .ccf)
  | 0x10 => some (.rx .i .ldI)
  | 0x11 => some (.rx .a32 .ldA32)
  | 0x12 => some (.rxy .ldM)
  | 0x13 => some (.rx .a16 fun x v => .ldq x (v.setWidth 16))
  | 0x15 => some (.rx .a8 fun x v => .ldh x (v.setWidth 8))
  | 0x17 => some (.ry .a32 fun y v => .stA32 v y)
  | 0x18 => some (.rxy .stM)
  | 0x19 => some (.ry .a16 fun y v => .stq (v.setWidth 16) y)
  | 0x1B => some (.ry .a8 fun y v => .sth (v.setWidth 8) y)
  | 0x1D => some (.rxy .mv)
  | 0x1E => some (.ry .absent fun x _ => .push x)
  | 0x1F => some (.rx .absent fun x _ => .pop x)
  | 0x20 => some (.cx .a32 .jmpA32)
  | 0x21 => some (.cxy .jmpR)
  | 0x22 => some (.cx .s16 fun c v => .jpb c (v.setWidth 16))
  | 0x23 => some (.cx .a32 .call)
  | 0x24 => some (.vx .rst)
  | 0x25 => some (.cx .absent fun c _ => .ret c)
  | 0x26 => some (.z .reti)
  | 0x30 => some (.rx .absent fun x _ => .incR x)
  | 0x31 => some (.ry .absent fun y _ => .incM y)
  | 0x32 => some (.rx .absent fun x _ => .decR x)
  | 0x33 => some (.ry .absent fun y _ => .decM y)
  | 0x34 => some (.ax .addI)
  | 0x35 => some (.axy .addR)
  | 0x36 => some (.axy .addM)
  | 0x37 => some (.ax .adcI)
  | 0x38 => some (.axy .adcR)
  | 0x39 => some (.axy .adcM)
  | 0x3A => some (.ax .subI)
  | 0x3B => some (.axy .subR)
  | 0x3C => some (.axy .subM)
  | 0x3D => some (.ax .sbcI)
  | 0x3E => some (.axy .sbcR)
  | 0x3F => some (.axy .sbcM)
  | 0x40 => some (.ax .andI)
  | 0x41 => some (.axy .andR)
  | 0x42 => some (.axy .andM)
  | 0x43 => some (.ax .orI)
  | 0x44 => some (.axy .orR)
  | 0x45 => some (.axy .orM)
  | 0x46 => some (.ax .xorI)
  | 0x47 => some (.axy .xorR)
  | 0x48 => some (.axy .xorM)
  | 0x49 => some (.ax .cmpI)
  | 0x4A => some (.axy .cmpR)
  | 0x4B => some (.axy .cmpM)
  | 0x50 => some (.rx .absent fun x _ => .slaR x)
  | 0x51 => some (.ry .absent fun x _ => .slaM x)
  | 0x52 => some (.rx .absent fun x _ => .sraR x)
  | 0x53 => some (.ry .absent fun x _ => .sraM x)
  | 0x54 => some (.rx .absent fun x _ => .srlR x)
  | 0x55 => some (.ry .absent fun x _ => .srlM x)
  | 0x56 => some (.rx .absent fun x _ => .rlR x)
  | 0x57 => some (.ry .absent fun x _ => .rlM x)
  | 0x58 => some (.rx .absent fun x _ => .rlcR x)
  | 0x59 => some (.ry .absent fun x _ => .rlcM x)
  | 0x5A => some (.rx .absent fun x _ => .rrR x)
  | 0x5B => some (.ry .absent fun x _ => .rrM x)
  | 0x5C => some (.rx .absent fun x _ => .rrcR x)
  | 0x5D => some (.ry .absent fun x _ => .rrcM x)
  | 0x60 => some (.ry .bit fun y v => .bitR (v.setWidth 8) y)
  | 0x61 => some (.ry .bit fun y v => .bitM (v.setWidth 8) y)
  | 0x62 => some (.ry .bit fun y v => .setR (v.setWidth 8) y)
  | 0x63 => some (.ry .bit fun y v => .setM (v.setWidth 8) y)
  | 0x64 => some (.ry .bit fun y v => .resR (v.setWidth 8) y)
  | 0x65 => some (.ry .bit fun y v => .resM (v.setWidth 8) y)
  | 0x66 => some (.rx .absent fun x _ => .swapR x)
  | 0x67 => some (.ry .absent fun x _ => .swapM x)
  | _ => none

/-- Why an opcode word is no instruction, by the names of 60_exceptions.md R303. -/
inductive Reject where
  /-- The word is unassigned (R108). -/
  | illegalOpcode
  /-- An assigned op byte with a nonzero pattern digit (R107). -/
  | reservedField
  /-- A condition number 7 to 15 (R106). -/
  | badCondition
  /-- A first operand outside row `A` (R109). -/
  | nonAccumulator
deriving DecidableEq, Repr

/-- What an opcode word says: how many immediate bytes follow it, and the instruction those bytes make. -/
structure Decoded where
  immBytes : Nat
  build : List Byte → Instr

/-- The checks of R111 for one format, in the order of R304 point 5: pattern digit, condition number,
accumulator row. -/
def decodeFormat (f : Format) (w : Word) : Except Reject Decoded :=
  match f with
  | .z i =>
    if xDigit w = 0 ∧ yDigit w = 0 then .ok ⟨0, fun _ => i⟩ else .error .reservedField
  | .b mk => .ok ⟨0, fun _ => mk (w.extractLsb' 0 8)⟩
  | .rx k mk =>
    if yDigit (k.pattern w) = 0 then
      .ok ⟨k.bytes (regOfDigit (xDigit w)).width, fun l => mk (regOfDigit (xDigit w)) (k.value w l)⟩
    else .error .reservedField
  | .ry k mk =>
    if xDigit (k.pattern w) = 0 then
      .ok ⟨k.bytes (regOfDigit (yDigit w)).width, fun l => mk (regOfDigit (yDigit w)) (k.value w l)⟩
    else .error .reservedField
  | .rxy mk => .ok ⟨0, fun _ => mk (regOfDigit (xDigit w)) (regOfDigit (yDigit w))⟩
  | .cx k mk =>
    if yDigit (k.pattern w) = 0 then
      match condOfDigit (xDigit w) with
      | some c => .ok ⟨k.bytes .byte, fun l => mk c (k.value w l)⟩
      | none => .error .badCondition
    else .error .reservedField
  | .cxy mk =>
    match condOfDigit (xDigit w) with
    | some c => .ok ⟨0, fun _ => mk c (regOfDigit (yDigit w))⟩
    | none => .error .badCondition
  | .vx mk =>
    if yDigit w = 0 then .ok ⟨0, fun _ => mk (xDigit w)⟩ else .error .reservedField
  | .ax mk =>
    if yDigit (ImmKind.i.pattern w) = 0 then
      if isAccumulator (regOfDigit (xDigit w)) then
        .ok ⟨ImmKind.i.bytes (regOfDigit (xDigit w)).width,
          fun l => mk (regOfDigit (xDigit w)) (ImmKind.i.value w l)⟩
      else .error .nonAccumulator
    else .error .reservedField
  | .axy mk =>
    if isAccumulator (regOfDigit (xDigit w)) then
      .ok ⟨0, fun _ => mk (regOfDigit (xDigit w)) (regOfDigit (yDigit w))⟩
    else .error .nonAccumulator

/-- The decoding algorithm of R111, total on every opcode word; the immediates are not yet fetched. -/
def decodeWord (w : Word) : Except Reject Decoded :=
  if w = 0xFFFF#16 then .ok ⟨0, fun _ => .jps⟩
  else
    match formatOf (opByte w) with
    | some f => decodeFormat f w
    | none => .error .illegalOpcode

/-- Why a list of bytes does not begin with an instruction. -/
inductive DecodeError where
  /-- The bytes end before the instruction does. -/
  | truncated
  /-- The opcode word is no instruction. -/
  | rejected (r : Reject)
deriving DecidableEq, Repr

/-- Reads one instruction from the front of a list of bytes (memory order) and answers it with the bytes
after it (R101, R111). -/
def decode (bytes : List Byte) : Except DecodeError (Instr × List Byte) :=
  match bytes with
  | lo :: hi :: rest =>
    match decodeWord (hi ++ lo) with
    | .error r => .error (.rejected r)
    | .ok d =>
      if rest.length < d.immBytes then .error .truncated
      else .ok (d.build (rest.take d.immBytes), rest.drop d.immBytes)
  | _ => .error .truncated

/-- The longest instruction, in bytes (R103): the opcode word and the longest immediate. -/
def maxLength : Nat :=
  2 + ([ImmKind.i, .a32, .a16, .a8, .s16, .bit].map fun k =>
    max (k.bytes .byte) (max (k.bytes .word) (k.bytes .long))).foldr max 0

/-- The instruction that the decoder reads from an instruction whose bits are `w` (bit 0 the least
significant bit of the opcode word), of which the table gives `nbits`; every bit above is 0. -/
def decodeTableWord (nbits w : Nat) : Option Instr :=
  match decode (leBytes (w % 2 ^ nbits) maxLength) with
  | .ok (i, _) => some i
  | .error _ => none

/-! ### The encoder -/

/-- Opcode word of format `Z` (R102). -/
def wordZ (op : Byte) : Word := opWord op 0 0

/-- Opcode word of format `RX` (R102). -/
def wordRX (op : Byte) (x : Reg) : Word := opWord op (digitOfReg x) 0

/-- Opcode word of format `RY` (R102). -/
def wordRY (op : Byte) (y : Reg) : Word := opWord op 0 (digitOfReg y)

/-- Opcode word of format `RXY` (R102). -/
def wordRXY (op : Byte) (x y : Reg) : Word := opWord op (digitOfReg x) (digitOfReg y)

/-- Opcode word of format `CX` (R102). -/
def wordCX (op : Byte) (c : Cond) : Word := opWord op (digitOfCond c) 0

/-- An opcode word in memory, low byte first (R101). -/
def opcodeBytes (w : Word) : List Byte := leBytes w.toNat 2

/-- The bytes in memory of an instruction with an immediate: the opcode word, then the bytes after it, with
the immediate where its layout puts it (R101, R103). -/
def instrBytes (w : Word) (k : ImmKind) (width : Width) (imm : Nat) : List Byte :=
  opcodeBytes (w ||| k.layout.writeWord imm) ++ k.layout.writeBytes width imm

/-- The bytes of an instruction in memory order, from the patterns of R110 and the immediates of R103. -/
def encode : Instr → List Byte
  | .nop => opcodeBytes (wordZ 0x00)
  | .stop => opcodeBytes (wordZ 0x01)
  | .halt => opcodeBytes (wordZ 0x02)
  | .sec xx => opcodeBytes (0x03#8 ++ xx)
  | .cec => opcodeBytes (wordZ 0x04)
  | .di => opcodeBytes (wordZ 0x05)
  | .ei => opcodeBytes (wordZ 0x06)
  | .daa => opcodeBytes (wordZ 0x07)
  | .cpl => opcodeBytes (wordZ 0x08)
  | .cpw => opcodeBytes (wordZ 0x09)
  | .cpb => opcodeBytes (wordZ 0x0A)
  | .scf => opcodeBytes (wordZ 0x0B)
  | .ccf => opcodeBytes (wordZ 0x0C)
  | .ldI x imm => instrBytes (wordRX 0x10 x) .i x.width imm.toNat
  | .ldA32 x addr => instrBytes (wordRX 0x11 x) .a32 x.width addr.toNat
  | .ldM x y => opcodeBytes (wordRXY 0x12 x y)
  | .ldq x off => instrBytes (wordRX 0x13 x) .a16 x.width off.toNat
  | .ldh x off => instrBytes (wordRX 0x15 x) .a8 x.width off.toNat
  | .stA32 addr y => instrBytes (wordRY 0x17 y) .a32 y.width addr.toNat
  | .stM x y => opcodeBytes (wordRXY 0x18 x y)
  | .stq off y => instrBytes (wordRY 0x19 y) .a16 y.width off.toNat
  | .sth off y => instrBytes (wordRY 0x1B y) .a8 y.width off.toNat
  | .mv x y => opcodeBytes (wordRXY 0x1D x y)
  | .push x => opcodeBytes (wordRY 0x1E x)
  | .pop x => opcodeBytes (wordRX 0x1F x)
  | .jmpA32 c addr => instrBytes (wordCX 0x20 c) .a32 .byte addr.toNat
  | .jmpR c y => opcodeBytes (opWord 0x21 (digitOfCond c) (digitOfReg y))
  | .jpb c off => instrBytes (wordCX 0x22 c) .s16 .byte off.toNat
  | .call c addr => instrBytes (wordCX 0x23 c) .a32 .byte addr.toNat
  | .rst v => opcodeBytes (opWord 0x24 v 0)
  | .ret c => opcodeBytes (wordCX 0x25 c)
  | .reti => opcodeBytes (wordZ 0x26)
  | .jps => opcodeBytes 0xFFFF#16
  | .incR x => opcodeBytes (wordRX 0x30 x)
  | .incM y => opcodeBytes (wordRY 0x31 y)
  | .decR x => opcodeBytes (wordRX 0x32 x)
  | .decM y => opcodeBytes (wordRY 0x33 y)
  | .addI x imm => instrBytes (wordRX 0x34 x) .i x.width imm.toNat
  | .addR x y => opcodeBytes (wordRXY 0x35 x y)
  | .addM x y => opcodeBytes (wordRXY 0x36 x y)
  | .adcI x imm => instrBytes (wordRX 0x37 x) .i x.width imm.toNat
  | .adcR x y => opcodeBytes (wordRXY 0x38 x y)
  | .adcM x y => opcodeBytes (wordRXY 0x39 x y)
  | .subI x imm => instrBytes (wordRX 0x3A x) .i x.width imm.toNat
  | .subR x y => opcodeBytes (wordRXY 0x3B x y)
  | .subM x y => opcodeBytes (wordRXY 0x3C x y)
  | .sbcI x imm => instrBytes (wordRX 0x3D x) .i x.width imm.toNat
  | .sbcR x y => opcodeBytes (wordRXY 0x3E x y)
  | .sbcM x y => opcodeBytes (wordRXY 0x3F x y)
  | .andI x imm => instrBytes (wordRX 0x40 x) .i x.width imm.toNat
  | .andR x y => opcodeBytes (wordRXY 0x41 x y)
  | .andM x y => opcodeBytes (wordRXY 0x42 x y)
  | .orI x imm => instrBytes (wordRX 0x43 x) .i x.width imm.toNat
  | .orR x y => opcodeBytes (wordRXY 0x44 x y)
  | .orM x y => opcodeBytes (wordRXY 0x45 x y)
  | .xorI x imm => instrBytes (wordRX 0x46 x) .i x.width imm.toNat
  | .xorR x y => opcodeBytes (wordRXY 0x47 x y)
  | .xorM x y => opcodeBytes (wordRXY 0x48 x y)
  | .cmpI x imm => instrBytes (wordRX 0x49 x) .i x.width imm.toNat
  | .cmpR x y => opcodeBytes (wordRXY 0x4A x y)
  | .cmpM x y => opcodeBytes (wordRXY 0x4B x y)
  | .slaR x => opcodeBytes (wordRX 0x50 x)
  | .slaM x => opcodeBytes (wordRY 0x51 x)
  | .sraR x => opcodeBytes (wordRX 0x52 x)
  | .sraM x => opcodeBytes (wordRY 0x53 x)
  | .srlR x => opcodeBytes (wordRX 0x54 x)
  | .srlM x => opcodeBytes (wordRY 0x55 x)
  | .rlR x => opcodeBytes (wordRX 0x56 x)
  | .rlM x => opcodeBytes (wordRY 0x57 x)
  | .rlcR x => opcodeBytes (wordRX 0x58 x)
  | .rlcM x => opcodeBytes (wordRY 0x59 x)
  | .rrR x => opcodeBytes (wordRX 0x5A x)
  | .rrM x => opcodeBytes (wordRY 0x5B x)
  | .rrcR x => opcodeBytes (wordRX 0x5C x)
  | .rrcM x => opcodeBytes (wordRY 0x5D x)
  | .bitR b y => instrBytes (wordRY 0x60 y) .bit y.width b.toNat
  | .bitM b y => instrBytes (wordRY 0x61 y) .bit y.width b.toNat
  | .setR b y => instrBytes (wordRY 0x62 y) .bit y.width b.toNat
  | .setM b y => instrBytes (wordRY 0x63 y) .bit y.width b.toNat
  | .resR b y => instrBytes (wordRY 0x64 y) .bit y.width b.toNat
  | .resM b y => instrBytes (wordRY 0x65 y) .bit y.width b.toNat
  | .swapR x => opcodeBytes (wordRX 0x66 x)
  | .swapM x => opcodeBytes (wordRY 0x67 x)

end Sys2Proof
end

