-- ==== Sys2Proof/Config.lean ====
section
/-! DEFINITION. What the spec leaves to the platform or leaves unspecified, as constants WITHOUT a body
(spec/00_scope.md R5, spec/92_eei_decisions.md, spec/93_implementation_defined.md): no proof can see
their values, so a statement about the model holds whatever they are. The decided and the fixed
parameters are in Sys2Proof/Machine/Params.lean. -/

namespace Sys2Proof

/-- What the CPU tells the platform, in the order in which it happens: the platform's answers
(`Config.hwregByte`) are a function of this history. -/
inductive PlatformEvent where
  /-- One access read these bytes of the hardware-register page (20_memory.md R76). -/
  | read (addrs : List Nat)
  /-- One access wrote these bytes of the hardware-register page, each with its address (R76). -/
  | write (cells : List (Nat × Byte))
  /-- `IRQ.ack(n)`: the CPU has taken interrupt `n` (60_exceptions.md R306, R307). -/
  | ack (n : Machine.InterruptNumber)
deriving DecidableEq, Repr

/-- `ROM_IMAGE`: the byte the loaded program image has at an address below `$80000000` (R83, D25, I14).
OPEN in the spec: no value is given here. -/
opaque Config.romImage : Nat → Byte

/-- `RAM_INIT`: the byte RAM holds at an address that nothing has written since reset (R342, D25, I13).
OPEN in the spec: no value is given here. -/
opaque Config.ramInit : Nat → Byte

/-- `HWREG`: the byte the platform answers when an access reads an address of the hardware-register page
(R76, D26, I15). It may depend on everything the CPU has told the platform (`history`, the access itself
first) and on the moment (`time`, the draw counter). OPEN in the spec: no value is given here. -/
opaque Config.hwregByte (history : List PlatformEvent) (time : Nat) (addr : Nat) : Byte

/-- `DAA_FN`: the decimal adjustment of `DAA`, from `AL` and the flags `N`, `H`, `C` to the adjusted byte
and whether the adjustment went beyond the byte (40_general.md R147, D35, I22). OPEN in the spec, which
asks that nothing be assumed of it but that it depends on its four arguments alone. -/
opaque Config.daaFn (a : Byte) (n h c : Bool) : Byte × Bool

/-- The `n`-th draw of flag `H` after `INC` of a long register, which the spec leaves unspecified (any
value; 43_arithmetic.md R203, D15, I11). -/
opaque Config.incLongH : Nat → Bool

/-- The `n`-th draw of register `MA`, unspecified after the first instruction (10_state.md R36, I12). -/
opaque Config.maDraw : Nat → Long

/-- The `n`-th draw of register `MD`, unspecified after the first instruction (10_state.md R37, I12). -/
opaque Config.mdDraw : Nat → Long

/-- The `n`-th draw of register `DA`, unspecified after the first instruction (10_state.md R39, I12). -/
opaque Config.daDraw : Nat → Bool

end Sys2Proof
end

