-- ==== Sys2Proof/Machine/State.lean ====
section
/-! DEFINITION. The state of the TM CPU as plain data: every piece of state that spec/10_state.md and
spec/60_exceptions.md give the machine, and three fields of the model's own (`irq`, `platform`, `draws`)
that stand for the platform and for unspecified values. -/

namespace Sys2Proof.Machine

/-- The flags register `F`, one field for each of its eight bits (R26). No instruction reads or writes `F`
as a whole. -/
structure Flags where
  z : Bool
  n : Bool
  h : Bool
  c : Bool
  o : Bool
  u : Bool
  l : Bool
  s : Bool
deriving DecidableEq, Repr

/-- Main memory: the bytes that have been stored, by strictly rising address. An address that is not
listed holds what it held at reset (`initialByte` in Machine/Ops.lean). -/
abbrev Memory := List Host.Cell

/-- The canonical form of a memory: addresses strictly rise, and every one lies below the
hardware-register page, whose bytes are the platform's and not memory (R76). -/
abbrev Memory.wf (m : Memory) : Prop :=
  m.Pairwise (fun p q => p.1 < q.1) ∧ ∀ p ∈ m, p.1 < hwregStart

/-- The machine's state. -/
structure State where
  /-- General register `A` (R20); `AW`, `AH`, `AL` are its bits. -/
  a : Long
  /-- General register `B` (R20). -/
  b : Long
  /-- General register `C` (R20). -/
  c : Long
  /-- General register `D` (R20). -/
  d : Long
  /-- Flags register `F` (R26). -/
  flags : Flags
  /-- `IME`, Interrupt Master Enable (R30). -/
  ime : Bool
  /-- `EC`, Error Code (R31). -/
  ec : Byte
  /-- `PC`, Program Counter (R32). -/
  pc : Long
  /-- `SP`, Stack Pointer (R33). -/
  sp : Word
  /-- `RP`, Return Pointer (R34). -/
  rp : Word
  /-- `IA`, Instruction Address Register (R35). -/
  ia : Long
  /-- `MA`, Memory Address Register (R36). -/
  ma : Long
  /-- `MD`, Memory Data Register (R37). -/
  md : Long
  /-- `CI`, Current Instruction Register (R38). -/
  ci : Word
  /-- `DA`, Destination Address Flag (R39). -/
  da : Bool
  /-- ROM and RAM (R60, R63). -/
  mem : Memory
  /-- The answers the `IRQ` oracle will give: the set of pending interrupts at each coming sample, the next
  one first; past the end of the list nothing is pending (R41, R306). -/
  irq : List (List InterruptNumber)
  /-- What the CPU has told the platform, newest first (R76, R306). -/
  platform : List PlatformEvent
  /-- How many free values have been drawn: the argument of the next draw (R36, R203). -/
  draws : Nat
deriving DecidableEq, Repr

/-- Why a step has no next state: the closed list of 60_exceptions.md R303, each a situation to which the
source gives no behaviour. Each is SAFE: the model stops where a real machine may go on. -/
inductive Fault where
  /-- Raised by decoding: the opcode word is unassigned (R108). Safe. -/
  | illegalOpcode
  /-- Raised by decoding: a nonzero pattern digit (R107). Safe. -/
  | reservedField
  /-- Raised by decoding: a condition number 7 to 15 (R106). Safe. -/
  | badCondition
  /-- Raised by decoding: a first operand outside row `A` (R109). Safe. -/
  | nonAccumulator
  /-- Raised by `BIT`, `SET`, `RES`: the bit number is not below the operand width (R280). Safe. -/
  | bitIndexRange
  /-- Raised by the fetch: a byte outside ROM and XRAM (R64, R84). Safe. -/
  | fetchNotExecutable
  /-- Raised by a memory write: a byte at or below `$7FFFFFFF` (R62, R64). Safe. -/
  | romWrite
  /-- Raised by a memory access or a fetch that runs past `$FFFFFFFF` (R74). Safe. -/
  | addressWrap
  /-- Raised by `PUSH` with `SP` below 4 (R70). Safe. -/
  | dataStackFull
  /-- Raised by `POP` with `SP = 0xFFFF` (R70). Safe. -/
  | dataStackEmpty
  /-- Raised by `CALL`, `RST` and interrupt entry with `RP` below 4 (R71). Safe. -/
  | callStackFull
deriving DecidableEq, Repr

/-- Why an instruction has no meaning in the model. -/
inductive Refusal where
  /-- Raised by an arm of `exec` whose instruction has no meaning yet (none is left). Safe. -/
  | notModelled (mnemonic : String)
deriving DecidableEq, Repr

/-- The flags register with every flag clear, `F = 0x00` (R26). -/
def Flags.clear : Flags := ⟨false, false, false, false, false, false, false, false⟩

/-- The machine right after reset (R44, R340): every register at the value the spec gives it; memory as
loaded and otherwise unknown (R342); no interrupt to come, nothing told to the platform and nothing
drawn (DESIGN CHOICE, log 5, 6 and 4). -/
def State.reset : State where
  a := 0
  b := 0
  c := 0
  d := 0
  flags := Flags.clear
  ime := false
  ec := 0x00
  pc := pcReset
  sp := 0xFFFF
  rp := 0xFFFF
  ia := 0x00000000
  ma := 0x00000000
  md := 0x00000000
  ci := 0xFFFF
  da := false
  mem := []
  irq := []
  platform := []
  draws := 0

end Sys2Proof.Machine
end

