-- ==== Sys2Proof/Machine/Ops.lean ====
section
/-! DEFINITION. The named operations over registers, memory, the platform and the two stacks; entering an
interrupt handler, returning from it, and the architectural stop (spec/10_state.md, 20_memory.md,
60_exceptions.md). The fields of the state are read and written through these. -/

namespace Sys2Proof.Machine

/-! ### General registers (R20 to R24) -/

/-- The long register of a row. -/
def State.long (s : State) (r : Row) : Long :=
  match r with
  | .a => s.a
  | .b => s.b
  | .c => s.c
  | .d => s.d

/-- Writes the long register of a row. -/
def State.setLong (s : State) (r : Row) (v : Long) : State :=
  match r with
  | .a => { s with a := v }
  | .b => { s with b := v }
  | .c => { s with c := v }
  | .d => { s with d := v }

/-- The bits of a long register that a part names, zero-extended (R24, the read). -/
def partOf (v : Long) (p : Part) : Long :=
  match p with
  | .long => v
  | .word => (v.extractLsb' 0 16).setWidth 32
  | .hi => (v.extractLsb' 8 8).setWidth 32
  | .lo => (v.extractLsb' 0 8).setWidth 32

/-- A long register with the bits that a part names replaced by the low bits of `v`; the other bits stay
(R24, the write). -/
def withPart (old : Long) (p : Part) (v : Long) : Long :=
  match p with
  | .long => v
  | .word => (old.extractLsb' 16 16 ++ v.extractLsb' 0 16).setWidth 32
  | .hi => (old.extractLsb' 16 16 ++ v.extractLsb' 0 8 ++ old.extractLsb' 0 8).setWidth 32
  | .lo => (old.extractLsb' 8 24 ++ v.extractLsb' 0 8).setWidth 32

/-- `x[r]` (R24): an unsigned value of `W(r)` bits, zero-extended. -/
def readReg (s : State) (r : Reg) : Long := partOf (s.long r.row) r.part

/-- `x[r] <- v` (R24). -/
def writeReg (s : State) (r : Reg) (v : Long) : State :=
  s.setLong r.row (withPart (s.long r.row) r.part v)

/-- `trunc_w` (R8): the low bits of a value, as many as the width has. -/
def truncTo (w : Width) (v : Long) : Long :=
  match w with
  | .byte => (v.extractLsb' 0 8).setWidth 32
  | .word => (v.extractLsb' 0 16).setWidth 32
  | .long => v

/-! ### Memory bytes (R60 to R64) -/

/-- The byte stored at an address, if one has been stored. -/
def Memory.get? : Memory → Nat → Option Byte
  | [], _ => none
  | (k, v) :: rest, a => if a = k then some v else Memory.get? rest a

/-- Stores a byte, keeping the addresses strictly rising. -/
def Memory.set : Memory → Nat → Byte → Memory
  | [], a, v => [(a, v)]
  | (k, old) :: rest, a, v =>
    if a < k then (a, v) :: (k, old) :: rest
    else if a = k then (a, v) :: rest
    else (k, old) :: Memory.set rest a v

/-- What an address holds that nothing has written since reset: the program image in ROM, an unknown byte
in RAM, the same on every read (R83, R342, I13, I14). -/
def initialByte (a : Nat) : Byte :=
  if a < romLimit then Config.romImage a else Config.ramInit a

/-- `mem[a]` (R62), for an address below the hardware-register page. -/
def readByte (s : State) (a : Nat) : Byte := (s.mem.get? a).getD (initialByte a)

/-- `mem[a] <- v` (R62). The hardware-register page is the platform's, not memory (R76). -/
def writeByte (s : State) (a : Nat) (v : Byte) : State :=
  if a < hwregStart then { s with mem := s.mem.set a v } else s

/-- Writes bytes at rising addresses, the first one at `a`. -/
def writeBytes (s : State) (a : Nat) : List Byte → State
  | [] => s
  | v :: rest => writeBytes (writeByte s a v) (a + 1) rest

/-- The bytes at `n` rising addresses, the first one at `a`. -/
def readBytes (s : State) (a n : Nat) : List Byte := (List.range' a n).map (readByte s)

/-- The addresses from which opcodes and immediates may be fetched: ROM and XRAM (R64). -/
def executable (a : Nat) : Bool :=
  decide (a < romLimit) || (decide (xramStart ≤ a) && decide (a < xramLimit))

/-! ### The hardware-register page (R72, R76, R316) -/

/-- Whether an address lies in the hardware-register page. -/
def inHwPage (a : Nat) : Bool := decide (hwregStart ≤ a)

/-- Tells the platform something (R76, R306). -/
def tellPlatform (s : State) (e : PlatformEvent) : State := { s with platform := e :: s.platform }

/-- The state after the platform has seen a read of these addresses: one event if any of them is in the
hardware-register page, none otherwise (R76). -/
def notePlatformRead (s : State) (addrs : List Nat) : State :=
  if addrs.any inHwPage then tellPlatform s (.read (addrs.filter inHwPage)) else s

/-- The state after the platform has seen a write of these cells (R76). -/
def notePlatformWrite (s : State) (cells : List Host.Cell) : State :=
  if cells.any (fun p => inHwPage p.1) then
    tellPlatform s (.write (cells.filter fun p => inHwPage p.1))
  else s

/-- The byte a data access finds at an address: the platform's answer in the hardware-register page,
memory elsewhere (R62, R76). -/
def byteSeen (s : State) (a : Nat) : Byte :=
  if inHwPage a then Config.hwregByte s.platform s.draws a else readByte s a

/-! ### Data accesses (R62, R74) -/

/-- The little-endian value of the bytes an access sees (R61). -/
def valueSeen (s : State) (addrs : List Nat) : Long :=
  BitVec.ofNat 32 (littleEndian (addrs.map (byteSeen s)))

/-- `MemRead(addr, n)` (R62): the value, zero-extended, and the state after the access. -/
def memRead (s : State) (addr : Long) (n : Nat) : Except Fault (Long × State) :=
  if addrLimit < addr.toNat + n then .error .addressWrap
  else
    let s' := notePlatformRead s (List.range' addr.toNat n)
    .ok (valueSeen s' (List.range' addr.toNat n), s')

/-- `MemWrite(addr, n, v)` (R62): all checks come before any byte is written. -/
def memWrite (s : State) (addr : Long) (n : Nat) (v : Long) : Except Fault State :=
  if addrLimit < addr.toNat + n then .error .addressWrap
  else if addr.toNat < romLimit then .error .romWrite
  else
    .ok (writeBytes
      (notePlatformWrite s ((List.range' addr.toNat n).zip (leBytes v.toNat n)))
      addr.toNat (leBytes v.toNat n))

/-! ### The two stacks (R69 to R71) -/

/-- Memory address of the general stack's top (R33). -/
def stackAddr (sp : Word) : Long := stackBase + sp.setWidth 32

/-- Memory address of the call stack's top (R34). -/
def callStackAddr (rp : Word) : Long := callStackBase + rp.setWidth 32

/-- `PushData(v)` (R70). -/
def pushData (s : State) (v : Long) : Except Fault State :=
  if s.sp.toNat < 4 then .error .dataStackFull
  else memWrite { s with sp := s.sp - 4 } (stackAddr (s.sp - 4)) 4 v

/-- `PopData()` (R70). -/
def popData (s : State) : Except Fault (Long × State) :=
  if s.sp = emptyPointer then .error .dataStackEmpty
  else
    match memRead s (stackAddr s.sp) 4 with
    | .error e => .error e
    | .ok (v, s') => .ok (v, { s' with sp := s'.sp + 4 })

/-- `PushCall(v)` (R71). -/
def pushCall (s : State) (v : Long) : Except Fault State :=
  if s.rp.toNat < 4 then .error .callStackFull
  else memWrite { s with rp := s.rp - 4 } (callStackAddr (s.rp - 4)) 4 v

/-- `CallStackEmpty()` (R71). -/
def callStackEmpty (s : State) : Bool := decide (s.rp = emptyPointer)

/-- `PopCall()` (R71); the caller has checked that the call stack is not empty. -/
def popCall (s : State) : Except Fault (Long × State) :=
  match memRead s (callStackAddr s.rp) 4 with
  | .error e => .error e
  | .ok (v, s') => .ok (v, { s' with rp := s'.rp + 4 })

/-! ### Stop, calls, interrupts, returns -/

/-- `raise Stop(ec)` (R301): `PC` keeps the address after the instruction. -/
def stopWith (s : State) (ec : Byte) : State :=
  { s with flags := { s.flags with s := true }, ec := ec }

/-- Pushes `PC` on the call stack, then moves `PC` to the target (R184, R185, R307). -/
def callTo (s : State) (target : Long) : Except Fault State :=
  match pushCall s s.pc with
  | .error e => .error e
  | .ok s' => .ok { s' with pc := target }

/-- The address of interrupt vector `n` (R68, R307). -/
def interruptVector (n : InterruptNumber) : Long := intBase + intStride * BitVec.ofNat 32 n.val

/-- The address of restart vector `v` (R67, R185). -/
def restartVector (v : BitVec 4) : Long := rstBase + rstStride * v.setWidth 32

/-- `TakeInterrupt(n)` (R307): TAKING AN INTERRUPT, the machine's only exception entry. `IME` is cleared,
`PC` is saved on the call stack, `PC` goes to the vector, and the platform is told. Nothing else is
saved. -/
def takeInterrupt (n : InterruptNumber) (s : State) : Except Fault State :=
  match callTo { s with ime := false } (interruptVector n) with
  | .error e => .error e
  | .ok s' => .ok (tellPlatform s' (.ack n))

/-- The return of `RET` and `RETI` (R186, R187): with the call stack empty the CPU stops with code `0x00`,
otherwise `PC` is popped. -/
def returnFromCall (s : State) : Except Fault State :=
  if callStackEmpty s then .ok (stopWith s 0x00)
  else
    match popCall s with
    | .error e => .error e
    | .ok (v, s') => .ok { s' with pc := v }

/-- The lowest number of a set of pending interrupts (R307). -/
def lowestPending : List InterruptNumber → Option InterruptNumber
  | [] => none
  | n :: rest =>
    match lowestPending rest with
    | none => some n
    | some m => if n ≤ m then some n else some m

/-- `IRQ.pending()` (R306): the set of interrupts pending at this step. -/
def pendingNow (s : State) : List InterruptNumber := s.irq.headD []

/-- The state after the sample (R306: one per step). -/
def afterSample (s : State) : State := { s with irq := s.irq.tail }

/-- What a step does, as its prologue decides (R311). -/
inductive Action where
  /-- Nothing: the CPU is stopped, or halted with nothing pending. -/
  | wait (s : State)
  /-- It enters the handler of interrupt `n`. -/
  | interrupt (n : InterruptNumber) (s : State)
  /-- It executes the instruction at `PC`. -/
  | run (s : State)
deriving DecidableEq, Repr

/-- The prologue of the step (R311, R310, R304 points 1 to 3): stopped beats everything; a halted CPU wakes
when an interrupt is pending, whatever `IME`; with `IME` set the lowest pending interrupt is taken
instead of the instruction. -/
def prologue (s : State) : Action :=
  if s.flags.s then .wait s
  else if s.flags.l && (pendingNow s).isEmpty then .wait (afterSample s)
  else
    let awake : State := { afterSample s with flags := { s.flags with l := false } }
    match lowestPending (pendingNow s) with
    | some n => if s.ime then .interrupt n awake else .run awake
    | none => .run awake

/-! ### Execution conditions (R106) -/

/-- `cond(c)` (R106). -/
def condHolds (c : Cond) (f : Flags) : Bool :=
  match c with
  | .n => true
  | .cs => f.c
  | .cc => !f.c
  | .zs => f.z
  | .zc => !f.z
  | .os => f.o
  | .us => f.u

/-! ### Free values -/

/-- The state after one more draw. -/
def drawn (s : State) : State := { s with draws := s.draws + 1 }

/-- `MA`, `MD` and `DA` take unspecified values with every instruction (R36, R37, R39, I12). -/
def drawInternals (s : State) : State :=
  { s with
    ma := Config.maDraw s.draws
    md := Config.mdDraw s.draws
    da := Config.daDraw s.draws
    draws := s.draws + 1 }

/-! ### Outcomes -/

/-- What a step answers. -/
abbrev Result := Host.Outcome State Fault Refusal

/-- The outcome of an operation that may fault. -/
def settle (r : Except Fault State) : Result :=
  match r with
  | .ok s => .next s
  | .error e => .fault e

end Sys2Proof.Machine
end

