-- ==== Sys2Proof/Machine/Flags.lean ====
section
/-! DEFINITION. Results and flags of the arithmetic, logic, shift and bit operations, each from the shared
rule of spec/ that gives it. An operation takes its operands as unsigned values of the width, computes
on unbounded integers as the rule does (spec/00_scope.md R8), and narrows at the end. Every operation
answers the flags register with `L` and `S`, and whatever else the rule does not write, kept. -/

namespace Sys2Proof.Machine

/-- `2^w` for a width: the modulus of the width. -/
abbrev modulus (w : Width) : Nat := 2 ^ w.bits

/-- `2^h`, `h` half the width. -/
abbrev halfModulus (w : Width) : Nat := 2 ^ w.half

/-- A result of `w` bits as a value. -/
def narrow (w : Width) (r : Nat) : Long := BitVec.ofNat 32 (r % modulus w)

/-- `F` as the byte of R26: `Z ++ N ++ H ++ C ++ O ++ U ++ L ++ S`. -/
def Flags.toByte (f : Flags) : Byte :=
  BitVec.ofBool f.z ++ BitVec.ofBool f.n ++ BitVec.ofBool f.h ++ BitVec.ofBool f.c ++
    BitVec.ofBool f.o ++ BitVec.ofBool f.u ++ BitVec.ofBool f.l ++ BitVec.ofBool f.s

/-! ### Addition and subtraction (R200, R201) -/

/-- `AddCore` (R200). -/
def addCore (w : Width) (a b : Long) (cin : Bool) (f : Flags) : Long × Flags :=
  let sum := a.toNat + b.toNat + cin.toNat
  (narrow w sum,
    { f with
      z := decide (sum % modulus w = 0)
      n := false
      h := decide (halfModulus w ≤ a.toNat % halfModulus w + b.toNat % halfModulus w + cin.toNat)
      c := decide (modulus w ≤ sum)
      o := decide (modulus w ≤ sum)
      u := false })

/-- The difference `(a - b - cin) mod 2^w`, the mathematical mod (R201). -/
def difference (w : Width) (a b : Long) (cin : Bool) : Nat :=
  (((a.toNat : Int) - b.toNat - cin.toNat) % (modulus w : Int)).toNat

/-- `SubCore` (R201). -/
def subCore (w : Width) (a b : Long) (cin : Bool) (f : Flags) : Long × Flags :=
  (narrow w (difference w a b cin),
    { f with
      z := decide (difference w a b cin = 0)
      n := true
      h := decide (a.toNat % halfModulus w < b.toNat % halfModulus w + cin.toNat)
      c := decide (a.toNat < b.toNat + cin.toNat)
      o := false
      u := decide (a.toNat < b.toNat + cin.toNat) })

/-- Increment (R203, R204). `freeH` is the value drawn for `H` of a long, which the spec leaves
unspecified; `C`, `O`, `U` are kept. -/
def incCore (w : Width) (freeH : Bool) (a : Long) (f : Flags) : Long × Flags :=
  (narrow w (a.toNat + 1),
    { f with
      z := decide ((a.toNat + 1) % modulus w = 0)
      n := false
      h := match w with
        | .long => freeH
        | _ => decide (a.toNat % halfModulus w = halfModulus w - 1) })

/-- Decrement (R205, R206); `C`, `O`, `U` are kept. -/
def decCore (w : Width) (a : Long) (f : Flags) : Long × Flags :=
  (narrow w (difference w a 1 false),
    { f with
      z := decide (difference w a 1 false = 0)
      n := true
      h := decide (a.toNat % halfModulus w = 0) })

/-! ### Logic and comparison (R230) -/

/-- The three kinds of `LogicCore` (R230). -/
inductive LogicKind where
  | and
  | or
  | xor
deriving DecidableEq, Repr

/-- The result of `LogicCore`, bit by bit (R230). -/
def logicResult (k : LogicKind) (a b : Long) : Long :=
  match k with
  | .and => a &&& b
  | .or => a ||| b
  | .xor => a ^^^ b

/-- `LogicCore` (R230). -/
def logicCore (k : LogicKind) (a b : Long) (f : Flags) : Long × Flags :=
  (logicResult k a b,
    { f with
      z := decide (logicResult k a b = 0)
      n := false
      h := decide (k = .and)
      c := false
      o := false
      u := false })

/-! ### Shifts and rotates (R250) -/

/-- The seven kinds of `ShiftCore` (R250). -/
inductive ShiftKind where
  | sla
  | sra
  | srl
  | rl
  | rlc
  | rr
  | rrc
deriving DecidableEq, Repr

/-- The top bit of a value of a width (`msb(v, w)` of R7). -/
def topBit (w : Width) (a : Long) : Bool := a.getLsbD (w.bits - 1)

/-- Bit 0 of a value. -/
def lowBit (a : Long) : Bool := a.getLsbD 0

/-- The result of `ShiftCore` as a number below `2^w` (R250). -/
def shiftNumber (k : ShiftKind) (w : Width) (a : Long) (cin : Bool) : Nat :=
  match k with
  | .sla => (a.toNat * 2) % modulus w
  | .sra => a.toNat / 2 + (topBit w a).toNat * 2 ^ (w.bits - 1)
  | .srl => a.toNat / 2
  | .rl => (a.toNat * 2) % modulus w + cin.toNat
  | .rlc => (a.toNat * 2) % modulus w + (topBit w a).toNat
  | .rr => a.toNat / 2 + cin.toNat * 2 ^ (w.bits - 1)
  | .rrc => a.toNat / 2 + (lowBit a).toNat * 2 ^ (w.bits - 1)

/-- The bit that leaves the operand and becomes `C` (R250). -/
def shiftCarry (k : ShiftKind) (w : Width) (a : Long) : Bool :=
  match k with
  | .sla => topBit w a
  | .sra => lowBit a
  | .srl => lowBit a
  | .rl => topBit w a
  | .rlc => topBit w a
  | .rr => lowBit a
  | .rrc => lowBit a

/-- `ShiftCore` (R250); the carry that enters is the flag `C` as it was. -/
def shiftCore (k : ShiftKind) (w : Width) (a : Long) (f : Flags) : Long × Flags :=
  (narrow w (shiftNumber k w a f.c),
    { f with
      z := decide (narrow w (shiftNumber k w a f.c) = 0)
      n := false
      h := false
      c := shiftCarry k w a
      o := false
      u := false })

/-! ### Bit operations (R281 to R288) -/

/-- The flags of `BIT` (R281): `Z` is the complement of the bit. -/
def bitFlags (b : Byte) (a : Long) (f : Flags) : Flags :=
  { f with z := !a.getLsbD b.toNat, n := false, h := true }

/-- `SET` (R283): the bit set, `N` and `H` clear, `C` set. -/
def setCore (b : Byte) (a : Long) (f : Flags) : Long × Flags :=
  (a ||| BitVec.ofNat 32 (2 ^ b.toNat), { f with n := false, h := false, c := true })

/-- `RES` (R285): the bit cleared, no flag written. -/
def resCore (w : Width) (b : Byte) (a : Long) (f : Flags) : Long × Flags :=
  (a &&& BitVec.ofNat 32 (modulus w - 1 - 2 ^ b.toNat), f)

/-- The result of `SWAP` (R287): the two halves exchanged. -/
def swapNumber (w : Width) (a : Long) : Nat :=
  (a.toNat % halfModulus w) * halfModulus w + a.toNat / halfModulus w

/-- `SWAP` (R287). -/
def swapCore (w : Width) (a : Long) (f : Flags) : Long × Flags :=
  (narrow w (swapNumber w a),
    { f with
      z := decide (narrow w (swapNumber w a) = 0)
      n := false
      h := false
      c := false
      o := false
      u := false })

/-! ### General instructions (R147 to R152) -/

/-- The flags of `CPL`, `CPW`, `CPB` (R148): `N` and `H` set. -/
def complementFlags (f : Flags) : Flags := { f with n := true, h := true }

/-- The flags of `SCF` and `CCF` for the carry they leave (R151, R152). -/
def carryFlags (carry : Bool) (f : Flags) : Flags :=
  { f with n := false, h := false, c := carry, o := false, u := false }

/-- `DAA` (R147): the adjusted byte is `DAA_FN`'s, the flags follow from it as the rule says. -/
def daaCore (a : Byte) (f : Flags) : Byte × Flags :=
  let adjusted := Config.daaFn a f.n f.h f.c
  (adjusted.1,
    { f with
      z := decide (adjusted.1 = 0)
      h := false
      c := adjusted.2
      o := !f.n && adjusted.2
      u := f.n && adjusted.2 })

end Sys2Proof.Machine
end

