-- ==== Sys2Proof/Machine/Operands.lean ====
section
/-! DEFINITION. Every operand form of the instruction set and the shared shapes of an instruction over it:
pointers and short addresses (spec/20_memory.md R72, spec/41_data_transfer.md R173), loads and stores,
the two-operand forms (spec/43_arithmetic.md R202), the one-operand forms over a register or a memory
byte (R265), and the bit number (spec/46_bit_check.md R280). -/

namespace Sys2Proof.Machine

/-! ### Addresses -/

/-- The address a pointer register holds, zero-extended whatever its width (R173b, D10). -/
def pointer (s : State) (y : Reg) : Long := readReg s y

/-- The QRAM address of `LDQ` and `STQ` (R72). -/
def qramAddr (off : Word) : Long := qramBase + off.setWidth 32

/-- The hardware-register address of `LDH` and `STH` (R72). -/
def hwregAddr (off : Byte) : Long := hwregBase + off.setWidth 32

/-! ### Loads and stores (R173a) -/

/-- Loads as many bytes as `x` is wide from an address into `x` (R161 to R164). -/
def load (s : State) (x : Reg) (addr : Long) : Except Fault State :=
  match memRead s addr x.width.bytes with
  | .error e => .error e
  | .ok (v, s') => .ok (writeReg s' x v)

/-- Stores `y` at an address, as many bytes as `y` is wide (R165 to R168). -/
def store (s : State) (addr : Long) (y : Reg) : Except Fault State :=
  memWrite s addr y.width.bytes (readReg s y)

/-! ### Two-operand forms (R202) -/

/-- The value of the register operand `Y` at the width of `X` (R202: zero-extended or truncated, D9). -/
def registerOperand (s : State) (x y : Reg) : Long := truncTo x.width (readReg s y)

/-- A two-operand operation: from the width, the two values and the old flags, the result and the flags. -/
abbrev BinaryOp := Width → Long → Long → Flags → Long × Flags

/-- `ADD` (R207 to R209). -/
def addOp : BinaryOp := fun w a b f => addCore w a b false f

/-- `ADC` (R210 to R212): the carry-in is `F.C` as it was. -/
def adcOp : BinaryOp := fun w a b f => addCore w a b f.c f

/-- `SUB` (R213 to R215). -/
def subOp : BinaryOp := fun w a b f => subCore w a b false f

/-- `SBC` (R216 to R218): the carry-in is `F.C` as it was. -/
def sbcOp : BinaryOp := fun w a b f => subCore w a b f.c f

/-- `AND` (R231 to R233). -/
def andOp : BinaryOp := fun _ a b f => logicCore .and a b f

/-- `OR` (R234 to R236). -/
def orOp : BinaryOp := fun _ a b f => logicCore .or a b f

/-- `XOR` (R237 to R239). -/
def xorOp : BinaryOp := fun _ a b f => logicCore .xor a b f

/-- `X <- X op b`, with the flags (R202: `b` has been read before `X` is written). -/
def accumulate (op : BinaryOp) (s : State) (x : Reg) (b : Long) : State :=
  { writeReg s x (op x.width (readReg s x) b s.flags).1 with
    flags := (op x.width (readReg s x) b s.flags).2 }

/-- `Compare(X, b)` (R230): the flags of the subtraction, no register written. -/
def compare (s : State) (x : Reg) (b : Long) : State :=
  { s with flags := (subCore x.width (readReg s x) b false s.flags).2 }

/-- The `X, [Y]` form: the memory operand has the width of `X` (R202). -/
def withMemoryOperand (s : State) (x y : Reg) (k : State → Reg → Long → State) :
    Except Fault State :=
  match memRead s (pointer s y) x.width.bytes with
  | .error e => .error e
  | .ok (v, s') => .ok (k s' x v)

/-! ### One-operand forms (R265) -/

/-- A one-operand operation: from the value and the old flags, the result and the flags. -/
abbrev UnaryOp := Long → Flags → Long × Flags

/-- The register form: read, operate at the register's width, write back. -/
def modifyReg (s : State) (x : Reg) (op : UnaryOp) : State :=
  { writeReg s x (op (readReg s x) s.flags).1 with flags := (op (readReg s x) s.flags).2 }

/-- The memory form: read, operate, write to the same address, `MEMOP_WIDTH` wide (R75, R265). -/
def modifyMem (s : State) (addr : Long) (op : UnaryOp) : Except Fault State :=
  match memRead s addr memopWidth.bytes with
  | .error e => .error e
  | .ok (v, s') =>
    match memWrite s' addr memopWidth.bytes (op v s'.flags).1 with
    | .error e => .error e
    | .ok s'' => .ok { s'' with flags := (op v s'.flags).2 }

/-- The state after an increment of a value of width `w`: one draw (of `H`) if it is a long (R203). -/
def drawnIfLong (w : Width) (s : State) : State :=
  match w with
  | .long => drawn s
  | _ => s

/-! ### Bit numbers (R280) -/

/-- Runs an operation on bit `b` of an operand of width `w`: a bit number that is not below the width
faults (R280, R304 point 7: before any memory access). -/
def withBit (b : Byte) (w : Width) (r : Except Fault State) : Except Fault State :=
  if w.bits ≤ b.toNat then .error .bitIndexRange else r

end Sys2Proof.Machine
end

