-- ==== Sys2Proof/Machine/Arithmetic.lean ====
section
/-! DEFINITION. The meanings of the sixteen arithmetic instructions (spec/43_arithmetic.md R200 to R219).
The first operand of the two-operand forms is an accumulator register; decoding refuses any other
(R109, R202). -/

namespace Sys2Proof.Machine

/-- `INC X` (R203): `H` of a long register is drawn. -/
def execIncR (x : Reg) (s : State) : Result :=
  .next (drawnIfLong x.width (modifyReg s x (incCore x.width (Config.incLongH s.draws))))

/-- `INC [Y]` (R204): one byte of memory. -/
def execIncM (y : Reg) (s : State) : Result :=
  settle (match modifyMem s (pointer s y) (incCore memopWidth (Config.incLongH s.draws)) with
    | .error e => .error e
    | .ok s' => .ok (drawnIfLong memopWidth s'))

/-- `DEC X` (R205). -/
def execDecR (x : Reg) (s : State) : Result := .next (modifyReg s x (decCore x.width))

/-- `DEC [Y]` (R206). -/
def execDecM (y : Reg) (s : State) : Result :=
  settle (modifyMem s (pointer s y) (decCore memopWidth))

/-- `ADD X, I` (R207). -/
def execAddI (x : Reg) (imm : Long) (s : State) : Result := .next (accumulate addOp s x imm)

/-- `ADD X, Y` (R208). -/
def execAddR (x y : Reg) (s : State) : Result := .next (accumulate addOp s x (registerOperand s x y))

/-- `ADD X, [Y]` (R209). -/
def execAddM (x y : Reg) (s : State) : Result := settle (withMemoryOperand s x y (accumulate addOp))

/-- `ADC X, I` (R210). -/
def execAdcI (x : Reg) (imm : Long) (s : State) : Result := .next (accumulate adcOp s x imm)

/-- `ADC X, Y` (R211). -/
def execAdcR (x y : Reg) (s : State) : Result := .next (accumulate adcOp s x (registerOperand s x y))

/-- `ADC X, [Y]` (R212). -/
def execAdcM (x y : Reg) (s : State) : Result := settle (withMemoryOperand s x y (accumulate adcOp))

/-- `SUB X, I` (R213). -/
def execSubI (x : Reg) (imm : Long) (s : State) : Result := .next (accumulate subOp s x imm)

/-- `SUB X, Y` (R214). -/
def execSubR (x y : Reg) (s : State) : Result := .next (accumulate subOp s x (registerOperand s x y))

/-- `SUB X, [Y]` (R215). -/
def execSubM (x y : Reg) (s : State) : Result := settle (withMemoryOperand s x y (accumulate subOp))

/-- `SBC X, I` (R216). -/
def execSbcI (x : Reg) (imm : Long) (s : State) : Result := .next (accumulate sbcOp s x imm)

/-- `SBC X, Y` (R217). -/
def execSbcR (x y : Reg) (s : State) : Result := .next (accumulate sbcOp s x (registerOperand s x y))

/-- `SBC X, [Y]` (R218). -/
def execSbcM (x y : Reg) (s : State) : Result := settle (withMemoryOperand s x y (accumulate sbcOp))

end Sys2Proof.Machine
end

