-- ==== Sys2Proof/Machine/BitCheck.lean ====
section
/-! DEFINITION. The meanings of the eight bit checking instructions (spec/46_bit_check.md R280 to R288). -/

namespace Sys2Proof.Machine

/-- `BIT X, Y` (R281). -/
def execBitR (b : Byte) (y : Reg) (s : State) : Result :=
  settle (withBit b y.width (.ok { s with flags := bitFlags b (readReg s y) s.flags }))

/-- `BIT X, [Y]` (R282): memory is only read. -/
def execBitM (b : Byte) (y : Reg) (s : State) : Result :=
  settle (withBit b memopWidth
    (match memRead s (pointer s y) memopWidth.bytes with
      | .error e => .error e
      | .ok (v, s') => .ok { s' with flags := bitFlags b v s'.flags }))

/-- `SET X, Y` (R283). -/
def execSetR (b : Byte) (y : Reg) (s : State) : Result :=
  settle (withBit b y.width (.ok (modifyReg s y (setCore b))))

/-- `SET X, [Y]` (R284). -/
def execSetM (b : Byte) (y : Reg) (s : State) : Result :=
  settle (withBit b memopWidth (modifyMem s (pointer s y) (setCore b)))

/-- `RES X, Y` (R285): no flag is written. -/
def execResR (b : Byte) (y : Reg) (s : State) : Result :=
  settle (withBit b y.width (.ok (modifyReg s y (resCore y.width b))))

/-- `RES X, [Y]` (R286): no flag is written. -/
def execResM (b : Byte) (y : Reg) (s : State) : Result :=
  settle (withBit b memopWidth (modifyMem s (pointer s y) (resCore memopWidth b)))

/-- `SWAP X` (R287). -/
def execSwapR (x : Reg) (s : State) : Result := .next (modifyReg s x (swapCore x.width))

/-- `SWAP [X]` (R288): the two nibbles of a byte. -/
def execSwapM (x : Reg) (s : State) : Result :=
  settle (modifyMem s (pointer s x) (swapCore memopWidth))

end Sys2Proof.Machine
end

