-- ==== Sys2Proof/Machine/Bitwise.lean ====
section
/-! DEFINITION. The meanings of the twelve bitwise and comparison instructions (spec/44_bitwise_compare.md
R230 to R242). -/

namespace Sys2Proof.Machine

/-- `AND X, I` (R231). -/
def execAndI (x : Reg) (imm : Long) (s : State) : Result := .next (accumulate andOp s x imm)

/-- `AND X, Y` (R232). -/
def execAndR (x y : Reg) (s : State) : Result := .next (accumulate andOp s x (registerOperand s x y))

/-- `AND X, [Y]` (R233). -/
def execAndM (x y : Reg) (s : State) : Result := settle (withMemoryOperand s x y (accumulate andOp))

/-- `OR X, I` (R234). -/
def execOrI (x : Reg) (imm : Long) (s : State) : Result := .next (accumulate orOp s x imm)

/-- `OR X, Y` (R235). -/
def execOrR (x y : Reg) (s : State) : Result := .next (accumulate orOp s x (registerOperand s x y))

/-- `OR X, [Y]` (R236). -/
def execOrM (x y : Reg) (s : State) : Result := settle (withMemoryOperand s x y (accumulate orOp))

/-- `XOR X, I` (R237). -/
def execXorI (x : Reg) (imm : Long) (s : State) : Result := .next (accumulate xorOp s x imm)

/-- `XOR X, Y` (R238). -/
def execXorR (x y : Reg) (s : State) : Result := .next (accumulate xorOp s x (registerOperand s x y))

/-- `XOR X, [Y]` (R239). -/
def execXorM (x y : Reg) (s : State) : Result := settle (withMemoryOperand s x y (accumulate xorOp))

/-- `CMP X, I` (R240). -/
def execCmpI (x : Reg) (imm : Long) (s : State) : Result := .next (compare s x imm)

/-- `CMP X, Y` (R241). -/
def execCmpR (x y : Reg) (s : State) : Result := .next (compare s x (registerOperand s x y))

/-- `CMP X, [Y]` (R242). -/
def execCmpM (x y : Reg) (s : State) : Result := settle (withMemoryOperand s x y compare)

end Sys2Proof.Machine
end

