-- ==== Sys2Proof/Machine/ControlTransfer.lean ====
section
/-! DEFINITION. The meanings of the eight control transfer instructions (spec/42_control_transfer.md R180
to R188). `PC` is already the address of the next instruction; a false condition does nothing more
(R180a). No flag is written but `S` by a return with the call stack empty (R180b). -/

namespace Sys2Proof.Machine

/-- `JMP X, [A32]` (R181): `PC` receives `A32` itself. -/
def execJmpA32 (c : Cond) (addr : Long) (s : State) : Result :=
  .next (if condHolds c s.flags then { s with pc := addr } else s)

/-- `JMP X, [Y]` (R182): `PC` receives the register's value, no memory is read. -/
def execJmpR (c : Cond) (y : Reg) (s : State) : Result :=
  .next (if condHolds c s.flags then { s with pc := pointer s y } else s)

/-- `JPB X, S16` (R183): the offset is relative to the following instruction, modulo 2^32. -/
def execJpb (c : Cond) (off : Word) (s : State) : Result :=
  .next (if condHolds c s.flags then { s with pc := s.pc + off.signExtend 32 } else s)

/-- `CALL X, [A32]` (R184). -/
def execCall (c : Cond) (addr : Long) (s : State) : Result :=
  if condHolds c s.flags then settle (callTo s addr) else .next s

/-- `RST X` (R185): unconditional. -/
def execRst (v : BitVec 4) (s : State) : Result := settle (callTo s (restartVector v))

/-- `RET X` (R186). -/
def execRet (c : Cond) (s : State) : Result :=
  if condHolds c s.flags then settle (returnFromCall s) else .next s

/-- `RETI` (R187): sets `IME`, then returns; with the call stack empty `IME` stays set. -/
def execReti (s : State) : Result := settle (returnFromCall { s with ime := true })

/-- `JPS` (R188): a jump, not a reset. -/
def execJps (s : State) : Result := .next { s with pc := pcReset }

end Sys2Proof.Machine
end

