-- ==== Sys2Proof/Machine/DataTransfer.lean ====
section
/-! DEFINITION. The meanings of the twelve data transfer instructions (spec/41_data_transfer.md R160 to
R173). None reads or writes a flag, `IME` or `EC` (R172). -/

namespace Sys2Proof.Machine

/-- `LD X, I` (R160). -/
def execLdI (x : Reg) (imm : Long) (s : State) : Result := .next (writeReg s x imm)

/-- `LD X, [A32]` (R161). -/
def execLdA32 (x : Reg) (addr : Long) (s : State) : Result := settle (load s x addr)

/-- `LD X, [Y]` (R162): `Y` is read before `X` is written. -/
def execLdM (x y : Reg) (s : State) : Result := settle (load s x (pointer s y))

/-- `LDQ X, [A16]` (R163). -/
def execLdq (x : Reg) (off : Word) (s : State) : Result := settle (load s x (qramAddr off))

/-- `LDH X, [A8]` (R164). -/
def execLdh (x : Reg) (off : Byte) (s : State) : Result := settle (load s x (hwregAddr off))

/-- `ST [A32], Y` (R165). -/
def execStA32 (addr : Long) (y : Reg) (s : State) : Result := settle (store s addr y)

/-- `ST [X], Y` (R166). -/
def execStM (x y : Reg) (s : State) : Result := settle (store s (pointer s x) y)

/-- `STQ [A16], Y` (R167). -/
def execStq (off : Word) (y : Reg) (s : State) : Result := settle (store s (qramAddr off) y)

/-- `STH [A8], Y` (R168). -/
def execSth (off : Byte) (y : Reg) (s : State) : Result := settle (store s (hwregAddr off) y)

/-- `MV X, Y` (R169): zero-extended when `Y` is narrower; the write takes the low bits when it is wider. -/
def execMv (x y : Reg) (s : State) : Result := .next (writeReg s x (readReg s y))

/-- `PUSH X` (R170): the register goes on the general stack as a zero-extended long. -/
def execPush (x : Reg) (s : State) : Result := settle (pushData s (readReg s x))

/-- `POP X` (R171): the register takes the low bits of the long. -/
def execPop (x : Reg) (s : State) : Result :=
  settle (match popData s with
    | .error e => .error e
    | .ok (v, s') => .ok (writeReg s' x v))

end Sys2Proof.Machine
end

