-- ==== Sys2Proof/Machine/General.lean ====
section
/-! DEFINITION. The meanings of the thirteen general instructions (spec/40_general.md R140 to R152). A
meaning runs after the fetch: `PC` is the address of the byte after the instruction. -/

namespace Sys2Proof.Machine

/-- `NOP` (R140): "Does nothing." -/
def execNop (s : State) : Result := .next s

/-- `STOP` (R141): sets `S`; `EC` is not written. -/
def execStop (s : State) : Result := .next { s with flags := { s.flags with s := true } }

/-- `HALT` (R142): sets `L`. -/
def execHalt (s : State) : Result := .next { s with flags := { s.flags with l := true } }

/-- `SEC XX` (R143). -/
def execSec (xx : Byte) (s : State) : Result := .next { s with ec := xx }

/-- `CEC` (R144). -/
def execCec (s : State) : Result := .next { s with ec := 0x00 }

/-- `DI` (R145). -/
def execDi (s : State) : Result := .next { s with ime := false }

/-- `EI` (R146): takes effect for the very next step. -/
def execEi (s : State) : Result := .next { s with ime := true }

/-- `DAA` (R147): on `AL`. -/
def execDaa (s : State) : Result :=
  .next
    { writeReg s ⟨.a, .lo⟩ ((daaCore ((readReg s ⟨.a, .lo⟩).setWidth 8) s.flags).1.setWidth 32) with
      flags := (daaCore ((readReg s ⟨.a, .lo⟩).setWidth 8) s.flags).2 }

/-- `CPL` (R148): on `A`. -/
def execCpl (s : State) : Result :=
  .next { writeReg s ⟨.a, .long⟩ (readReg s ⟨.a, .long⟩ ^^^ 0xFFFFFFFF) with
    flags := complementFlags s.flags }

/-- `CPW` (R149): on `AW`. -/
def execCpw (s : State) : Result :=
  .next { writeReg s ⟨.a, .word⟩ (readReg s ⟨.a, .word⟩ ^^^ 0xFFFF) with
    flags := complementFlags s.flags }

/-- `CPB` (R150): on `AL`. -/
def execCpb (s : State) : Result :=
  .next { writeReg s ⟨.a, .lo⟩ (readReg s ⟨.a, .lo⟩ ^^^ 0xFF) with
    flags := complementFlags s.flags }

/-- `SCF` (R151). -/
def execScf (s : State) : Result := .next { s with flags := carryFlags true s.flags }

/-- `CCF` (R152). -/
def execCcf (s : State) : Result := .next { s with flags := carryFlags (!s.flags.c) s.flags }

end Sys2Proof.Machine
end

