-- ==== Sys2Proof/Machine/Shift.lean ====
section
/-! DEFINITION. The meanings of the fourteen shift and rotate instructions (spec/45_shift_rotate.md R250 to
R265): seven kinds, each on a register of any width or on one byte of memory. -/

namespace Sys2Proof.Machine

/-- `SLA X` (R251). -/
def execSlaR (x : Reg) (s : State) : Result := .next (modifyReg s x (shiftCore .sla x.width))

/-- `SLA [X]` (R252). -/
def execSlaM (x : Reg) (s : State) : Result :=
  settle (modifyMem s (pointer s x) (shiftCore .sla memopWidth))

/-- `SRA X` (R253). -/
def execSraR (x : Reg) (s : State) : Result := .next (modifyReg s x (shiftCore .sra x.width))

/-- `SRA [X]` (R254). -/
def execSraM (x : Reg) (s : State) : Result :=
  settle (modifyMem s (pointer s x) (shiftCore .sra memopWidth))

/-- `SRL X` (R255). -/
def execSrlR (x : Reg) (s : State) : Result := .next (modifyReg s x (shiftCore .srl x.width))

/-- `SRL [X]` (R256). -/
def execSrlM (x : Reg) (s : State) : Result :=
  settle (modifyMem s (pointer s x) (shiftCore .srl memopWidth))

/-- `RL X` (R257). -/
def execRlR (x : Reg) (s : State) : Result := .next (modifyReg s x (shiftCore .rl x.width))

/-- `RL [X]` (R258). -/
def execRlM (x : Reg) (s : State) : Result :=
  settle (modifyMem s (pointer s x) (shiftCore .rl memopWidth))

/-- `RLC X` (R259). -/
def execRlcR (x : Reg) (s : State) : Result := .next (modifyReg s x (shiftCore .rlc x.width))

/-- `RLC [X]` (R260). -/
def execRlcM (x : Reg) (s : State) : Result :=
  settle (modifyMem s (pointer s x) (shiftCore .rlc memopWidth))

/-- `RR X` (R261). -/
def execRrR (x : Reg) (s : State) : Result := .next (modifyReg s x (shiftCore .rr x.width))

/-- `RR [X]` (R262). -/
def execRrM (x : Reg) (s : State) : Result :=
  settle (modifyMem s (pointer s x) (shiftCore .rr memopWidth))

/-- `RRC X` (R263). -/
def execRrcR (x : Reg) (s : State) : Result := .next (modifyReg s x (shiftCore .rrc x.width))

/-- `RRC [X]` (R264). -/
def execRrcM (x : Reg) (s : State) : Result :=
  settle (modifyMem s (pointer s x) (shiftCore .rrc memopWidth))

end Sys2Proof.Machine
end

