-- ==== Sys2Proof/Machine/Dispatch.lean ====
section
/-! DEFINITION. One arm for each instruction, in the order of spec/opcode_table.json: a direct call of its
meaning. -/

namespace Sys2Proof.Machine

def exec (i : Instr) (s : State) : Host.Outcome State Fault Refusal :=
  match i with
  | .nop => Sys2Proof.Machine.execNop s
  | .stop => Sys2Proof.Machine.execStop s
  | .halt => Sys2Proof.Machine.execHalt s
  | .sec xx => Sys2Proof.Machine.execSec xx s
  | .cec => Sys2Proof.Machine.execCec s
  | .di => Sys2Proof.Machine.execDi s
  | .ei => Sys2Proof.Machine.execEi s
  | .daa => Sys2Proof.Machine.execDaa s
  | .cpl => Sys2Proof.Machine.execCpl s
  | .cpw => Sys2Proof.Machine.execCpw s
  | .cpb => Sys2Proof.Machine.execCpb s
  | .scf => Sys2Proof.Machine.execScf s
  | .ccf => Sys2Proof.Machine.execCcf s
  | .ldI x imm => Sys2Proof.Machine.execLdI x imm s
  | .ldA32 x addr => Sys2Proof.Machine.execLdA32 x addr s
  | .ldM x y => Sys2Proof.Machine.execLdM x y s
  | .ldq x off => Sys2Proof.Machine.execLdq x off s
  | .ldh x off => Sys2Proof.Machine.execLdh x off s
  | .stA32 addr y => Sys2Proof.Machine.execStA32 addr y s
  | .stM x y => Sys2Proof.Machine.execStM x y s
  | .stq off y => Sys2Proof.Machine.execStq off y s
  | .sth off y => Sys2Proof.Machine.execSth off y s
  | .mv x y => Sys2Proof.Machine.execMv x y s
  | .push x => Sys2Proof.Machine.execPush x s
  | .pop x => Sys2Proof.Machine.execPop x s
  | .jmpA32 c addr => Sys2Proof.Machine.execJmpA32 c addr s
  | .jmpR c y => Sys2Proof.Machine.execJmpR c y s
  | .jpb c off => Sys2Proof.Machine.execJpb c off s
  | .call c addr => Sys2Proof.Machine.execCall c addr s
  | .rst v => Sys2Proof.Machine.execRst v s
  | .ret c => Sys2Proof.Machine.execRet c s
  | .reti => Sys2Proof.Machine.execReti s
  | .jps => Sys2Proof.Machine.execJps s
  | .incR x => Sys2Proof.Machine.execIncR x s
  | .incM y => Sys2Proof.Machine.execIncM y s
  | .decR x => Sys2Proof.Machine.execDecR x s
  | .decM y => Sys2Proof.Machine.execDecM y s
  | .addI x imm => Sys2Proof.Machine.execAddI x imm s
  | .addR x y => Sys2Proof.Machine.execAddR x y s
  | .addM x y => Sys2Proof.Machine.execAddM x y s
  | .adcI x imm => Sys2Proof.Machine.execAdcI x imm s
  | .adcR x y => Sys2Proof.Machine.execAdcR x y s
  | .adcM x y => Sys2Proof.Machine.execAdcM x y s
  | .subI x imm => Sys2Proof.Machine.execSubI x imm s
  | .subR x y => Sys2Proof.Machine.execSubR x y s
  | .subM x y => Sys2Proof.Machine.execSubM x y s
  | .sbcI x imm => Sys2Proof.Machine.execSbcI x imm s
  | .sbcR x y => Sys2Proof.Machine.execSbcR x y s
  | .sbcM x y => Sys2Proof.Machine.execSbcM x y s
  | .andI x imm => Sys2Proof.Machine.execAndI x imm s
  | .andR x y => Sys2Proof.Machine.execAndR x y s
  | .andM x y => Sys2Proof.Machine.execAndM x y s
  | .orI x imm => Sys2Proof.Machine.execOrI x imm s
  | .orR x y => Sys2Proof.Machine.execOrR x y s
  | .orM x y => Sys2Proof.Machine.execOrM x y s
  | .xorI x imm => Sys2Proof.Machine.execXorI x imm s
  | .xorR x y => Sys2Proof.Machine.execXorR x y s
  | .xorM x y => Sys2Proof.Machine.execXorM x y s
  | .cmpI x imm => Sys2Proof.Machine.execCmpI x imm s
  | .cmpR x y => Sys2Proof.Machine.execCmpR x y s
  | .cmpM x y => Sys2Proof.Machine.execCmpM x y s
  | .slaR x => Sys2Proof.Machine.execSlaR x s
  | .slaM x => Sys2Proof.Machine.execSlaM x s
  | .sraR x => Sys2Proof.Machine.execSraR x s
  | .sraM x => Sys2Proof.Machine.execSraM x s
  | .srlR x => Sys2Proof.Machine.execSrlR x s
  | .srlM x => Sys2Proof.Machine.execSrlM x s
  | .rlR x => Sys2Proof.Machine.execRlR x s
  | .rlM x => Sys2Proof.Machine.execRlM x s
  | .rlcR x => Sys2Proof.Machine.execRlcR x s
  | .rlcM x => Sys2Proof.Machine.execRlcM x s
  | .rrR x => Sys2Proof.Machine.execRrR x s
  | .rrM x => Sys2Proof.Machine.execRrM x s
  | .rrcR x => Sys2Proof.Machine.execRrcR x s
  | .rrcM x => Sys2Proof.Machine.execRrcM x s
  | .bitR b y => Sys2Proof.Machine.execBitR b y s
  | .bitM b y => Sys2Proof.Machine.execBitM b y s
  | .setR b y => Sys2Proof.Machine.execSetR b y s
  | .setM b y => Sys2Proof.Machine.execSetM b y s
  | .resR b y => Sys2Proof.Machine.execResR b y s
  | .resM b y => Sys2Proof.Machine.execResM b y s
  | .swapR x => Sys2Proof.Machine.execSwapR x s
  | .swapM x => Sys2Proof.Machine.execSwapM x s

end Sys2Proof.Machine
end

