-- ==== Sys2Proof/Machine/Fetch.lean ====
section
/-! DEFINITION. Instruction fetch (spec/20_memory.md R84, spec/30_encoding.md R104, R111): the opcode word,
then the immediates, each byte checked for execute permission. -/

namespace Sys2Proof.Machine

/-- The first fault of a fetch of `n` bytes at address `a`, byte by byte (R84). -/
def fetchFault (a : Nat) : Nat → Option Fault
  | 0 => none
  | n + 1 =>
    if addrLimit ≤ a then some .addressWrap
    else if executable a then fetchFault (a + 1) n
    else some .fetchNotExecutable

/-- `Fetch(n)` (R84), the bytes as they stand in memory: those at `PC`, and `PC` advanced. -/
def fetchBytes (n : Nat) (s : State) : Except Fault (List Byte × State) :=
  match fetchFault s.pc.toNat n with
  | some e => .error e
  | none => .ok (readBytes s s.pc.toNat n, { s with pc := s.pc + BitVec.ofNat 32 n })

/-- `Fetch(n)` (R84): the little-endian value at `PC`, and `PC` advanced. -/
def fetch (n : Nat) (s : State) : Except Fault (Nat × State) :=
  match fetchBytes n s with
  | .error e => .error e
  | .ok (bytes, s') => .ok (littleEndian bytes, s')

/-- `FetchOpcode()` (R84, D33): `IA` takes the instruction's address, `CI` the opcode word. -/
def fetchOpcode (s : State) : Except Fault (Word × State) :=
  match fetch 2 { s with ia := s.pc } with
  | .error e => .error e
  | .ok (v, s') => .ok (BitVec.ofNat 16 v, { s' with ci := BitVec.ofNat 16 v })

/-- The fault of an opcode word that is no instruction (R303). -/
def rejectFault : Reject → Fault
  | .illegalOpcode => .illegalOpcode
  | .reservedField => .reservedField
  | .badCondition => .badCondition
  | .nonAccumulator => .nonAccumulator

/-- Fetches and decodes one instruction: opcode word, decode checks, immediates (R304 points 4 to 6). How
many bytes follow the word, and what they mean, the decoded word says from `IMM_LAYOUT` and `BITIDX_LAYOUT`
(R103, R280), whose bytes are fetched whether or not a condition will hold (R104). With every instruction the registers `MA`, `MD` and `DA` take unspecified values (I12). -/
def fetchInstr (s : State) : Except Fault (Instr × State) :=
  match fetchOpcode s with
  | .error e => .error e
  | .ok (w, s1) =>
    match decodeWord w with
    | .error r => .error (rejectFault r)
    | .ok d =>
      match fetchBytes d.immBytes s1 with
      | .error e => .error e
      | .ok (bytes, s2) => .ok (d.build bytes, drawInternals s2)

end Sys2Proof.Machine
end

