-- ==== Sys2Proof/Machine/Step.lean ====
section
/-! DEFINITION. The step (spec/60_exceptions.md R311), and the state that holds a given instruction where
the step fetches. -/

namespace Sys2Proof.Machine

/-- One step of the CPU (R311): the prologue decides whether it waits, enters an interrupt handler, or
fetches and executes an instruction. -/
def step (s : State) : Host.Outcome State Fault Refusal :=
  match prologue s with
  | .wait s' => .next s'
  | .interrupt n s' => settle (takeInterrupt n s')
  | .run s' =>
    match fetchInstr s' with
    | .error e => .fault e
    | .ok (i, s'') => exec i s''

/-- The state with an instruction (its bits `w`, of which `nbits` are given, every bit above 0) stored at
`PC`, and the CPU neither stopped nor halted and with nothing pending at the next sample, so that the
next step fetches and runs it. The bytes are placed as a loader places them, in ROM too (R321). -/
def State.withFetchWord (s : State) (nbits w : Nat) : State :=
  writeBytes
    { s with
      flags := { s.flags with l := false, s := false }
      irq := match s.irq with
        | [] => []
        | _ :: rest => [] :: rest }
    s.pc.toNat (leBytes (w % 2 ^ nbits) maxLength)

end Sys2Proof.Machine
end

