-- ==== Sys2Proof/Safety.lean ====
section
/-! DEFINITION. The words that statements about the machine are written in: which parts of the state an
instruction leaves as they were, the invariant that every step keeps, the table of flag effects, and
what a run that has stopped or gone wrong is. -/

namespace Sys2Proof.Machine

/-! ### Frames -/

/-- A part of the state, as frames name it. -/
inductive Field where
  | long (r : Row)
  | z
  | n
  | h
  | c
  | o
  | u
  | l
  | s
  | ime
  | ec
  | pc
  | sp
  | rp
  | ia
  | ma
  | md
  | ci
  | da
  | mem
  | irq
  | platform
  | draws
deriving DecidableEq, Repr

/-- Two states agree on a part; on memory, when every byte reads the same. -/
def agreeOn (x : Field) (s t : State) : Prop :=
  match x with
  | .long r => t.long r = s.long r
  | .z => t.flags.z = s.flags.z
  | .n => t.flags.n = s.flags.n
  | .h => t.flags.h = s.flags.h
  | .c => t.flags.c = s.flags.c
  | .o => t.flags.o = s.flags.o
  | .u => t.flags.u = s.flags.u
  | .l => t.flags.l = s.flags.l
  | .s => t.flags.s = s.flags.s
  | .ime => t.ime = s.ime
  | .ec => t.ec = s.ec
  | .pc => t.pc = s.pc
  | .sp => t.sp = s.sp
  | .rp => t.rp = s.rp
  | .ia => t.ia = s.ia
  | .ma => t.ma = s.ma
  | .md => t.md = s.md
  | .ci => t.ci = s.ci
  | .da => t.da = s.da
  | .mem => ∀ a, readByte t a = readByte s a
  | .irq => t.irq = s.irq
  | .platform => t.platform = s.platform
  | .draws => t.draws = s.draws

/-- `t` is `s` but, possibly, for the listed parts. -/
def sameExcept (changed : List Field) (s t : State) : Prop := ∀ x, x ∉ changed → agreeOn x s t

/-- The six flags that an operation's result decides (R27). -/
def arithmeticFlags : List Field := [.z, .n, .h, .c, .o, .u]

/-- Whether bit `k` of a long belongs to a part (R21). -/
def inPart (p : Part) (k : Nat) : Bool :=
  match p with
  | .long => decide (k < 32)
  | .word => decide (k < 16)
  | .hi => decide (8 ≤ k) && decide (k < 16)
  | .lo => decide (k < 8)

/-- Register `x` has the value `v` in `t`; every other bit of its long, and every other long, is as in `s`
(R24). -/
def regBecomes (x : Reg) (v : Long) (s t : State) : Prop :=
  readReg t x = v ∧
    (∀ k, inPart x.part k = false →
      (t.long x.row).getLsbD k = (s.long x.row).getLsbD k) ∧
    ∀ r, r ≠ x.row → t.long r = s.long r

/-- Every byte of memory outside the `n` bytes at `a` reads as before. -/
def sameMemoryOutside (a n : Nat) (s t : State) : Prop :=
  ∀ k, (k < a ∨ a + n ≤ k) → readByte t k = readByte s k

/-- One data access read the `n` bytes at `a`: `v` is their little-endian value (R61, R62), where a byte of
the hardware-register page is the platform's answer, and the platform has seen the access exactly if it
touches that page (R76). -/
def valueRead (a n : Nat) (v : Long) (s t : State) : Prop :=
  t.platform =
      (if hwregStart < a + n then
        .read ((List.range' a n).filter fun k => decide (hwregStart ≤ k)) :: s.platform
      else s.platform) ∧
    v = BitVec.ofNat 32 (littleEndian ((List.range' a n).map fun k =>
      if hwregStart ≤ k then Config.hwregByte t.platform s.draws k else readByte s k))

/-- One data access stored the low `n` bytes of `v` at `a`, least significant first (R61, R62): memory
below the hardware-register page holds them, the bytes of that page went to the platform (R76), and no
other byte of memory changed. -/
def valueStored (a n : Nat) (v : Long) (s t : State) : Prop :=
  (∀ k, k < n → a + k < hwregStart → readByte t (a + k) = v.extractLsb' (8 * k) 8) ∧
    sameMemoryOutside a n s t ∧
    t.platform =
      (if hwregStart < a + n then
        .write (((List.range' a n).zip ((List.range n).map fun k => v.extractLsb' (8 * k) 8)).filter
          fun p => decide (hwregStart ≤ p.1)) :: s.platform
      else s.platform)

/-- The byte `v` read at `a` has been replaced by `r`, in memory or in the hardware-register page, and no
other byte of memory changed (R75, R76, R265). -/
def byteRewritten (a : Nat) (v r : Byte) (s t : State) : Prop :=
  (if a < hwregStart then
    v = readByte s a ∧ readByte t a = r ∧ t.platform = s.platform
  else
    v = Config.hwregByte (.read [a] :: s.platform) s.draws a ∧
      t.platform = .write [(a, r)] :: .read [a] :: s.platform ∧ readByte t a = readByte s a) ∧
    ∀ k, k ≠ a → readByte t k = readByte s k

/-- `i` is the `X, I`, `X, Y` or `X, [Y]` form of a two-operand instruction, its second operand has the
value `b` (R202), and `s1` is the state after that operand has been read. -/
def takesOperand (mkI : Reg → Long → Instr) (mkR mkM : Reg → Reg → Instr)
    (i : Instr) (x : Reg) (s : State) (b : Long) (s1 : State) : Prop :=
  (i = mkI x b ∧ immFits x b = true ∧ s1 = s) ∨
  (∃ y, i = mkR x y ∧ b.toNat = (readReg s y).toNat % 2 ^ x.width.bits ∧ s1 = s) ∨
  (∃ y, i = mkM x y ∧ memRead s (readReg s y) x.width.bytes = .ok (b, s1))

/-! ### Flag effects (R45) -/

/-- What a character of a flag string says (R9). -/
inductive FlagEffect where
  /-- `0`: the flag is cleared. -/
  | clear
  /-- `1`: the flag is set. -/
  | set
  /-- `?`: the result decides. -/
  | result
  /-- `-`: the flag is kept. -/
  | keep
deriving DecidableEq, Repr

/-- A flag string, in the order `Z N H C O U L S` (R9). -/
structure FlagString where
  z : FlagEffect
  n : FlagEffect
  h : FlagEffect
  c : FlagEffect
  o : FlagEffect
  u : FlagEffect
  l : FlagEffect
  s : FlagEffect
deriving DecidableEq, Repr

/-- The flag strings of R45. For `RET` and `RETI` the `S` is a `?`: set when the call stack is empty, kept
otherwise (`StopFlagOnlySetByStopCauses` in the obligations says when). -/
def flagString (i : Instr) : FlagString :=
  match i with
  | .nop => ⟨.keep, .keep, .keep, .keep, .keep, .keep, .keep, .keep⟩
  | .stop => ⟨.keep, .keep, .keep, .keep, .keep, .keep, .keep, .set⟩
  | .halt => ⟨.keep, .keep, .keep, .keep, .keep, .keep, .set, .keep⟩
  | .sec _ => ⟨.keep, .keep, .keep, .keep, .keep, .keep, .keep, .keep⟩
  | .cec => ⟨.keep, .keep, .keep, .keep, .keep, .keep, .keep, .keep⟩
  | .di => ⟨.keep, .keep, .keep, .keep, .keep, .keep, .keep, .keep⟩
  | .ei => ⟨.keep, .keep, .keep, .keep, .keep, .keep, .keep, .keep⟩
  | .daa => ⟨.result, .keep, .clear, .result, .result, .result, .keep, .keep⟩
  | .cpl => ⟨.keep, .set, .set, .keep, .keep, .keep, .keep, .keep⟩
  | .cpw => ⟨.keep, .set, .set, .keep, .keep, .keep, .keep, .keep⟩
  | .cpb => ⟨.keep, .set, .set, .keep, .keep, .keep, .keep, .keep⟩
  | .scf => ⟨.keep, .clear, .clear, .set, .clear, .clear, .keep, .keep⟩
  | .ccf => ⟨.keep, .clear, .clear, .result, .clear, .clear, .keep, .keep⟩
  | .ldI _ _ => ⟨.keep, .keep, .keep, .keep, .keep, .keep, .keep, .keep⟩
  | .ldA32 _ _ => ⟨.keep, .keep, .keep, .keep, .keep, .keep, .keep, .keep⟩
  | .ldM _ _ => ⟨.keep, .keep, .keep, .keep, .keep, .keep, .keep, .keep⟩
  | .ldq _ _ => ⟨.keep, .keep, .keep, .keep, .keep, .keep, .keep, .keep⟩
  | .ldh _ _ => ⟨.keep, .keep, .keep, .keep, .keep, .keep, .keep, .keep⟩
  | .stA32 _ _ => ⟨.keep, .keep, .keep, .keep, .keep, .keep, .keep, .keep⟩
  | .stM _ _ => ⟨.keep, .keep, .keep, .keep, .keep, .keep, .keep, .keep⟩
  | .stq _ _ => ⟨.keep, .keep, .keep, .keep, .keep, .keep, .keep, .keep⟩
  | .sth _ _ => ⟨.keep, .keep, .keep, .keep, .keep, .keep, .keep, .keep⟩
  | .mv _ _ => ⟨.keep, .keep, .keep, .keep, .keep, .keep, .keep, .keep⟩
  | .push _ => ⟨.keep, .keep, .keep, .keep, .keep, .keep, .keep, .keep⟩
  | .pop _ => ⟨.keep, .keep, .keep, .keep, .keep, .keep, .keep, .keep⟩
  | .jmpA32 _ _ => ⟨.keep, .keep, .keep, .keep, .keep, .keep, .keep, .keep⟩
  | .jmpR _ _ => ⟨.keep, .keep, .keep, .keep, .keep, .keep, .keep, .keep⟩
  | .jpb _ _ => ⟨.keep, .keep, .keep, .keep, .keep, .keep, .keep, .keep⟩
  | .call _ _ => ⟨.keep, .keep, .keep, .keep, .keep, .keep, .keep, .keep⟩
  | .rst _ => ⟨.keep, .keep, .keep, .keep, .keep, .keep, .keep, .keep⟩
  | .ret _ => ⟨.keep, .keep, .keep, .keep, .keep, .keep, .keep, .result⟩
  | .reti => ⟨.keep, .keep, .keep, .keep, .keep, .keep, .keep, .result⟩
  | .jps => ⟨.keep, .keep, .keep, .keep, .keep, .keep, .keep, .keep⟩
  | .incR _ => ⟨.result, .clear, .result, .keep, .keep, .keep, .keep, .keep⟩
  | .incM _ => ⟨.result, .clear, .result, .keep, .keep, .keep, .keep, .keep⟩
  | .decR _ => ⟨.result, .set, .result, .keep, .keep, .keep, .keep, .keep⟩
  | .decM _ => ⟨.result, .set, .result, .keep, .keep, .keep, .keep, .keep⟩
  | .addI _ _ => ⟨.result, .clear, .result, .result, .result, .clear, .keep, .keep⟩
  | .addR _ _ => ⟨.result, .clear, .result, .result, .result, .clear, .keep, .keep⟩
  | .addM _ _ => ⟨.result, .clear, .result, .result, .result, .clear, .keep, .keep⟩
  | .adcI _ _ => ⟨.result, .clear, .result, .result, .result, .clear, .keep, .keep⟩
  | .adcR _ _ => ⟨.result, .clear, .result, .result, .result, .clear, .keep, .keep⟩
  | .adcM _ _ => ⟨.result, .clear, .result, .result, .result, .clear, .keep, .keep⟩
  | .subI _ _ => ⟨.result, .set, .result, .result, .clear, .result, .keep, .keep⟩
  | .subR _ _ => ⟨.result, .set, .result, .result, .clear, .result, .keep, .keep⟩
  | .subM _ _ => ⟨.result, .set, .result, .result, .clear, .result, .keep, .keep⟩
  | .sbcI _ _ => ⟨.result, .set, .result, .result, .clear, .result, .keep, .keep⟩
  | .sbcR _ _ => ⟨.result, .set, .result, .result, .clear, .result, .keep, .keep⟩
  | .sbcM _ _ => ⟨.result, .set, .result, .result, .clear, .result, .keep, .keep⟩
  | .andI _ _ => ⟨.result, .clear, .set, .clear, .clear, .clear, .keep, .keep⟩
  | .andR _ _ => ⟨.result, .clear, .set, .clear, .clear, .clear, .keep, .keep⟩
  | .andM _ _ => ⟨.result, .clear, .set, .clear, .clear, .clear, .keep, .keep⟩
  | .orI _ _ => ⟨.result, .clear, .clear, .clear, .clear, .clear, .keep, .keep⟩
  | .orR _ _ => ⟨.result, .clear, .clear, .clear, .clear, .clear, .keep, .keep⟩
  | .orM _ _ => ⟨.result, .clear, .clear, .clear, .clear, .clear, .keep, .keep⟩
  | .xorI _ _ => ⟨.result, .clear, .clear, .clear, .clear, .clear, .keep, .keep⟩
  | .xorR _ _ => ⟨.result, .clear, .clear, .clear, .clear, .clear, .keep, .keep⟩
  | .xorM _ _ => ⟨.result, .clear, .clear, .clear, .clear, .clear, .keep, .keep⟩
  | .cmpI _ _ => ⟨.result, .set, .result, .result, .clear, .result, .keep, .keep⟩
  | .cmpR _ _ => ⟨.result, .set, .result, .result, .clear, .result, .keep, .keep⟩
  | .cmpM _ _ => ⟨.result, .set, .result, .result, .clear, .result, .keep, .keep⟩
  | .slaR _ => ⟨.result, .clear, .clear, .result, .clear, .clear, .keep, .keep⟩
  | .slaM _ => ⟨.result, .clear, .clear, .result, .clear, .clear, .keep, .keep⟩
  | .sraR _ => ⟨.result, .clear, .clear, .result, .clear, .clear, .keep, .keep⟩
  | .sraM _ => ⟨.result, .clear, .clear, .result, .clear, .clear, .keep, .keep⟩
  | .srlR _ => ⟨.result, .clear, .clear, .result, .clear, .clear, .keep, .keep⟩
  | .srlM _ => ⟨.result, .clear, .clear, .result, .clear, .clear, .keep, .keep⟩
  | .rlR _ => ⟨.result, .clear, .clear, .result, .clear, .clear, .keep, .keep⟩
  | .rlM _ => ⟨.result, .clear, .clear, .result, .clear, .clear, .keep, .keep⟩
  | .rlcR _ => ⟨.result, .clear, .clear, .result, .clear, .clear, .keep, .keep⟩
  | .rlcM _ => ⟨.result, .clear, .clear, .result, .clear, .clear, .keep, .keep⟩
  | .rrR _ => ⟨.result, .clear, .clear, .result, .clear, .clear, .keep, .keep⟩
  | .rrM _ => ⟨.result, .clear, .clear, .result, .clear, .clear, .keep, .keep⟩
  | .rrcR _ => ⟨.result, .clear, .clear, .result, .clear, .clear, .keep, .keep⟩
  | .rrcM _ => ⟨.result, .clear, .clear, .result, .clear, .clear, .keep, .keep⟩
  | .bitR _ _ => ⟨.result, .clear, .set, .keep, .keep, .keep, .keep, .keep⟩
  | .bitM _ _ => ⟨.result, .clear, .set, .keep, .keep, .keep, .keep, .keep⟩
  | .setR _ _ => ⟨.keep, .clear, .clear, .set, .keep, .keep, .keep, .keep⟩
  | .setM _ _ => ⟨.keep, .clear, .clear, .set, .keep, .keep, .keep, .keep⟩
  | .resR _ _ => ⟨.keep, .keep, .keep, .keep, .keep, .keep, .keep, .keep⟩
  | .resM _ _ => ⟨.keep, .keep, .keep, .keep, .keep, .keep, .keep, .keep⟩
  | .swapR _ => ⟨.result, .clear, .clear, .clear, .clear, .clear, .keep, .keep⟩
  | .swapM _ => ⟨.result, .clear, .clear, .clear, .clear, .clear, .keep, .keep⟩

/-- A flag went from `old` to `new` as its character says. -/
def FlagEffect.allows (e : FlagEffect) (old new : Bool) : Prop :=
  match e with
  | .clear => new = false
  | .set => new = true
  | .result => True
  | .keep => new = old

/-- All eight flags went as the string says. -/
def FlagString.allows (e : FlagString) (f g : Flags) : Prop :=
  e.z.allows f.z g.z ∧ e.n.allows f.n g.n ∧ e.h.allows f.h g.h ∧ e.c.allows f.c g.c ∧
    e.o.allows f.o g.o ∧ e.u.allows f.u g.u ∧ e.l.allows f.l g.l ∧ e.s.allows f.s g.s

/-! ### The invariant, and runs -/

/-- What every step keeps: memory has its canonical form, and both stack pointers are 3 modulo 4 (R69). -/
def State.inv (s : State) : Prop :=
  Memory.wf s.mem ∧ s.sp.toNat % 4 = 3 ∧ s.rp.toNat % 4 = 3

/-- The CPU will execute the instruction at `PC` at the next step: it is not stopped, not halted with
nothing pending, and no pending interrupt is taken (R311). -/
def runsInstruction (s : State) : Prop :=
  s.flags.s = false ∧ (s.flags.l = true → pendingNow s ≠ []) ∧
    (s.ime = true → pendingNow s = [])

/-- The state from which the fetch starts: the interrupts have been sampled and `L` is clear (R311). -/
def fetchState (s : State) : State :=
  { s with irq := s.irq.tail, flags := { s.flags with l := false } }

/-- The meaning of one instruction applied `n` times in a row, up to the first fault or refusal. The
applications share one `PC`: the fetch, which moves it, stands between them in a run. -/
def execTimes (i : Instr) : Nat → State → Result
  | 0, s => .next s
  | n + 1, s =>
    match exec i s with
    | .next t => execTimes i n t
    | .fault e => .fault e
    | .refused r => .refused r

/-- A run has ended (R320). -/
def ended (s : State) : Prop := s.flags.s = true

/-- The next `k` steps all have a next state: no fault and no refusal. -/
def runsFor (k : Nat) (s : State) : Prop := ∃ t, Host.Core.run Sys2Proof.core k s = .next t

end Sys2Proof.Machine
end

