-- ==== Sys2Proof/Certificates/Slice0/Obligations.lean ====
section
/-! DEFINITION. The statements for the provers, as propositions; nothing is proved here. Most say what an
instruction does (`exec i s = .next t`, with `PC` already at the following instruction), what it leaves
as it was (`sameExcept`, `sameMemoryOutside`), and where it stops instead. -/

open Sys2Proof
open Sys2Proof.Machine

/-! ### Encoding -/

/-- Decoding the encoding of a well-formed instruction, whatever bytes follow it, gives the instruction
back and leaves those bytes (30_encoding.md R100 to R104, R110, R111). Rests on the spec's decisions D1
to D7 and D11 (log 1). -/
def Obligations.DecodeOfEncodeIsTheInstruction : Prop :=
  ∀ (i : Instr) (rest : List Byte), i.wf = true → decode (encode i ++ rest) = .ok (i, rest)

/-- Bytes that decode are exactly the encoding of a well-formed instruction and what follows it: no bit
of an instruction is ignored and no two encodings mean the same instruction (R100, R107, R111). Rests on
the spec's decisions D1 to D7 and D11 (log 1). -/
def Obligations.DecodedBytesAreTheEncoding : Prop :=
  ∀ (bytes rest : List Byte) (i : Instr),
    decode bytes = .ok (i, rest) → i.wf = true ∧ bytes = encode i ++ rest

/-- Nineteen encodings of the spec's own examples and test vectors decode to the instructions they are
given for (30_encoding.md sections 1, 4 and 5; 40_general.md; 42_control_transfer.md, `JPS`;
43_arithmetic.md, `DEC X`; 46_bit_check.md, `BIT X, Y`; 95_test_vectors.md part 2). Rests on the spec's
decisions D1 to D6 (log 1). -/
def Obligations.ExampleWordsDecode : Prop :=
  decode [0xB4, 0x12] = .ok (.ldM ⟨.c, .lo⟩ ⟨.b, .long⟩, []) ∧
  decode [0x30, 0x10, 0x81] = .ok (.ldI ⟨.a, .lo⟩ 0x81, []) ∧
  decode [0x40, 0x22, 0xF8, 0xFF] = .ok (.jpb .zc 0xFFF8, []) ∧
  decode [0x40, 0x18] = .ok (.stM ⟨.b, .long⟩ ⟨.a, .long⟩, []) ∧
  decode [0xFF, 0xFF] = .ok (.jps, []) ∧
  decode [0x03, 0x60, 0x04] = .ok (.bitR 4 ⟨.a, .lo⟩, []) ∧
  decode [0x70, 0x32] = .ok (.decR ⟨.b, .lo⟩, []) ∧
  decode [0x00, 0x00] = .ok (.nop, []) ∧ decode [0x00, 0x01] = .ok (.stop, []) ∧
  decode [0x00, 0x02] = .ok (.halt, []) ∧ decode [0x2A, 0x03] = .ok (.sec 0x2A, []) ∧
  decode [0x00, 0x04] = .ok (.cec, []) ∧ decode [0x00, 0x05] = .ok (.di, []) ∧
  decode [0x00, 0x06] = .ok (.ei, []) ∧ decode [0x00, 0x08] = .ok (.cpl, []) ∧
  decode [0x00, 0x09] = .ok (.cpw, []) ∧ decode [0x00, 0x0A] = .ok (.cpb, []) ∧
  decode [0x00, 0x0B] = .ok (.scf, []) ∧ decode [0x00, 0x0C] = .ok (.ccf, [])

/-- R108: an opcode word is rejected as illegal exactly when its op byte is one of the listed unassigned
ones, or is `0xFF` with a low byte other than `0xFF`. Rests on the spec's decision D8 (log 2). -/
def Obligations.UnassignedWordsAreIllegal : Prop :=
  ∀ w : Word, decodeWord w = .error .illegalOpcode ↔
    ((0x0D ≤ (opByte w).toNat ∧ (opByte w).toNat ≤ 0x0F) ∨
      opByte w = 0x14 ∨ opByte w = 0x16 ∨ opByte w = 0x1A ∨ opByte w = 0x1C ∨
      (0x27 ≤ (opByte w).toNat ∧ (opByte w).toNat ≤ 0x2F) ∨
      (0x4C ≤ (opByte w).toNat ∧ (opByte w).toNat ≤ 0x4F) ∨
      (0x5E ≤ (opByte w).toNat ∧ (opByte w).toNat ≤ 0x5F) ∨
      (0x68 ≤ (opByte w).toNat ∧ (opByte w).toNat ≤ 0xFE) ∨
      (opByte w = 0xFF ∧ w ≠ 0xFFFF))

/-- R107, R102: a word with an assigned op byte and a nonzero digit where its pattern has a literal `0`
is rejected, and no other word is rejected for that reason. Rests on the spec's decisions D3 and D7 (log
1, 2). -/
def Obligations.NonzeroPatternDigitsAreReserved : Prop :=
  ∀ (op : Byte) (x y : BitVec 4), decodeWord (opWord op x y) = .error .reservedField ↔
    ((op ∈ [0x00, 0x01, 0x02, 0x04, 0x05, 0x06, 0x07, 0x08, 0x09, 0x0A, 0x0B, 0x0C, 0x26] ∧
        (x ≠ 0 ∨ y ≠ 0)) ∨
      (op ∈ [0x10, 0x11, 0x13, 0x15, 0x1F, 0x20, 0x22, 0x23, 0x24, 0x25, 0x30, 0x32, 0x34, 0x37,
          0x3A, 0x3D, 0x40, 0x43, 0x46, 0x49, 0x50, 0x52, 0x54, 0x56, 0x58, 0x5A, 0x5C, 0x66] ∧
        y ≠ 0) ∨
      (op ∈ [0x17, 0x19, 0x1B, 0x1E, 0x31, 0x33, 0x51, 0x53, 0x55, 0x57, 0x59, 0x5B, 0x5D, 0x60,
          0x61, 0x62, 0x63, 0x64, 0x65, 0x67] ∧
        x ≠ 0))

/-- R106, R109, R111: a condition number 7 to 15 and a first operand outside row `A` are rejected, each
by its own name, and only where the pattern digit is `0`. Rests on the spec's decisions D1, D2, D3 and
D11 (log 1, 2). -/
def Obligations.BadConditionsAndNonAccumulatorsAreRejected : Prop :=
  ∀ (op : Byte) (x y : BitVec 4),
    (decodeWord (opWord op x y) = .error .badCondition ↔
      (op = 0x21 ∨ (op ∈ [0x20, 0x22, 0x23, 0x25] ∧ y = 0)) ∧ 7 ≤ x.toNat) ∧
    (decodeWord (opWord op x y) = .error .nonAccumulator ↔
      ((op ∈ [0x34, 0x37, 0x3A, 0x3D, 0x40, 0x43, 0x46, 0x49] ∧ y = 0) ∨
        op ∈ [0x35, 0x36, 0x38, 0x39, 0x3B, 0x3C, 0x3E, 0x3F, 0x41, 0x42, 0x44, 0x45, 0x47, 0x48,
          0x4A, 0x4B]) ∧
      4 ≤ x.toNat)

/-! ### The step -/

/-- When the bytes at `PC` may be executed and decode to a well-formed instruction, and the CPU is
neither stopped nor waiting nor about to take an interrupt, the step is `exec` of that instruction from
the state whose `PC` is past it, `IA` at it, `CI` its opcode word, `L` clear, and `MA`, `MD`, `DA` free
(60_exceptions.md R311, 20_memory.md R84, 10_state.md R35 to R39). Rests on the spec's decisions D3, D4,
D24, D33 and D37; that `MA`, `MD`, `DA` are drawn at each fetch is the model's choice (log 4). -/
def Obligations.StepRunsTheDecodedInstruction : Prop :=
  ∀ (s : State) (i : Instr) (n : Nat),
    runsInstruction s → i.wf = true →
    decode (readBytes s s.pc.toNat n) = .ok (i, []) →
    (∀ k, k < n → s.pc.toNat + k < 0x80000000 ∨
      (0xC0000000 ≤ s.pc.toNat + k ∧ s.pc.toNat + k ≤ 0xFFFCFFFF)) →
    step s = exec i
      { fetchState s with
        pc := s.pc + BitVec.ofNat 32 n
        ia := s.pc
        ci := readByte s (s.pc.toNat + 1) ++ readByte s s.pc.toNat
        ma := Config.maDraw s.draws
        md := Config.mdDraw s.draws
        da := Config.daDraw s.draws
        draws := s.draws + 1 }

/-- A step whose opcode word is rejected is the fault of that name (60_exceptions.md R303, R304 points 4
and 5). Rests on the spec's decisions D7, D8 and D37 (log 2). -/
def Obligations.StepFaultsOnRejectedWords : Prop :=
  ∀ (s : State) (r : Reject),
    runsInstruction s →
    (s.pc.toNat + 1 < 0x80000000 ∨
      (0xC0000000 ≤ s.pc.toNat ∧ s.pc.toNat + 1 ≤ 0xFFFCFFFF)) →
    decodeWord (readByte s (s.pc.toNat + 1) ++ readByte s s.pc.toNat) = .error r →
    step s = .fault (match r with
      | .illegalOpcode => .illegalOpcode
      | .reservedField => .reservedField
      | .badCondition => .badCondition
      | .nonAccumulator => .nonAccumulator)

/-- A fetch that takes a byte from outside ROM and XRAM faults: a byte of the opcode word, or, where the
opcode word can be fetched and is an instruction, a byte of its immediate (20_memory.md R64, R84;
30_encoding.md R104; 60_exceptions.md R304 points 4 and 6). Rests on the spec's decisions D4, D5, D6 and
D24 (log 1, 2); that it is this fault and no address wrap at `PC` = `0xFFFFFFFF` is read from the order
of the checks in R84 (log 9). -/
def Obligations.FetchOutsideExecutableMemoryFaults : Prop :=
  ∀ (s : State) (k : Nat),
    runsInstruction s →
    ¬ (s.pc.toNat + k < 0x80000000 ∨
      (0xC0000000 ≤ s.pc.toNat + k ∧ s.pc.toNat + k ≤ 0xFFFCFFFF)) →
    (k < 2 → s.pc.toNat + k < 0x100000000 → step s = .fault .fetchNotExecutable) ∧
    (∀ d, (s.pc.toNat + 1 < 0x80000000 ∨
        (0xC0000000 ≤ s.pc.toNat ∧ s.pc.toNat + 1 ≤ 0xFFFCFFFF)) →
      decodeWord (readByte s (s.pc.toNat + 1) ++ readByte s s.pc.toNat) = .ok d →
      2 ≤ k → k < 2 + d.immBytes → step s = .fault .fetchNotExecutable)

/-- R301: a stopped CPU changes nothing, whatever is pending. Rests on the spec's decision D31. -/
def Obligations.StoppedCpuChangesNothing : Prop :=
  ∀ s : State, s.flags.s = true → step s = .next s

/-- R310: a halted CPU with nothing pending changes nothing; only the platform's answers move on. Rests
on the spec's decision D30; the list of answers is the model's own (log 5). -/
def Obligations.HaltedCpuWaits : Prop :=
  ∀ s : State, s.flags.s = false → s.flags.l = true → pendingNow s = [] →
    step s = .next { s with irq := s.irq.tail }

/-- R310: a pending interrupt lifts the halt whatever `IME`: the step is that of the same state with `L`
clear. Rests on the spec's decision D30 (log 5). -/
def Obligations.PendingInterruptLiftsTheHalt : Prop :=
  ∀ s : State, s.flags.l = true → pendingNow s ≠ [] →
    s.flags.s = false →
    step s = step { s with flags := { s.flags with l := false } }

/-- R307, R71: with `IME` set and interrupts pending the CPU enters the handler of the lowest one
instead of executing an instruction: `IME` clear, `PC` on the call stack, `PC` at the vector, the
platform told, and nothing else changed but `L` clear. With `RP` below 4 the entry faults. Rests on the
spec's decisions D20, D29 and D37; the lists `irq` and `platform` are the model's own (log 5, 6). -/
def Obligations.InterruptEntrySavesPcAndJumps : Prop :=
  ∀ (s : State) (n : InterruptNumber),
    s.flags.s = false → s.ime = true → n ∈ pendingNow s → (∀ m ∈ pendingNow s, n ≤ m) →
    (4 ≤ s.rp.toNat →
      ∃ t, step s = .next t ∧ t.ime = false ∧
        t.rp.toNat = s.rp.toNat - 4 ∧
        (∀ k, k < 4 →
          readByte t (0xFFFE0000 + (s.rp.toNat - 4) + k) = s.pc.extractLsb' (8 * k) 8) ∧
        sameMemoryOutside (0xFFFE0000 + (s.rp.toNat - 4)) 4 s t ∧
        t.pc.toNat = 0x00002000 + 0x100 * n.val ∧
        t.platform = .ack n :: s.platform ∧
        t.flags.l = false ∧ t.irq = s.irq.tail ∧
        sameExcept [.ime, .rp, .mem, .pc, .platform, .l, .irq] s t) ∧
    (s.rp.toNat < 4 → step s = .fault .callStackFull)

/-- After reset every register has the value of the reset table of 10_state.md section 5, ROM holds the
program image, and RAM below the hardware-register page its unknown initial content. The two clauses on
memory rest on the spec's decision D25 and on the model's choice of free constants for what nothing has
stored (log 3); the hardware-register page and the pending interrupts are the platform's (log 5, 6), and
nothing is said of them. -/
def Obligations.ResetGivesTheInitialValues : Prop :=
  State.reset.a = 0 ∧ State.reset.b = 0 ∧ State.reset.c = 0 ∧ State.reset.d = 0 ∧
  State.reset.flags.toByte = 0x00 ∧ State.reset.ime = false ∧ State.reset.ec = 0x00 ∧
  State.reset.pc = 0x00003000 ∧ State.reset.sp = 0xFFFF ∧ State.reset.rp = 0xFFFF ∧
  State.reset.ia = 0x00000000 ∧ State.reset.ma = 0x00000000 ∧ State.reset.md = 0x00000000 ∧
  State.reset.ci = 0xFFFF ∧ State.reset.da = false ∧
  (∀ a, a < 0x80000000 → readByte State.reset a = Config.romImage a) ∧
  (∀ a, 0x80000000 ≤ a → a < 0xFFFFFF00 → readByte State.reset a = Config.ramInit a)

/-! ### Invariants and whole-machine rules -/

/-- The state after reset meets the invariant (R44, R69). The canonical form of memory is the model's
own (log 3). -/
def Obligations.ResetMeetsTheInvariant : Prop := State.reset.inv

/-- Every step keeps the invariant: memory in canonical form, both stack pointers 3 modulo 4
(20_memory.md R69, R70, R71). The canonical form of memory is the model's own (log 3); the 3 modulo 4
rests on the spec's decision D20. -/
def Obligations.StepKeepsTheInvariant : Prop :=
  ∀ s t : State, s.inv → step s = .next t → t.inv

/-- No step changes a byte below `0x80000000` (R62, R64, R82), in any state. Rests on the spec's
decision D24 (log 2). -/
def Obligations.RomNeverChanges : Prop :=
  ∀ (s t : State) (a : Nat), step s = .next t → a < 0x80000000 → readByte t a = readByte s a

/-- R302: `S` goes from clear to set only by `STOP` and by `RET` (condition true) or `RETI` with the
call stack empty; the latter two leave `EC = 0x00`, `STOP` leaves `EC`. Rests on the spec's decisions
D20, D21 and D31. -/
def Obligations.StopFlagOnlySetByStopCauses : Prop :=
  ∀ s t : State, step s = .next t → s.flags.s = false → t.flags.s = true →
    ∃ i s', fetchInstr (fetchState s) = .ok (i, s') ∧
      ((i = .stop ∧ t.ec = s.ec) ∨
        ((i = .reti ∨ ∃ c, i = .ret c ∧ condHolds c s.flags = true) ∧ s.rp = 0xFFFF ∧ t.ec = 0x00))

/-- R28: `L` is set after a step from a CPU that was not halted only if the step executed `HALT`. Rests
on the spec's decision D30. -/
def Obligations.HaltFlagOnlySetByHalt : Prop :=
  ∀ s t : State, step s = .next t → s.flags.l = false → t.flags.l = true →
    ∃ s', fetchInstr (fetchState s) = .ok (.halt, s')

/-- R45: what every instruction does to each of the eight flags, by its flag string. For the families
without a flag column it rests on the spec's decision D34. -/
def Obligations.FlagsChangeAsTheFlagStringsSay : Prop :=
  ∀ (i : Instr) (s t : State), exec i s = .next t → (flagString i).allows s.flags t.flags

/-- No instruction and no interrupt entry reads `EC`, `IA`, `MA`, `MD`, `CI` or `DA` (R31, R35 to R39):
two states that differ only there step alike, to states that differ only there or to the same fault.
Rests on the spec's decision D33; no platform answer reads them either (log 6). -/
def Obligations.NothingReadsTheInternalRegisters : Prop :=
  ∀ (s s' : State), (∃ (ec : Byte) (ia ma md : Long) (ci : Word) (da : Bool),
      s' = { s with ec := ec, ia := ia, ma := ma, md := md, ci := ci, da := da }) →
    match step s, step s' with
    | .next t, .next t' => ∃ (ec : Byte) (ia ma md : Long) (ci : Word) (da : Bool),
        t' = { t with ec := ec, ia := ia, ma := ma, md := md, ci := ci, da := da }
    | .fault e, .fault e' => e = e'
    | _, _ => False

/-! ### Registers and memory -/

/-- R24: a register that has been written reads as the low bits of the value, as many as it is wide, and
every other bit of every long is as it was. Derived by the spec from R21. -/
def Obligations.RegisterWriteChangesOnlyItsBits : Prop :=
  ∀ (s : State) (r : Reg) (v : Long),
    regBecomes r (BitVec.ofNat 32 (v.toNat % 2 ^ r.width.bits)) s (writeReg s r v)

/-- R62, R74: a read of 1, 2 or 4 bytes answers their little-endian value and changes nothing but what
the platform has seen, unless it runs past `$FFFFFFFF`. Rests on the spec's decisions D23 and D26; the
platform's answers are free values (log 6). -/
def Obligations.MemReadIsLittleEndianOrWraps : Prop :=
  ∀ (s : State) (addr : Long) (n : Nat), n = 1 ∨ n = 2 ∨ n = 4 →
    (addr.toNat + n ≤ 0x100000000 →
      ∃ v t, memRead s addr n = .ok (v, t) ∧ valueRead addr.toNat n v s t ∧
        sameExcept [.platform] s t) ∧
    (0x100000000 < addr.toNat + n → memRead s addr n = .error .addressWrap)

/-- R62, R64, R74: a write of 1, 2 or 4 bytes stores them little-endian and changes nothing else, unless
it runs past `$FFFFFFFF` or touches ROM, and then it is a fault (the address wrap first). Rests on the
spec's decisions D23, D24 and D26 (log 2, 6). -/
def Obligations.MemWriteIsLittleEndianOrFaults : Prop :=
  ∀ (s : State) (addr : Long) (n : Nat) (v : Long), n = 1 ∨ n = 2 ∨ n = 4 →
    (addr.toNat + n ≤ 0x100000000 → 0x80000000 ≤ addr.toNat →
      ∃ t, memWrite s addr n v = .ok t ∧ valueStored addr.toNat n v s t ∧
        sameExcept [.mem, .platform] s t) ∧
    (0x100000000 < addr.toNat + n → memWrite s addr n v = .error .addressWrap) ∧
    (addr.toNat + n ≤ 0x100000000 → addr.toNat < 0x80000000 →
      memWrite s addr n v = .error .romWrite)

/-- R61, R62: what has been written below the hardware-register page is read back: the low `n` bytes.
Rests on the spec's decisions D22, D25 and D27 (log 3). -/
def Obligations.ReadAfterWriteGivesTheValue : Prop :=
  ∀ (s t : State) (addr : Long) (n : Nat) (v : Long), n = 1 ∨ n = 2 ∨ n = 4 →
    addr.toNat + n ≤ 0xFFFFFF00 → memWrite s addr n v = .ok t →
    memRead t addr n = .ok (BitVec.ofNat 32 (v.toNat % 2 ^ (8 * n)), t)

/-! ### General instructions -/

/-- `NOP` does nothing; `SEC`, `CEC`, `DI`, `EI` write `EC` or `IME` and nothing else (R140, R143 to
R146), and each has the encoding of its rule. The order of the two bytes of an encoding rests on the
spec's decision D3 (log 1); when a write of `IME` takes effect (D30) is not said here. -/
def Obligations.NopSecCecDiEiEffects : Prop :=
  ∀ (s : State) (xx : Byte),
    exec .nop s = .next s ∧
    exec (.sec xx) s = .next { s with ec := xx } ∧
    exec .cec s = .next { s with ec := 0x00 } ∧
    exec .di s = .next { s with ime := false } ∧
    exec .ei s = .next { s with ime := true } ∧
    encode .nop = [0x00, 0x00] ∧ encode (.sec xx) = [xx, 0x03] ∧ encode .cec = [0x00, 0x04] ∧
    encode .di = [0x00, 0x05] ∧ encode .ei = [0x00, 0x06]

/-- R141, R142: `STOP` sets `S`, `HALT` sets `L`; nothing else changes (`EC` among it); their words are
`0x0100` and `0x0200`, with no immediate. -/
def Obligations.StopAndHaltSetTheirFlag : Prop :=
  ∀ s : State,
    (∃ t, exec .stop s = .next t ∧ t.flags.s = true ∧ sameExcept [.s] s t) ∧
    (∃ t, exec .halt s = .next t ∧ t.flags.l = true ∧ sameExcept [.l] s t) ∧
    decodeWord 0x0100 = .ok ⟨0, fun _ => .stop⟩ ∧ decodeWord 0x0200 = .ok ⟨0, fun _ => .halt⟩

/-- R148, R149, R150: `CPL`, `CPW`, `CPB` invert every bit of `A`, `AW`, `AL`, set `N` and `H`, and
change nothing else; their words are `0x0800`, `0x0900`, `0x0A00`, with no immediate. -/
def Obligations.ComplementsInvertTheAccumulator : Prop :=
  ∀ (s : State) (i : Instr) (p : Part),
    (i = .cpl ∧ p = .long) ∨ (i = .cpw ∧ p = .word) ∨ (i = .cpb ∧ p = .lo) →
    decodeWord 0x0800 = .ok ⟨0, fun _ => .cpl⟩ ∧ decodeWord 0x0900 = .ok ⟨0, fun _ => .cpw⟩ ∧
    decodeWord 0x0A00 = .ok ⟨0, fun _ => .cpb⟩ ∧
    ∃ t, exec i s = .next t ∧
      regBecomes ⟨.a, p⟩
        (BitVec.ofNat 32 (2 ^ p.width.bits - 1 - (readReg s ⟨.a, p⟩).toNat)) s t ∧
      t.flags.n = true ∧ t.flags.h = true ∧ sameExcept [.long .a, .n, .h] s t

/-- R151, R152: `SCF` sets `C` and `CCF` inverts it; both clear `N`, `H`, `O`, `U` and change nothing
else; their words are `0x0B00` and `0x0C00`, with no immediate. -/
def Obligations.CarryFlagInstructions : Prop :=
  ∀ (s : State) (i : Instr) (carry : Bool),
    (i = .scf ∧ carry = true) ∨ (i = .ccf ∧ carry = !s.flags.c) →
    decodeWord 0x0B00 = .ok ⟨0, fun _ => .scf⟩ ∧ decodeWord 0x0C00 = .ok ⟨0, fun _ => .ccf⟩ ∧
    ∃ t, exec i s = .next t ∧ t.flags.c = carry ∧ t.flags.n = false ∧ t.flags.h = false ∧
      t.flags.o = false ∧ t.flags.u = false ∧ sameExcept [.n, .h, .c, .o, .u] s t

/-- R147: `DAA` puts the byte that `DAA_FN` gives for `AL`, `N`, `H`, `C` into `AL`, whatever that
function is, ties `Z`, `H`, `C`, `O`, `U` to it, and changes nothing else. Rests on the spec's decision
D35: the adjustment is a free function (log 7). -/
def Obligations.DaaTiesFlagsToTheAdjustment : Prop :=
  ∀ (s : State) (r : Byte) (wrapped : Bool),
    Config.daaFn (s.a.extractLsb' 0 8) s.flags.n s.flags.h s.flags.c = (r, wrapped) →
    ∃ t, exec .daa s = .next t ∧
      regBecomes ⟨.a, .lo⟩ (r.setWidth 32) s t ∧
      (t.flags.z = true ↔ r = 0) ∧ t.flags.h = false ∧ t.flags.c = wrapped ∧
      (t.flags.o = true ↔ s.flags.n = false ∧ wrapped = true) ∧
      (t.flags.u = true ↔ s.flags.n = true ∧ wrapped = true) ∧
      sameExcept [.long .a, .z, .h, .c, .o, .u] s t

/-! ### Data transfer -/

/-- R160, R169: `LD X, I` puts the immediate into `X`; `MV X, Y` puts there the value of `Y`,
zero-extended or truncated to the width of `X`. Nothing else changes, no flag either. Rests on the
spec's decisions D5, D9 and D34. -/
def Obligations.LoadImmediateAndMove : Prop :=
  ∀ (s : State) (x y : Reg) (imm : Long), immFits x imm = true →
    (∃ t, exec (.ldI x imm) s = .next t ∧ regBecomes x imm s t ∧
      sameExcept [.long x.row] s t) ∧
    (∃ t, exec (.mv x y) s = .next t ∧
      regBecomes x (BitVec.ofNat 32 ((readReg s y).toNat % 2 ^ x.width.bits)) s t ∧
      sameExcept [.long x.row] s t)

/-- R161 to R164, R173: the four loads put the little-endian value of as many bytes as `X` is wide, read
at their address, into `X`, and change nothing else but what the platform has seen; a load that runs
past `$FFFFFFFF` faults. Rests on the spec's decisions D10, D12, D22, D23, D26 and D34 (log 2, 6). -/
def Obligations.LoadsReadTheirAddress : Prop :=
  ∀ (s : State) (i : Instr) (x : Reg) (addr : Nat),
    ((∃ a : Long, i = .ldA32 x a ∧ addr = a.toNat) ∨
      (∃ y, i = .ldM x y ∧ addr = (readReg s y).toNat) ∨
      (∃ off : Word, i = .ldq x off ∧ addr = 0xFFFF0000 + off.toNat) ∨
      (∃ off : Byte, i = .ldh x off ∧ addr = 0xFFFFFF00 + off.toNat)) →
    (addr + x.width.bytes ≤ 0x100000000 →
      ∃ t v, exec i s = .next t ∧ valueRead addr x.width.bytes v s t ∧ regBecomes x v s t ∧
        sameExcept [.long x.row, .platform] s t) ∧
    (0x100000000 < addr + x.width.bytes → exec i s = .fault .addressWrap)

/-- R165 to R168, R173: the four stores put as many bytes as `Y` is wide at their address, least
significant first, and change nothing else; a store that runs past `$FFFFFFFF` or touches ROM faults.
Rests on the spec's decisions D10, D12, D22, D23, D24, D26 and D34 (log 2, 6). -/
def Obligations.StoresWriteTheirAddress : Prop :=
  ∀ (s : State) (i : Instr) (y : Reg) (addr : Nat),
    ((∃ a : Long, i = .stA32 a y ∧ addr = a.toNat) ∨
      (∃ x, i = .stM x y ∧ addr = (readReg s x).toNat) ∨
      (∃ off : Word, i = .stq off y ∧ addr = 0xFFFF0000 + off.toNat) ∨
      (∃ off : Byte, i = .sth off y ∧ addr = 0xFFFFFF00 + off.toNat)) →
    (addr + y.width.bytes ≤ 0x100000000 → 0x80000000 ≤ addr →
      ∃ t, exec i s = .next t ∧ valueStored addr y.width.bytes (readReg s y) s t ∧
        sameExcept [.mem, .platform] s t) ∧
    (0x100000000 < addr + y.width.bytes → exec i s = .fault .addressWrap) ∧
    (addr + y.width.bytes ≤ 0x100000000 → addr < 0x80000000 → exec i s = .fault .romWrite)

/-- R170, R70: `PUSH X` lowers `SP` by 4 and stores the zero-extended register as a long at the new top;
with `SP` below 4 it faults. Rests on the spec's decision D20 (log 2). -/
def Obligations.PushStoresALongBelowTheTop : Prop :=
  ∀ (s : State) (x : Reg),
    (4 ≤ s.sp.toNat →
      ∃ t, exec (.push x) s = .next t ∧ t.sp.toNat = s.sp.toNat - 4 ∧
        (∀ k, k < 4 →
          readByte t (0xFFFD0000 + (s.sp.toNat - 4) + k) = (readReg s x).extractLsb' (8 * k) 8) ∧
        sameMemoryOutside (0xFFFD0000 + (s.sp.toNat - 4)) 4 s t ∧
        sameExcept [.sp, .mem] s t) ∧
    (s.sp.toNat < 4 → exec (.push x) s = .fault .dataStackFull)

/-- R171, R70: `POP X` puts the low bits of the long at the top into `X` and raises `SP` by 4 (as a
16-bit word); with `SP = 0xFFFF` it faults. Rests on the spec's decision D20; the wrap of `SP` is
reached by no run (log 8). -/
def Obligations.PopLoadsTheTopLong : Prop :=
  ∀ (s : State) (x : Reg),
    (s.sp ≠ 0xFFFF →
      ∃ t, exec (.pop x) s = .next t ∧ t.sp = s.sp + 4 ∧
        regBecomes x
          (BitVec.ofNat 32
            (littleEndian (readBytes s (0xFFFD0000 + s.sp.toNat) 4) % 2 ^ x.width.bits)) s t ∧
        sameExcept [.sp, .long x.row] s t) ∧
    (s.sp = 0xFFFF → exec (.pop x) s = .fault .dataStackEmpty)

/-- R170, R171 (law L6): `PUSH X` then `POP X` leaves every register, every flag and `SP` as they were.
Rests on the spec's decision D20. -/
def Obligations.PushThenPopRestores : Prop :=
  ∀ (s t : State) (x : Reg), exec (.push x) s = .next t →
    ∃ u, exec (.pop x) t = .next u ∧ sameExcept [.mem] s u

/-! ### Control transfer -/

/-- R106: the seven execution conditions. The numbers that select them rest on the spec's decision
D2. -/
def Obligations.ConditionsReadTheirFlag : Prop :=
  ∀ f : Flags,
    condHolds .n f = true ∧ (condHolds .cs f = true ↔ f.c = true) ∧
    (condHolds .cc f = true ↔ f.c = false) ∧ (condHolds .zs f = true ↔ f.z = true) ∧
    (condHolds .zc f = true ↔ f.z = false) ∧ (condHolds .os f = true ↔ f.o = true) ∧
    (condHolds .us f = true ↔ f.u = true)

/-- R180a: a conditional instruction whose condition is false does nothing: execution goes on at the
next instruction and no stack is touched. Rests on the spec's decision D41. -/
def Obligations.FalseConditionDoesNothing : Prop :=
  ∀ (s : State) (c : Cond) (a : Long) (y : Reg) (off : Word), condHolds c s.flags = false →
    exec (.jmpA32 c a) s = .next s ∧ exec (.jmpR c y) s = .next s ∧
    exec (.jpb c off) s = .next s ∧ exec (.call c a) s = .next s ∧ exec (.ret c) s = .next s

/-- R181, R182, R183, R188: where the jumps go when their condition holds: to the address itself, to the
value of the register, by the signed offset from the following instruction modulo 2^32, to `0x00003000`;
only `PC` changes. Rests on the spec's decisions D10, D17, D19 and D34 and on the two's complement of
K2. -/
def Obligations.JumpsMoveOnlyPc : Prop :=
  ∀ (s : State) (c : Cond) (a : Long) (y : Reg) (off : Word),
    (condHolds c s.flags = true →
      exec (.jmpA32 c a) s = .next { s with pc := a } ∧
      exec (.jmpR c y) s = .next { s with pc := readReg s y } ∧
      (∃ t, exec (.jpb c off) s = .next t ∧
        (t.pc.toNat : Int) = (s.pc.toNat + off.toInt) % 2 ^ 32 ∧ sameExcept [.pc] s t)) ∧
    exec .jps s = .next { s with pc := 0x00003000 }

/-- R184, R185, R71: `CALL` (condition true) and `RST` push `PC`, the address of the following
instruction, as a long on the call stack, then move `PC` to the address or to `0x1000 + 0x100 * v`; with
`RP` below 4 they fault. Rests on the spec's decisions D18 and D20 (log 2). -/
def Obligations.CallsPushTheReturnAddress : Prop :=
  ∀ (s : State) (i : Instr) (target : Nat),
    ((∃ c a, i = .call c a ∧ condHolds c s.flags = true ∧ target = a.toNat) ∨
      (∃ v : BitVec 4, i = .rst v ∧ target = 0x00001000 + 0x100 * v.toNat)) →
    (4 ≤ s.rp.toNat →
      ∃ t, exec i s = .next t ∧ t.pc.toNat = target ∧ t.rp.toNat = s.rp.toNat - 4 ∧
        (∀ k, k < 4 →
          readByte t (0xFFFE0000 + (s.rp.toNat - 4) + k) = s.pc.extractLsb' (8 * k) 8) ∧
        sameMemoryOutside (0xFFFE0000 + (s.rp.toNat - 4)) 4 s t ∧
        sameExcept [.pc, .rp, .mem] s t) ∧
    (s.rp.toNat < 4 → exec i s = .fault .callStackFull)

/-- R186, R187, R71: `RET` (condition true) and `RETI` with the call stack not empty pop `PC`; `RETI`
also sets `IME`. Nothing else changes. Rests on the spec's decisions D20 and D21; the wrap of `RP` is
reached by no run (log 8). -/
def Obligations.ReturnsPopTheReturnAddress : Prop :=
  ∀ s : State, s.rp ≠ 0xFFFF →
    (∀ c, condHolds c s.flags = true →
      exec (.ret c) s = .next
        { s with
          pc := BitVec.ofNat 32 (littleEndian (readBytes s (0xFFFE0000 + s.rp.toNat) 4))
          rp := s.rp + 4 }) ∧
    exec .reti s = .next
      { s with
        ime := true
        pc := BitVec.ofNat 32 (littleEndian (readBytes s (0xFFFE0000 + s.rp.toNat) 4))
        rp := s.rp + 4 }

/-- R186, R187, R301: a return with the call stack empty stops the CPU with `EC = 0x00`; `PC` stays at
the following instruction, and `RETI` has set `IME`. Rests on the spec's decisions D20 and D21. -/
def Obligations.ReturnOnEmptyCallStackStops : Prop :=
  ∀ s : State, s.rp = 0xFFFF →
    (∀ c, condHolds c s.flags = true →
      ∃ t, exec (.ret c) s = .next t ∧ t.flags.s = true ∧ t.ec = 0x00 ∧
        sameExcept [.s, .ec] s t) ∧
    (∃ t, exec .reti s = .next t ∧ t.ime = true ∧ t.flags.s = true ∧ t.ec = 0x00 ∧
      sameExcept [.ime, .s, .ec] s t)

/-- R184, R186 (law L7): a taken `CALL` and then a taken `RET`, whatever the conditions of the two, come
back to the instruction after the `CALL` with `RP` as it was, and only memory has changed. Rests on the
spec's decisions D18 and D20. -/
def Obligations.CallThenReturnComesBack : Prop :=
  ∀ (s t : State) (c c' : Cond) (a : Long),
    condHolds c s.flags = true → exec (.call c a) s = .next t → condHolds c' t.flags = true →
    ∃ u, exec (.ret c') t = .next u ∧ sameExcept [.mem] s u

/-! ### Arithmetic -/

/-- R200, R202, R207 to R212: `ADD` and `ADC` (carry-in `C`) of an accumulator register and an
immediate, a register or memory: the sum modulo `2^w`, the six flags, and nothing else (but what the
platform saw of a memory operand). Rests on the spec's decisions D9, D10, D11, D12, D14 and D16. -/
def Obligations.AddAndAdcResultAndFlags : Prop :=
  ∀ (s s1 : State) (i : Instr) (x : Reg) (b : Long) (cin : Nat), x.row = .a →
    ((takesOperand .addI .addR .addM i x s b s1 ∧ cin = 0) ∨
      (takesOperand .adcI .adcR .adcM i x s b s1 ∧ cin = s.flags.c.toNat)) →
    ∃ t, exec i s = .next t ∧
      regBecomes x (BitVec.ofNat 32
        (((readReg s x).toNat + b.toNat + cin) % 2 ^ x.width.bits)) s t ∧
      (t.flags.z = true ↔ ((readReg s x).toNat + b.toNat + cin) % 2 ^ x.width.bits = 0) ∧
      t.flags.n = false ∧
      (t.flags.h = true ↔ 2 ^ x.width.half ≤
        (readReg s x).toNat % 2 ^ x.width.half + b.toNat % 2 ^ x.width.half + cin) ∧
      (t.flags.c = true ↔ 2 ^ x.width.bits ≤ (readReg s x).toNat + b.toNat + cin) ∧
      t.flags.o = t.flags.c ∧ t.flags.u = false ∧
      t.platform = s1.platform ∧
      sameExcept (.long .a :: .platform :: arithmeticFlags) s t

/-- R201, R202, R213 to R218: `SUB` and `SBC` (borrow-in `C`) of an accumulator register: the difference
modulo `2^w`, the six flags, and nothing else. Rests on the spec's decisions D9, D10, D11, D12 and
D16. -/
def Obligations.SubAndSbcResultAndFlags : Prop :=
  ∀ (s s1 : State) (i : Instr) (x : Reg) (b : Long) (cin : Nat), x.row = .a →
    ((takesOperand .subI .subR .subM i x s b s1 ∧ cin = 0) ∨
      (takesOperand .sbcI .sbcR .sbcM i x s b s1 ∧ cin = s.flags.c.toNat)) →
    ∃ t, exec i s = .next t ∧
      (∃ r : Long, regBecomes x r s t ∧
        (r.toNat : Int) = ((readReg s x).toNat - b.toNat - cin) % 2 ^ x.width.bits ∧
        (t.flags.z = true ↔ r = 0)) ∧
      t.flags.n = true ∧
      (t.flags.h = true ↔ (readReg s x).toNat % 2 ^ x.width.half <
        b.toNat % 2 ^ x.width.half + cin) ∧
      (t.flags.c = true ↔ (readReg s x).toNat < b.toNat + cin) ∧
      t.flags.o = false ∧ t.flags.u = t.flags.c ∧
      t.platform = s1.platform ∧
      sameExcept (.long .a :: .platform :: arithmeticFlags) s t

/-- R230, R240 to R242: `CMP` writes no register; `Z` says equal, `C` and `U` say below, `H` the borrow
of the lower half; `N` is set and `O` clear. Rests on the spec's decisions D9, D10, D11 and D12. -/
def Obligations.CompareWritesOnlyFlags : Prop :=
  ∀ (s s1 : State) (i : Instr) (x : Reg) (b : Long), x.row = .a →
    takesOperand .cmpI .cmpR .cmpM i x s b s1 →
    ∃ t, exec i s = .next t ∧
      (t.flags.z = true ↔ readReg s x = b) ∧ t.flags.n = true ∧
      (t.flags.h = true ↔
        (readReg s x).toNat % 2 ^ x.width.half < b.toNat % 2 ^ x.width.half) ∧
      (t.flags.c = true ↔ (readReg s x).toNat < b.toNat) ∧
      t.flags.o = false ∧ t.flags.u = t.flags.c ∧
      t.platform = s1.platform ∧
      sameExcept (.platform :: arithmeticFlags) s t

/-- R203: `INC X` adds 1 modulo `2^w`; `Z` says the result is zero, `N` is clear, `H` says the lower
half wrapped for byte and word registers (for a long it is unspecified: nothing is said); `C`, `O`, `U`
and everything else are kept. Rests on the spec's decision D15; the draw of `H` is counted in `draws`
(log 4). -/
def Obligations.IncrementRegister : Prop :=
  ∀ (s : State) (x : Reg),
    ∃ t, exec (.incR x) s = .next t ∧
      regBecomes x (BitVec.ofNat 32 (((readReg s x).toNat + 1) % 2 ^ x.width.bits)) s t ∧
      (t.flags.z = true ↔ ((readReg s x).toNat + 1) % 2 ^ x.width.bits = 0) ∧
      t.flags.n = false ∧
      (x.width ≠ .long →
        (t.flags.h = true ↔ (readReg s x).toNat % 2 ^ x.width.half = 2 ^ x.width.half - 1)) ∧
      sameExcept [.long x.row, .z, .n, .h, .draws] s t

/-- R205: `DEC X` subtracts 1 modulo `2^w`; `Z` says the result is zero, `N` is set, `H` says the lower
half was zero; `C`, `O`, `U` and everything else are kept. Its word is `0x32X0`, with no immediate, for
every register number `X` (whichever register the number names). -/
def Obligations.DecrementRegister : Prop :=
  ∀ (s : State) (x : Reg),
    (∀ d, decodeWord (opWord 0x32 d 0) = .ok ⟨0, fun _ => .decR (regOfDigit d)⟩) ∧
    ∃ t, exec (.decR x) s = .next t ∧
      (∃ r : Long, regBecomes x r s t ∧
        (r.toNat : Int) = ((readReg s x).toNat - 1) % 2 ^ x.width.bits ∧
        (t.flags.z = true ↔ r = 0)) ∧
      t.flags.n = true ∧
      (t.flags.h = true ↔ (readReg s x).toNat % 2 ^ x.width.half = 0) ∧
      sameExcept [.long x.row, .z, .n, .h] s t

/-- R204, R206: `INC [Y]` and `DEC [Y]` replace the byte at the address in `Y` by that byte plus or
minus 1 modulo 256, with the flags of the register forms at width 8; the pointer register is not
changed. Rests on the spec's decisions D10 and D12 (log 6). -/
def Obligations.IncrementAndDecrementMemory : Prop :=
  ∀ (s : State) (y : Reg), 0x80000000 ≤ (readReg s y).toNat →
    (∃ t v, exec (.incM y) s = .next t ∧ byteRewritten (readReg s y).toNat v (v + 1) s t ∧
      (t.flags.z = true ↔ v + 1 = 0) ∧ t.flags.n = false ∧
      (t.flags.h = true ↔ v.toNat % 16 = 15) ∧
      sameExcept [.mem, .platform, .z, .n, .h] s t) ∧
    (∃ t v, exec (.decM y) s = .next t ∧ byteRewritten (readReg s y).toNat v (v - 1) s t ∧
      (t.flags.z = true ↔ v - 1 = 0) ∧ t.flags.n = true ∧
      (t.flags.h = true ↔ v.toNat % 16 = 0) ∧
      sameExcept [.mem, .platform, .z, .n, .h] s t)

/-- R64, R74, R202, R265: the memory forms that stop. A two-operand instruction whose memory operand
runs past `$FFFFFFFF` faults; a one-operand form that writes faults on a ROM address (`SET` and `RES`
with a legal bit number). Rests on the spec's decisions D10, D12, D23 and D24 (log 2). -/
def Obligations.MemoryFormsFaultOnBadAddresses : Prop :=
  ∀ (s : State) (x y : Reg) (b : Byte),
    (0x100000000 < (readReg s y).toNat + x.width.bytes →
      ∀ i ∈ [Instr.addM x y, .adcM x y, .subM x y, .sbcM x y, .andM x y, .orM x y, .xorM x y,
        .cmpM x y], exec i s = .fault .addressWrap) ∧
    ((readReg s y).toNat < 0x80000000 → b.toNat < 8 →
      ∀ i ∈ [Instr.incM y, .decM y, .slaM y, .sraM y, .srlM y, .rlM y, .rlcM y, .rrM y, .rrcM y,
        .setM b y, .resM b y, .swapM y], exec i s = .fault .romWrite)

/-! ### Bitwise -/

/-- R230 to R239: `AND`, `OR`, `XOR` work bit by bit on the accumulator register and its operand; `Z`
says the result is zero, `H` is set by `AND` alone, `N`, `C`, `O`, `U` are clear, and nothing else
changes. Rests on the spec's decisions D9, D10, D11 and D12. -/
def Obligations.BitwiseResultAndFlags : Prop :=
  ∀ (s s1 : State) (i : Instr) (x : Reg) (b r : Long) (half : Bool), x.row = .a →
    ((takesOperand .andI .andR .andM i x s b s1 ∧ r = readReg s x &&& b ∧ half = true) ∨
      (takesOperand .orI .orR .orM i x s b s1 ∧ r = readReg s x ||| b ∧ half = false) ∨
      (takesOperand .xorI .xorR .xorM i x s b s1 ∧ r = readReg s x ^^^ b ∧ half = false)) →
    ∃ t, exec i s = .next t ∧ regBecomes x r s t ∧
      (t.flags.z = true ↔ r = 0) ∧ t.flags.n = false ∧ t.flags.h = half ∧
      t.flags.c = false ∧ t.flags.o = false ∧ t.flags.u = false ∧
      t.platform = s1.platform ∧
      sameExcept (.long .a :: .platform :: arithmeticFlags) s t

/-! ### Shifts and rotates -/

/-- R250: each bit of the result of a shift or rotate of a value of width `w`, and the bit that becomes
`C`: every bit moves by one place, and the vacated place takes 0 (`SLA`, `SRL`), the old top bit
(`SRA`), the old carry (`RL`, `RR`) or the bit that left (`RLC`, `RRC`). Rests on the spec's decision
D13. -/
def Obligations.ShiftsMoveEveryBitByOne : Prop :=
  ∀ (w : Width) (a : Long) (f : Flags) (k : Nat), a.toNat < 2 ^ w.bits → k < w.bits →
    ((shiftCore .sla w a f).1.getLsbD k = (decide (k ≠ 0) && a.getLsbD (k - 1))) ∧
    ((shiftCore .rl w a f).1.getLsbD k = if k = 0 then f.c else a.getLsbD (k - 1)) ∧
    ((shiftCore .rlc w a f).1.getLsbD k = if k = 0 then a.getLsbD (w.bits - 1) else a.getLsbD (k - 1)) ∧
    ((shiftCore .srl w a f).1.getLsbD k = (decide (k ≠ w.bits - 1) && a.getLsbD (k + 1))) ∧
    ((shiftCore .sra w a f).1.getLsbD k =
      if k = w.bits - 1 then a.getLsbD (w.bits - 1) else a.getLsbD (k + 1)) ∧
    ((shiftCore .rr w a f).1.getLsbD k = if k = w.bits - 1 then f.c else a.getLsbD (k + 1)) ∧
    ((shiftCore .rrc w a f).1.getLsbD k = if k = w.bits - 1 then a.getLsbD 0 else a.getLsbD (k + 1)) ∧
    (∀ kind ∈ [ShiftKind.sla, .rl, .rlc], (shiftCore kind w a f).2.c = a.getLsbD (w.bits - 1)) ∧
    (∀ kind ∈ [ShiftKind.sra, .srl, .rr, .rrc], (shiftCore kind w a f).2.c = a.getLsbD 0)

/-- R265, R251 to R263: each shift and rotate of a register puts the result of `ShiftCore` (whose bits
and carry `ShiftsMoveEveryBitByOne` gives) into the register; `Z` says it is zero, `N`, `H`, `O`, `U`
are clear, and nothing else changes. Rests on the spec's decision D13. -/
def Obligations.ShiftRegisterForms : Prop :=
  ∀ (s : State) (x : Reg) (i : Instr) (kind : ShiftKind),
    (i, kind) ∈ [(Instr.slaR x, ShiftKind.sla), (.sraR x, .sra), (.srlR x, .srl), (.rlR x, .rl),
      (.rlcR x, .rlc), (.rrR x, .rr), (.rrcR x, .rrc)] →
    ∃ t, exec i s = .next t ∧
      regBecomes x (shiftCore kind x.width (readReg s x) s.flags).1 s t ∧
      t.flags.c = (shiftCore kind x.width (readReg s x) s.flags).2.c ∧
      (t.flags.z = true ↔ readReg t x = 0) ∧
      t.flags.n = false ∧ t.flags.h = false ∧ t.flags.o = false ∧ t.flags.u = false ∧
      sameExcept (.long x.row :: arithmeticFlags) s t

/-- R265, R252 to R264: each shift and rotate of memory replaces the byte at the address in the pointer
register by the result of `ShiftCore` at width 8, with the same flags. Rests on the spec's decisions
D10, D12 and D13 (log 6). -/
def Obligations.ShiftMemoryForms : Prop :=
  ∀ (s : State) (x : Reg) (i : Instr) (kind : ShiftKind), 0x80000000 ≤ (readReg s x).toNat →
    (i, kind) ∈ [(Instr.slaM x, ShiftKind.sla), (.sraM x, .sra), (.srlM x, .srl), (.rlM x, .rl),
      (.rlcM x, .rlc), (.rrM x, .rr), (.rrcM x, .rrc)] →
    ∃ t v r, exec i s = .next t ∧ byteRewritten (readReg s x).toNat v r s t ∧
      r.setWidth 32 = (shiftCore kind .byte (v.setWidth 32) s.flags).1 ∧
      t.flags.c = (shiftCore kind .byte (v.setWidth 32) s.flags).2.c ∧
      (t.flags.z = true ↔ r = 0) ∧
      t.flags.n = false ∧ t.flags.h = false ∧ t.flags.o = false ∧ t.flags.u = false ∧
      sameExcept (.mem :: .platform :: arithmeticFlags) s t

/-- R257, R259 (law L13): for every register `X` of width `w`, `RLC X` executed `w` times in a row
restores the register and changes only flags, and `RL X` executed `w + 1` times restores the register
and the flag `C` and changes only the other five flags of a result. Rests on the spec's decision D13. -/
def Obligations.RotatesComeRound : Prop :=
  ∀ (s : State) (x : Reg),
    (∃ t, execTimes (.rlcR x) x.width.bits s = .next t ∧ sameExcept arithmeticFlags s t) ∧
    (∃ t, execTimes (.rlR x) (x.width.bits + 1) s = .next t ∧
      sameExcept [.z, .n, .h, .o, .u] s t)

/-! ### Bit checking -/

/-- R281, R282: `BIT` sets `Z` to the complement of the bit, clears `N`, sets `H`, and changes nothing
else; of memory it reads one byte. Rests on the spec's decisions D6, D10 and D12 (log 6). -/
def Obligations.BitTestsTheBit : Prop :=
  ∀ (s : State) (b : Byte) (y : Reg),
    (b.toNat < y.width.bits →
      ∃ t, exec (.bitR b y) s = .next t ∧ t.flags.z = !(readReg s y).getLsbD b.toNat ∧
        t.flags.n = false ∧ t.flags.h = true ∧ sameExcept [.z, .n, .h] s t) ∧
    (b.toNat < 8 →
      ∃ t v, exec (.bitM b y) s = .next t ∧ valueRead (readReg s y).toNat 1 v s t ∧
        t.flags.z = !v.getLsbD b.toNat ∧ t.flags.n = false ∧ t.flags.h = true ∧
        sameExcept [.platform, .z, .n, .h] s t)

/-- R283, R285: `SET X, Y` and `RES X, Y` set or clear one bit of the register and no other; `SET`
clears `N` and `H` and sets `C`, `RES` writes no flag. Rests on the spec's decision D6. -/
def Obligations.SetAndResetRegisterBit : Prop :=
  ∀ (s : State) (b : Byte) (y : Reg), b.toNat < y.width.bits →
    (∃ t r, exec (.setR b y) s = .next t ∧ regBecomes y r s t ∧
      (∀ k, r.getLsbD k = (decide (k = b.toNat) || (readReg s y).getLsbD k)) ∧
      t.flags.n = false ∧ t.flags.h = false ∧ t.flags.c = true ∧
      sameExcept [.long y.row, .n, .h, .c] s t) ∧
    (∃ t r, exec (.resR b y) s = .next t ∧ regBecomes y r s t ∧
      (∀ k, r.getLsbD k = (decide (k ≠ b.toNat) && (readReg s y).getLsbD k)) ∧
      sameExcept [.long y.row] s t)

/-- R284, R286: `SET X, [Y]` and `RES X, [Y]` set or clear one bit of the byte at the address in `Y`,
with the flags of the register forms. Rests on the spec's decisions D6, D10 and D12 (log 6). -/
def Obligations.SetAndResetMemoryBit : Prop :=
  ∀ (s : State) (b : Byte) (y : Reg), b.toNat < 8 → 0x80000000 ≤ (readReg s y).toNat →
    (∃ t v r, exec (.setM b y) s = .next t ∧ byteRewritten (readReg s y).toNat v r s t ∧
      (∀ k, r.getLsbD k = (decide (k = b.toNat) || v.getLsbD k)) ∧
      t.flags.n = false ∧ t.flags.h = false ∧ t.flags.c = true ∧
      sameExcept [.mem, .platform, .n, .h, .c] s t) ∧
    (∃ t v r, exec (.resM b y) s = .next t ∧ byteRewritten (readReg s y).toNat v r s t ∧
      (∀ k, r.getLsbD k = (decide (k ≠ b.toNat) && v.getLsbD k)) ∧
      sameExcept [.mem, .platform] s t)

/-- R280: a bit number that is not below the width of the operand faults, in all six instructions,
before any access to memory. Rests on the spec's decisions D6 and D12 (log 2). -/
def Obligations.BitNumberOutOfRangeFaults : Prop :=
  ∀ (s : State) (b : Byte) (y : Reg),
    (y.width.bits ≤ b.toNat →
      ∀ i ∈ [Instr.bitR b y, .setR b y, .resR b y], exec i s = .fault .bitIndexRange) ∧
    (8 ≤ b.toNat →
      ∀ i ∈ [Instr.bitM b y, .setM b y, .resM b y], exec i s = .fault .bitIndexRange)

/-- R287, R288: `SWAP` exchanges the two halves of the register, or the two nibbles of the byte at the
address in the pointer register; `Z` says the result is zero, the other five flags are clear, and
nothing else changes. The memory form rests on the spec's decisions D10 and D12 (log 6). -/
def Obligations.SwapExchangesHalves : Prop :=
  ∀ (s : State) (x : Reg),
    (∃ t, exec (.swapR x) s = .next t ∧
      regBecomes x (BitVec.ofNat 32
        ((readReg s x).toNat % 2 ^ x.width.half * 2 ^ x.width.half +
          (readReg s x).toNat / 2 ^ x.width.half)) s t ∧
      (t.flags.z = true ↔ readReg s x = 0) ∧ t.flags.n = false ∧ t.flags.h = false ∧
      t.flags.c = false ∧ t.flags.o = false ∧ t.flags.u = false ∧
      sameExcept (.long x.row :: arithmeticFlags) s t) ∧
    (0x80000000 ≤ (readReg s x).toNat →
      ∃ t v, exec (.swapM x) s = .next t ∧
        byteRewritten (readReg s x).toNat v (v.extractLsb' 0 4 ++ v.extractLsb' 4 4) s t ∧
        (t.flags.z = true ↔ v = 0) ∧ t.flags.n = false ∧ t.flags.h = false ∧
        t.flags.c = false ∧ t.flags.o = false ∧ t.flags.u = false ∧
        sameExcept (.mem :: .platform :: arithmeticFlags) s t)
end

