-- ==== Sys2Proof/Laws/Bytes.lean ====
section
/-! SUPPORT. Lemmas about byte order, the digits of an opcode word, and the operand numbers. -/

namespace Sys2Proof

/-! ### Byte order -/

@[simp] theorem leBytes_length (v n : Nat) : (leBytes v n).length = n := by
  induction n generalizing v with
  | zero => rfl
  | succ n ih => simp [leBytes, ih]

theorem littleEndian_lt (l : List Byte) : littleEndian l < 256 ^ l.length := by
  induction l with
  | nil => simp [littleEndian]
  | cons b rest ih =>
    have := b.isLt
    simp only [littleEndian, List.length_cons, Nat.pow_succ]
    omega

/-- Writing a number's low bytes and reading them back gives the number modulo `256 ^ n`. -/
theorem littleEndian_leBytes (v n : Nat) : littleEndian (leBytes v n) = v % 256 ^ n := by
  induction n generalizing v with
  | zero => simp [leBytes, littleEndian, Nat.mod_one]
  | succ n ih =>
    have h : v % 256 ^ (n + 1) = v % 256 + 256 * (v / 256 % 256 ^ n) := by
      rw [Nat.pow_succ, Nat.mul_comm (256 ^ n), Nat.mod_mul]
    rw [leBytes, littleEndian, ih, BitVec.toNat_ofNat, h]

theorem leBytes_littleEndian (l : List Byte) : leBytes (littleEndian l) l.length = l := by
  induction l with
  | nil => rfl
  | cons b rest ih =>
    have hb := b.isLt
    have h1 : (b.toNat + 256 * littleEndian rest) / 256 = littleEndian rest := by omega
    have h2 : BitVec.ofNat 8 (b.toNat + 256 * littleEndian rest) = b := by
      apply BitVec.eq_of_toNat_eq; simp only [BitVec.toNat_ofNat]; omega
    simp only [List.length_cons, littleEndian, leBytes, h1, h2, ih]

/-- The `k`-th byte of a number's little-endian bytes. -/
theorem leBytes_getElem? (v n k : Nat) (h : k < n) :
    (leBytes v n)[k]? = some (BitVec.ofNat 8 (v / 256 ^ k)) := by
  induction n generalizing v k with
  | zero => omega
  | succ n ih =>
    cases k with
    | zero => simp [leBytes]
    | succ k =>
      simp only [leBytes, List.getElem?_cons_succ, ih (v / 256) k (by omega), Nat.pow_succ,
        Nat.div_div_eq_div_mul, Nat.mul_comm]

/-- The little-endian bytes of a long are its 8-bit fields. -/
theorem leBytes_long (v : Long) (n : Nat) :
    leBytes v.toNat n = (List.range n).map fun k => v.extractLsb' (8 * k) 8 := by
  apply List.ext_getElem?
  intro k
  by_cases hk : k < n
  · rw [leBytes_getElem? _ _ _ hk]
    simp only [List.getElem?_map, List.getElem?_range hk, Option.map_some, Option.some.injEq]
    apply BitVec.eq_of_toNat_eq
    simp [BitVec.extractLsb'_toNat, Nat.shiftRight_eq_div_pow, Nat.pow_mul]
  · rw [List.getElem?_eq_none (by simp; omega), List.getElem?_eq_none (by simp; omega)]

/-- Two bytes, low byte first, are the word they make (R101). -/
theorem littleEndian_pair (lo hi : Byte) :
    BitVec.ofNat 16 (littleEndian [lo, hi]) = hi ++ lo := by
  apply BitVec.eq_of_toNat_eq
  have h1 := lo.isLt
  have h2 := hi.isLt
  rw [BitVec.toNat_append, ← Nat.shiftLeft_add_eq_or_of_lt h1, Nat.shiftLeft_eq,
    BitVec.toNat_ofNat, littleEndian, littleEndian, littleEndian]
  omega

/-- The bytes of an opcode word (R101). -/
theorem leBytes_word (hi lo : Byte) : leBytes (hi ++ lo : BitVec (8 + 8)).toNat 2 = [lo, hi] := by
  rw [← littleEndian_pair, BitVec.toNat_ofNat, Nat.mod_eq_of_lt (by
    simpa using littleEndian_lt [lo, hi])]
  exact leBytes_littleEndian [lo, hi]

/-! ### Digits of an opcode word -/

@[simp] theorem opByte_opWord (op : Byte) (x y : BitVec 4) : opByte (opWord op x y) = op := by
  apply BitVec.eq_of_getLsbD_eq
  intro i hi
  simp only [opByte, opWord, BitVec.getLsbD_extractLsb', BitVec.getLsbD_append]
  rw [if_neg (by omega), if_neg (by omega)]
  simp [hi, show 8 + i - 4 - 4 = i by omega]

@[simp] theorem xDigit_opWord (op : Byte) (x y : BitVec 4) : xDigit (opWord op x y) = x := by
  apply BitVec.eq_of_getLsbD_eq
  intro i hi
  simp only [xDigit, opWord, BitVec.getLsbD_extractLsb', BitVec.getLsbD_append]
  rw [if_neg (by omega), if_pos (by omega)]
  simp [hi]

@[simp] theorem yDigit_opWord (op : Byte) (x y : BitVec 4) : yDigit (opWord op x y) = y := by
  apply BitVec.eq_of_getLsbD_eq
  intro i hi
  simp only [yDigit, opWord, BitVec.getLsbD_extractLsb', BitVec.getLsbD_append]
  rw [if_pos (by omega)]
  simp [hi]

/-- Every opcode word is made of its op byte and its two digits (R100). -/
theorem opWord_digits (w : Word) : opWord (opByte w) (xDigit w) (yDigit w) = w := by
  apply BitVec.eq_of_getLsbD_eq
  intro i hi
  simp only [opByte, xDigit, yDigit, opWord, BitVec.getLsbD_append, BitVec.getLsbD_extractLsb']
  split
  · simp [*]
  · split
    · simp [*, show 4 + (i - 4) = i by omega]
    · simp [show i - 4 - 4 < 8 by omega, show 8 + (i - 4 - 4) = i by omega]

/-! ### The configuration's values (00_scope.md R5) -/

@[simp] theorem ImmKind.bytes_i (w : Width) : ImmKind.i.bytes w = w.bytes := rfl

@[simp] theorem ImmKind.bytes_a32 (w : Width) : ImmKind.a32.bytes w = 4 := rfl

@[simp] theorem ImmKind.bytes_a16 (w : Width) : ImmKind.a16.bytes w = 2 := rfl

@[simp] theorem ImmKind.bytes_a8 (w : Width) : ImmKind.a8.bytes w = 1 := rfl

@[simp] theorem ImmKind.bytes_s16 (w : Width) : ImmKind.s16.bytes w = 2 := rfl

@[simp] theorem ImmKind.bytes_bit (w : Width) : ImmKind.bit.bytes w = 1 := rfl

@[simp] theorem ImmKind.bytes_absent (w : Width) : ImmKind.absent.bytes w = 0 := rfl

/-- At the spec's layouts no bit of the opcode word belongs to an immediate (R103, R280). -/
@[simp] theorem ImmKind.pattern_eq (k : ImmKind) (w : Word) : k.pattern w = w := by
  have h : k.layout.wordMask = 0 := by cases k <;> rfl
  rw [ImmKind.pattern, h]
  exact BitVec.and_allOnes

/-- At the spec's layouts an immediate is the little-endian value of the bytes after the opcode word (R103,
R280). -/
theorem ImmKind.value_eq (k : ImmKind) (w : Word) (l : List Byte) :
    k.value w l = BitVec.ofNat 32 (littleEndian l) := by
  cases k <;> rfl

/-- At the spec's layouts the bytes of an immediate stand directly after the opcode word, little-endian
(R101, R103, R280). -/
theorem instrBytes_eq (w : Word) (k : ImmKind) (width : Width) (v : Nat) :
    instrBytes w k width v = opcodeBytes w ++ leBytes v (k.bytes width) := by
  have h : k.layout.writeWord v = 0 := by cases k <;> rfl
  have h' : k.layout.writeBytes width v = leBytes v (k.bytes width) := by cases k <;> rfl
  simp [instrBytes, h, h']

theorem maxLength_eq : maxLength = 6 := rfl

theorem Machine.memopWidth_eq : Machine.memopWidth = .byte := rfl

theorem Machine.interruptNumber_lt (n : Machine.InterruptNumber) : n.val < 16 := n.isLt

theorem Machine.intStride_eq : Machine.intStride = 0x100 := rfl

/-! ### Operand numbers -/

@[simp] theorem regOfDigit_digitOfReg (r : Reg) : regOfDigit (digitOfReg r) = r := by
  rcases r with ⟨row, part⟩
  cases row <;> cases part <;> rfl

@[simp] theorem digitOfReg_regOfDigit (d : BitVec 4) : digitOfReg (regOfDigit d) = d := by
  revert d; decide

@[simp] theorem condOfDigit_digitOfCond (c : Cond) : condOfDigit (digitOfCond c) = some c := by
  cases c <;> rfl

theorem digitOfCond_of_condOfDigit {d : BitVec 4} {c : Cond} (h : condOfDigit d = some c) :
    digitOfCond c = d := by
  revert h; revert c d; decide

/-- A number is a condition exactly if it is below 7 (R106). -/
theorem condOfDigit_eq_none (d : BitVec 4) : condOfDigit d = none ↔ 7 ≤ d.toNat := by
  revert d; decide

/-- A register number is of row `A` exactly if it is below 4 (R22, R109). -/
theorem isAccumulator_regOfDigit (d : BitVec 4) :
    isAccumulator (regOfDigit d) = decide (d.toNat < 4) := by
  revert d; decide

end Sys2Proof
end

