-- ==== Sys2Proof/Laws/State.lean ====
section
/-! SUPPORT. For every named update of the state, one lemma per field it leaves alone (and per field it
sets), so that no later proof unfolds a record update. -/

namespace Sys2Proof.Machine

/-! ### What each update sets -/

@[simp] theorem tellPlatform_platform (s : State) (e : PlatformEvent) :
    (tellPlatform s e).platform = e :: s.platform := rfl

@[simp] theorem afterSample_irq (s : State) : (afterSample s).irq = s.irq.tail := rfl

@[simp] theorem drawn_draws (s : State) : (drawn s).draws = s.draws + 1 := rfl

@[simp] theorem drawInternals_draws (s : State) : (drawInternals s).draws = s.draws + 1 := rfl

@[simp] theorem stopWith_ec (s : State) (e : Byte) : (stopWith s e).ec = e := rfl

@[simp] theorem stopWith_flags (s : State) (e : Byte) :
    (stopWith s e).flags = { s.flags with s := true } := rfl

@[simp] theorem accumulate_flags (op : BinaryOp) (s : State) (x : Reg) (b : Long) :
    (accumulate op s x b).flags = (op x.width (readReg s x) b s.flags).2 := rfl

@[simp] theorem compare_flags (s : State) (x : Reg) (b : Long) :
    (Sys2Proof.Machine.compare s x b).flags =
      (subCore x.width (readReg s x) b false s.flags).2 := rfl

@[simp] theorem modifyReg_flags (s : State) (x : Reg) (op : UnaryOp) :
    (modifyReg s x op).flags = (op (readReg s x) s.flags).2 := rfl

/-- The long registers of a state depend on its fields `a`, `b`, `c`, `d` alone. -/
theorem long_congr {s t : State} (ha : t.a = s.a) (hb : t.b = s.b) (hc : t.c = s.c)
    (hd : t.d = s.d) (r : Row) : t.long r = s.long r := by
  cases r <;> assumption

/-- Reading a register depends on the long registers alone. -/
theorem readReg_congr {s t : State} {x : Reg} (h : t.long x.row = s.long x.row) :
    readReg t x = readReg s x := by
  simp only [readReg, h]

/-- Reading a byte depends on the memory alone. -/
theorem readByte_congr {s t : State} (h : t.mem = s.mem) (a : Nat) :
    readByte t a = readByte s a := by
  simp only [readByte, h]

/-! ### What each update leaves alone -/

@[simp] theorem setLong_flags (s : State) (r : Row) (v : Long) :
    (s.setLong r v).flags = s.flags := by cases r <;> rfl

@[simp] theorem setLong_ime (s : State) (r : Row) (v : Long) :
    (s.setLong r v).ime = s.ime := by cases r <;> rfl

@[simp] theorem setLong_ec (s : State) (r : Row) (v : Long) :
    (s.setLong r v).ec = s.ec := by cases r <;> rfl

@[simp] theorem setLong_pc (s : State) (r : Row) (v : Long) :
    (s.setLong r v).pc = s.pc := by cases r <;> rfl

@[simp] theorem setLong_sp (s : State) (r : Row) (v : Long) :
    (s.setLong r v).sp = s.sp := by cases r <;> rfl

@[simp] theorem setLong_rp (s : State) (r : Row) (v : Long) :
    (s.setLong r v).rp = s.rp := by cases r <;> rfl

@[simp] theorem setLong_ia (s : State) (r : Row) (v : Long) :
    (s.setLong r v).ia = s.ia := by cases r <;> rfl

@[simp] theorem setLong_ma (s : State) (r : Row) (v : Long) :
    (s.setLong r v).ma = s.ma := by cases r <;> rfl

@[simp] theorem setLong_md (s : State) (r : Row) (v : Long) :
    (s.setLong r v).md = s.md := by cases r <;> rfl

@[simp] theorem setLong_ci (s : State) (r : Row) (v : Long) :
    (s.setLong r v).ci = s.ci := by cases r <;> rfl

@[simp] theorem setLong_da (s : State) (r : Row) (v : Long) :
    (s.setLong r v).da = s.da := by cases r <;> rfl

@[simp] theorem setLong_mem (s : State) (r : Row) (v : Long) :
    (s.setLong r v).mem = s.mem := by cases r <;> rfl

@[simp] theorem setLong_irq (s : State) (r : Row) (v : Long) :
    (s.setLong r v).irq = s.irq := by cases r <;> rfl

@[simp] theorem setLong_platform (s : State) (r : Row) (v : Long) :
    (s.setLong r v).platform = s.platform := by cases r <;> rfl

@[simp] theorem setLong_draws (s : State) (r : Row) (v : Long) :
    (s.setLong r v).draws = s.draws := by cases r <;> rfl

@[simp] theorem writeReg_flags (s : State) (x : Reg) (v : Long) :
    (writeReg s x v).flags = s.flags := setLong_flags s x.row _

@[simp] theorem writeReg_ime (s : State) (x : Reg) (v : Long) :
    (writeReg s x v).ime = s.ime := setLong_ime s x.row _

@[simp] theorem writeReg_ec (s : State) (x : Reg) (v : Long) :
    (writeReg s x v).ec = s.ec := setLong_ec s x.row _

@[simp] theorem writeReg_pc (s : State) (x : Reg) (v : Long) :
    (writeReg s x v).pc = s.pc := setLong_pc s x.row _

@[simp] theorem writeReg_sp (s : State) (x : Reg) (v : Long) :
    (writeReg s x v).sp = s.sp := setLong_sp s x.row _

@[simp] theorem writeReg_rp (s : State) (x : Reg) (v : Long) :
    (writeReg s x v).rp = s.rp := setLong_rp s x.row _

@[simp] theorem writeReg_ia (s : State) (x : Reg) (v : Long) :
    (writeReg s x v).ia = s.ia := setLong_ia s x.row _

@[simp] theorem writeReg_ma (s : State) (x : Reg) (v : Long) :
    (writeReg s x v).ma = s.ma := setLong_ma s x.row _

@[simp] theorem writeReg_md (s : State) (x : Reg) (v : Long) :
    (writeReg s x v).md = s.md := setLong_md s x.row _

@[simp] theorem writeReg_ci (s : State) (x : Reg) (v : Long) :
    (writeReg s x v).ci = s.ci := setLong_ci s x.row _

@[simp] theorem writeReg_da (s : State) (x : Reg) (v : Long) :
    (writeReg s x v).da = s.da := setLong_da s x.row _

@[simp] theorem writeReg_mem (s : State) (x : Reg) (v : Long) :
    (writeReg s x v).mem = s.mem := setLong_mem s x.row _

@[simp] theorem writeReg_irq (s : State) (x : Reg) (v : Long) :
    (writeReg s x v).irq = s.irq := setLong_irq s x.row _

@[simp] theorem writeReg_platform (s : State) (x : Reg) (v : Long) :
    (writeReg s x v).platform = s.platform := setLong_platform s x.row _

@[simp] theorem writeReg_draws (s : State) (x : Reg) (v : Long) :
    (writeReg s x v).draws = s.draws := setLong_draws s x.row _

@[simp] theorem writeByte_a (s : State) (a : Nat) (v : Byte) :
    (writeByte s a v).a = s.a := by unfold writeByte; split <;> rfl

@[simp] theorem writeByte_b (s : State) (a : Nat) (v : Byte) :
    (writeByte s a v).b = s.b := by unfold writeByte; split <;> rfl

@[simp] theorem writeByte_c (s : State) (a : Nat) (v : Byte) :
    (writeByte s a v).c = s.c := by unfold writeByte; split <;> rfl

@[simp] theorem writeByte_d (s : State) (a : Nat) (v : Byte) :
    (writeByte s a v).d = s.d := by unfold writeByte; split <;> rfl

@[simp] theorem writeByte_flags (s : State) (a : Nat) (v : Byte) :
    (writeByte s a v).flags = s.flags := by unfold writeByte; split <;> rfl

@[simp] theorem writeByte_ime (s : State) (a : Nat) (v : Byte) :
    (writeByte s a v).ime = s.ime := by unfold writeByte; split <;> rfl

@[simp] theorem writeByte_ec (s : State) (a : Nat) (v : Byte) :
    (writeByte s a v).ec = s.ec := by unfold writeByte; split <;> rfl

@[simp] theorem writeByte_pc (s : State) (a : Nat) (v : Byte) :
    (writeByte s a v).pc = s.pc := by unfold writeByte; split <;> rfl

@[simp] theorem writeByte_sp (s : State) (a : Nat) (v : Byte) :
    (writeByte s a v).sp = s.sp := by unfold writeByte; split <;> rfl

@[simp] theorem writeByte_rp (s : State) (a : Nat) (v : Byte) :
    (writeByte s a v).rp = s.rp := by unfold writeByte; split <;> rfl

@[simp] theorem writeByte_ia (s : State) (a : Nat) (v : Byte) :
    (writeByte s a v).ia = s.ia := by unfold writeByte; split <;> rfl

@[simp] theorem writeByte_ma (s : State) (a : Nat) (v : Byte) :
    (writeByte s a v).ma = s.ma := by unfold writeByte; split <;> rfl

@[simp] theorem writeByte_md (s : State) (a : Nat) (v : Byte) :
    (writeByte s a v).md = s.md := by unfold writeByte; split <;> rfl

@[simp] theorem writeByte_ci (s : State) (a : Nat) (v : Byte) :
    (writeByte s a v).ci = s.ci := by unfold writeByte; split <;> rfl

@[simp] theorem writeByte_da (s : State) (a : Nat) (v : Byte) :
    (writeByte s a v).da = s.da := by unfold writeByte; split <;> rfl

@[simp] theorem writeByte_irq (s : State) (a : Nat) (v : Byte) :
    (writeByte s a v).irq = s.irq := by unfold writeByte; split <;> rfl

@[simp] theorem writeByte_platform (s : State) (a : Nat) (v : Byte) :
    (writeByte s a v).platform = s.platform := by unfold writeByte; split <;> rfl

@[simp] theorem writeByte_draws (s : State) (a : Nat) (v : Byte) :
    (writeByte s a v).draws = s.draws := by unfold writeByte; split <;> rfl

@[simp] theorem writeByte_long (s : State) (a : Nat) (v : Byte) (q : Row) :
    (writeByte s a v).long q = s.long q := long_congr (by simp) (by simp) (by simp) (by simp) q

@[simp] theorem tellPlatform_a (s : State) (e : PlatformEvent) :
    (tellPlatform s e).a = s.a := rfl

@[simp] theorem tellPlatform_b (s : State) (e : PlatformEvent) :
    (tellPlatform s e).b = s.b := rfl

@[simp] theorem tellPlatform_c (s : State) (e : PlatformEvent) :
    (tellPlatform s e).c = s.c := rfl

@[simp] theorem tellPlatform_d (s : State) (e : PlatformEvent) :
    (tellPlatform s e).d = s.d := rfl

@[simp] theorem tellPlatform_flags (s : State) (e : PlatformEvent) :
    (tellPlatform s e).flags = s.flags := rfl

@[simp] theorem tellPlatform_ime (s : State) (e : PlatformEvent) :
    (tellPlatform s e).ime = s.ime := rfl

@[simp] theorem tellPlatform_ec (s : State) (e : PlatformEvent) :
    (tellPlatform s e).ec = s.ec := rfl

@[simp] theorem tellPlatform_pc (s : State) (e : PlatformEvent) :
    (tellPlatform s e).pc = s.pc := rfl

@[simp] theorem tellPlatform_sp (s : State) (e : PlatformEvent) :
    (tellPlatform s e).sp = s.sp := rfl

@[simp] theorem tellPlatform_rp (s : State) (e : PlatformEvent) :
    (tellPlatform s e).rp = s.rp := rfl

@[simp] theorem tellPlatform_ia (s : State) (e : PlatformEvent) :
    (tellPlatform s e).ia = s.ia := rfl

@[simp] theorem tellPlatform_ma (s : State) (e : PlatformEvent) :
    (tellPlatform s e).ma = s.ma := rfl

@[simp] theorem tellPlatform_md (s : State) (e : PlatformEvent) :
    (tellPlatform s e).md = s.md := rfl

@[simp] theorem tellPlatform_ci (s : State) (e : PlatformEvent) :
    (tellPlatform s e).ci = s.ci := rfl

@[simp] theorem tellPlatform_da (s : State) (e : PlatformEvent) :
    (tellPlatform s e).da = s.da := rfl

@[simp] theorem tellPlatform_mem (s : State) (e : PlatformEvent) :
    (tellPlatform s e).mem = s.mem := rfl

@[simp] theorem tellPlatform_irq (s : State) (e : PlatformEvent) :
    (tellPlatform s e).irq = s.irq := rfl

@[simp] theorem tellPlatform_draws (s : State) (e : PlatformEvent) :
    (tellPlatform s e).draws = s.draws := rfl

@[simp] theorem tellPlatform_long (s : State) (e : PlatformEvent) (q : Row) :
    (tellPlatform s e).long q = s.long q := long_congr (by simp) (by simp) (by simp) (by simp) q

@[simp] theorem notePlatformRead_a (s : State) (l : List Nat) :
    (notePlatformRead s l).a = s.a := by unfold notePlatformRead; split <;> rfl

@[simp] theorem notePlatformRead_b (s : State) (l : List Nat) :
    (notePlatformRead s l).b = s.b := by unfold notePlatformRead; split <;> rfl

@[simp] theorem notePlatformRead_c (s : State) (l : List Nat) :
    (notePlatformRead s l).c = s.c := by unfold notePlatformRead; split <;> rfl

@[simp] theorem notePlatformRead_d (s : State) (l : List Nat) :
    (notePlatformRead s l).d = s.d := by unfold notePlatformRead; split <;> rfl

@[simp] theorem notePlatformRead_flags (s : State) (l : List Nat) :
    (notePlatformRead s l).flags = s.flags := by unfold notePlatformRead; split <;> rfl

@[simp] theorem notePlatformRead_ime (s : State) (l : List Nat) :
    (notePlatformRead s l).ime = s.ime := by unfold notePlatformRead; split <;> rfl

@[simp] theorem notePlatformRead_ec (s : State) (l : List Nat) :
    (notePlatformRead s l).ec = s.ec := by unfold notePlatformRead; split <;> rfl

@[simp] theorem notePlatformRead_pc (s : State) (l : List Nat) :
    (notePlatformRead s l).pc = s.pc := by unfold notePlatformRead; split <;> rfl

@[simp] theorem notePlatformRead_sp (s : State) (l : List Nat) :
    (notePlatformRead s l).sp = s.sp := by unfold notePlatformRead; split <;> rfl

@[simp] theorem notePlatformRead_rp (s : State) (l : List Nat) :
    (notePlatformRead s l).rp = s.rp := by unfold notePlatformRead; split <;> rfl

@[simp] theorem notePlatformRead_ia (s : State) (l : List Nat) :
    (notePlatformRead s l).ia = s.ia := by unfold notePlatformRead; split <;> rfl

@[simp] theorem notePlatformRead_ma (s : State) (l : List Nat) :
    (notePlatformRead s l).ma = s.ma := by unfold notePlatformRead; split <;> rfl

@[simp] theorem notePlatformRead_md (s : State) (l : List Nat) :
    (notePlatformRead s l).md = s.md := by unfold notePlatformRead; split <;> rfl

@[simp] theorem notePlatformRead_ci (s : State) (l : List Nat) :
    (notePlatformRead s l).ci = s.ci := by unfold notePlatformRead; split <;> rfl

@[simp] theorem notePlatformRead_da (s : State) (l : List Nat) :
    (notePlatformRead s l).da = s.da := by unfold notePlatformRead; split <;> rfl

@[simp] theorem notePlatformRead_mem (s : State) (l : List Nat) :
    (notePlatformRead s l).mem = s.mem := by unfold notePlatformRead; split <;> rfl

@[simp] theorem notePlatformRead_irq (s : State) (l : List Nat) :
    (notePlatformRead s l).irq = s.irq := by unfold notePlatformRead; split <;> rfl

@[simp] theorem notePlatformRead_draws (s : State) (l : List Nat) :
    (notePlatformRead s l).draws = s.draws := by unfold notePlatformRead; split <;> rfl

@[simp] theorem notePlatformRead_long (s : State) (l : List Nat) (q : Row) :
    (notePlatformRead s l).long q = s.long q := long_congr (by simp) (by simp) (by simp) (by simp) q

@[simp] theorem notePlatformWrite_a (s : State) (l : List Host.Cell) :
    (notePlatformWrite s l).a = s.a := by unfold notePlatformWrite; split <;> rfl

@[simp] theorem notePlatformWrite_b (s : State) (l : List Host.Cell) :
    (notePlatformWrite s l).b = s.b := by unfold notePlatformWrite; split <;> rfl

@[simp] theorem notePlatformWrite_c (s : State) (l : List Host.Cell) :
    (notePlatformWrite s l).c = s.c := by unfold notePlatformWrite; split <;> rfl

@[simp] theorem notePlatformWrite_d (s : State) (l : List Host.Cell) :
    (notePlatformWrite s l).d = s.d := by unfold notePlatformWrite; split <;> rfl

@[simp] theorem notePlatformWrite_flags (s : State) (l : List Host.Cell) :
    (notePlatformWrite s l).flags = s.flags := by unfold notePlatformWrite; split <;> rfl

@[simp] theorem notePlatformWrite_ime (s : State) (l : List Host.Cell) :
    (notePlatformWrite s l).ime = s.ime := by unfold notePlatformWrite; split <;> rfl

@[simp] theorem notePlatformWrite_ec (s : State) (l : List Host.Cell) :
    (notePlatformWrite s l).ec = s.ec := by unfold notePlatformWrite; split <;> rfl

@[simp] theorem notePlatformWrite_pc (s : State) (l : List Host.Cell) :
    (notePlatformWrite s l).pc = s.pc := by unfold notePlatformWrite; split <;> rfl

@[simp] theorem notePlatformWrite_sp (s : State) (l : List Host.Cell) :
    (notePlatformWrite s l).sp = s.sp := by unfold notePlatformWrite; split <;> rfl

@[simp] theorem notePlatformWrite_rp (s : State) (l : List Host.Cell) :
    (notePlatformWrite s l).rp = s.rp := by unfold notePlatformWrite; split <;> rfl

@[simp] theorem notePlatformWrite_ia (s : State) (l : List Host.Cell) :
    (notePlatformWrite s l).ia = s.ia := by unfold notePlatformWrite; split <;> rfl

@[simp] theorem notePlatformWrite_ma (s : State) (l : List Host.Cell) :
    (notePlatformWrite s l).ma = s.ma := by unfold notePlatformWrite; split <;> rfl

@[simp] theorem notePlatformWrite_md (s : State) (l : List Host.Cell) :
    (notePlatformWrite s l).md = s.md := by unfold notePlatformWrite; split <;> rfl

@[simp] theorem notePlatformWrite_ci (s : State) (l : List Host.Cell) :
    (notePlatformWrite s l).ci = s.ci := by unfold notePlatformWrite; split <;> rfl

@[simp] theorem notePlatformWrite_da (s : State) (l : List Host.Cell) :
    (notePlatformWrite s l).da = s.da := by unfold notePlatformWrite; split <;> rfl

@[simp] theorem notePlatformWrite_mem (s : State) (l : List Host.Cell) :
    (notePlatformWrite s l).mem = s.mem := by unfold notePlatformWrite; split <;> rfl

@[simp] theorem notePlatformWrite_irq (s : State) (l : List Host.Cell) :
    (notePlatformWrite s l).irq = s.irq := by unfold notePlatformWrite; split <;> rfl

@[simp] theorem notePlatformWrite_draws (s : State) (l : List Host.Cell) :
    (notePlatformWrite s l).draws = s.draws := by unfold notePlatformWrite; split <;> rfl

@[simp] theorem notePlatformWrite_long (s : State) (l : List Host.Cell) (q : Row) :
    (notePlatformWrite s l).long q = s.long q := long_congr (by simp) (by simp) (by simp) (by simp) q

@[simp] theorem afterSample_a (s : State) :
    (afterSample s).a = s.a := rfl

@[simp] theorem afterSample_b (s : State) :
    (afterSample s).b = s.b := rfl

@[simp] theorem afterSample_c (s : State) :
    (afterSample s).c = s.c := rfl

@[simp] theorem afterSample_d (s : State) :
    (afterSample s).d = s.d := rfl

@[simp] theorem afterSample_flags (s : State) :
    (afterSample s).flags = s.flags := rfl

@[simp] theorem afterSample_ime (s : State) :
    (afterSample s).ime = s.ime := rfl

@[simp] theorem afterSample_ec (s : State) :
    (afterSample s).ec = s.ec := rfl

@[simp] theorem afterSample_pc (s : State) :
    (afterSample s).pc = s.pc := rfl

@[simp] theorem afterSample_sp (s : State) :
    (afterSample s).sp = s.sp := rfl

@[simp] theorem afterSample_rp (s : State) :
    (afterSample s).rp = s.rp := rfl

@[simp] theorem afterSample_ia (s : State) :
    (afterSample s).ia = s.ia := rfl

@[simp] theorem afterSample_ma (s : State) :
    (afterSample s).ma = s.ma := rfl

@[simp] theorem afterSample_md (s : State) :
    (afterSample s).md = s.md := rfl

@[simp] theorem afterSample_ci (s : State) :
    (afterSample s).ci = s.ci := rfl

@[simp] theorem afterSample_da (s : State) :
    (afterSample s).da = s.da := rfl

@[simp] theorem afterSample_mem (s : State) :
    (afterSample s).mem = s.mem := rfl

@[simp] theorem afterSample_platform (s : State) :
    (afterSample s).platform = s.platform := rfl

@[simp] theorem afterSample_draws (s : State) :
    (afterSample s).draws = s.draws := rfl

@[simp] theorem afterSample_long (s : State) (q : Row) :
    (afterSample s).long q = s.long q := long_congr (by simp) (by simp) (by simp) (by simp) q

@[simp] theorem drawn_a (s : State) :
    (drawn s).a = s.a := rfl

@[simp] theorem drawn_b (s : State) :
    (drawn s).b = s.b := rfl

@[simp] theorem drawn_c (s : State) :
    (drawn s).c = s.c := rfl

@[simp] theorem drawn_d (s : State) :
    (drawn s).d = s.d := rfl

@[simp] theorem drawn_flags (s : State) :
    (drawn s).flags = s.flags := rfl

@[simp] theorem drawn_ime (s : State) :
    (drawn s).ime = s.ime := rfl

@[simp] theorem drawn_ec (s : State) :
    (drawn s).ec = s.ec := rfl

@[simp] theorem drawn_pc (s : State) :
    (drawn s).pc = s.pc := rfl

@[simp] theorem drawn_sp (s : State) :
    (drawn s).sp = s.sp := rfl

@[simp] theorem drawn_rp (s : State) :
    (drawn s).rp = s.rp := rfl

@[simp] theorem drawn_ia (s : State) :
    (drawn s).ia = s.ia := rfl

@[simp] theorem drawn_ma (s : State) :
    (drawn s).ma = s.ma := rfl

@[simp] theorem drawn_md (s : State) :
    (drawn s).md = s.md := rfl

@[simp] theorem drawn_ci (s : State) :
    (drawn s).ci = s.ci := rfl

@[simp] theorem drawn_da (s : State) :
    (drawn s).da = s.da := rfl

@[simp] theorem drawn_mem (s : State) :
    (drawn s).mem = s.mem := rfl

@[simp] theorem drawn_irq (s : State) :
    (drawn s).irq = s.irq := rfl

@[simp] theorem drawn_platform (s : State) :
    (drawn s).platform = s.platform := rfl

@[simp] theorem drawn_long (s : State) (q : Row) :
    (drawn s).long q = s.long q := long_congr (by simp) (by simp) (by simp) (by simp) q

@[simp] theorem drawnIfLong_a (w : Width) (s : State) :
    (drawnIfLong w s).a = s.a := by cases w <;> rfl

@[simp] theorem drawnIfLong_b (w : Width) (s : State) :
    (drawnIfLong w s).b = s.b := by cases w <;> rfl

@[simp] theorem drawnIfLong_c (w : Width) (s : State) :
    (drawnIfLong w s).c = s.c := by cases w <;> rfl

@[simp] theorem drawnIfLong_d (w : Width) (s : State) :
    (drawnIfLong w s).d = s.d := by cases w <;> rfl

@[simp] theorem drawnIfLong_flags (w : Width) (s : State) :
    (drawnIfLong w s).flags = s.flags := by cases w <;> rfl

@[simp] theorem drawnIfLong_ime (w : Width) (s : State) :
    (drawnIfLong w s).ime = s.ime := by cases w <;> rfl

@[simp] theorem drawnIfLong_ec (w : Width) (s : State) :
    (drawnIfLong w s).ec = s.ec := by cases w <;> rfl

@[simp] theorem drawnIfLong_pc (w : Width) (s : State) :
    (drawnIfLong w s).pc = s.pc := by cases w <;> rfl

@[simp] theorem drawnIfLong_sp (w : Width) (s : State) :
    (drawnIfLong w s).sp = s.sp := by cases w <;> rfl

@[simp] theorem drawnIfLong_rp (w : Width) (s : State) :
    (drawnIfLong w s).rp = s.rp := by cases w <;> rfl

@[simp] theorem drawnIfLong_ia (w : Width) (s : State) :
    (drawnIfLong w s).ia = s.ia := by cases w <;> rfl

@[simp] theorem drawnIfLong_ma (w : Width) (s : State) :
    (drawnIfLong w s).ma = s.ma := by cases w <;> rfl

@[simp] theorem drawnIfLong_md (w : Width) (s : State) :
    (drawnIfLong w s).md = s.md := by cases w <;> rfl

@[simp] theorem drawnIfLong_ci (w : Width) (s : State) :
    (drawnIfLong w s).ci = s.ci := by cases w <;> rfl

@[simp] theorem drawnIfLong_da (w : Width) (s : State) :
    (drawnIfLong w s).da = s.da := by cases w <;> rfl

@[simp] theorem drawnIfLong_mem (w : Width) (s : State) :
    (drawnIfLong w s).mem = s.mem := by cases w <;> rfl

@[simp] theorem drawnIfLong_irq (w : Width) (s : State) :
    (drawnIfLong w s).irq = s.irq := by cases w <;> rfl

@[simp] theorem drawnIfLong_platform (w : Width) (s : State) :
    (drawnIfLong w s).platform = s.platform := by cases w <;> rfl

@[simp] theorem drawnIfLong_long (w : Width) (s : State) (q : Row) :
    (drawnIfLong w s).long q = s.long q := long_congr (by simp) (by simp) (by simp) (by simp) q

@[simp] theorem drawInternals_a (s : State) :
    (drawInternals s).a = s.a := rfl

@[simp] theorem drawInternals_b (s : State) :
    (drawInternals s).b = s.b := rfl

@[simp] theorem drawInternals_c (s : State) :
    (drawInternals s).c = s.c := rfl

@[simp] theorem drawInternals_d (s : State) :
    (drawInternals s).d = s.d := rfl

@[simp] theorem drawInternals_flags (s : State) :
    (drawInternals s).flags = s.flags := rfl

@[simp] theorem drawInternals_ime (s : State) :
    (drawInternals s).ime = s.ime := rfl

@[simp] theorem drawInternals_ec (s : State) :
    (drawInternals s).ec = s.ec := rfl

@[simp] theorem drawInternals_pc (s : State) :
    (drawInternals s).pc = s.pc := rfl

@[simp] theorem drawInternals_sp (s : State) :
    (drawInternals s).sp = s.sp := rfl

@[simp] theorem drawInternals_rp (s : State) :
    (drawInternals s).rp = s.rp := rfl

@[simp] theorem drawInternals_ia (s : State) :
    (drawInternals s).ia = s.ia := rfl

@[simp] theorem drawInternals_ci (s : State) :
    (drawInternals s).ci = s.ci := rfl

@[simp] theorem drawInternals_mem (s : State) :
    (drawInternals s).mem = s.mem := rfl

@[simp] theorem drawInternals_irq (s : State) :
    (drawInternals s).irq = s.irq := rfl

@[simp] theorem drawInternals_platform (s : State) :
    (drawInternals s).platform = s.platform := rfl

@[simp] theorem drawInternals_long (s : State) (q : Row) :
    (drawInternals s).long q = s.long q := long_congr (by simp) (by simp) (by simp) (by simp) q

@[simp] theorem stopWith_a (s : State) (e : Byte) :
    (stopWith s e).a = s.a := rfl

@[simp] theorem stopWith_b (s : State) (e : Byte) :
    (stopWith s e).b = s.b := rfl

@[simp] theorem stopWith_c (s : State) (e : Byte) :
    (stopWith s e).c = s.c := rfl

@[simp] theorem stopWith_d (s : State) (e : Byte) :
    (stopWith s e).d = s.d := rfl

@[simp] theorem stopWith_ime (s : State) (e : Byte) :
    (stopWith s e).ime = s.ime := rfl

@[simp] theorem stopWith_pc (s : State) (e : Byte) :
    (stopWith s e).pc = s.pc := rfl

@[simp] theorem stopWith_sp (s : State) (e : Byte) :
    (stopWith s e).sp = s.sp := rfl

@[simp] theorem stopWith_rp (s : State) (e : Byte) :
    (stopWith s e).rp = s.rp := rfl

@[simp] theorem stopWith_ia (s : State) (e : Byte) :
    (stopWith s e).ia = s.ia := rfl

@[simp] theorem stopWith_ma (s : State) (e : Byte) :
    (stopWith s e).ma = s.ma := rfl

@[simp] theorem stopWith_md (s : State) (e : Byte) :
    (stopWith s e).md = s.md := rfl

@[simp] theorem stopWith_ci (s : State) (e : Byte) :
    (stopWith s e).ci = s.ci := rfl

@[simp] theorem stopWith_da (s : State) (e : Byte) :
    (stopWith s e).da = s.da := rfl

@[simp] theorem stopWith_mem (s : State) (e : Byte) :
    (stopWith s e).mem = s.mem := rfl

@[simp] theorem stopWith_irq (s : State) (e : Byte) :
    (stopWith s e).irq = s.irq := rfl

@[simp] theorem stopWith_platform (s : State) (e : Byte) :
    (stopWith s e).platform = s.platform := rfl

@[simp] theorem stopWith_draws (s : State) (e : Byte) :
    (stopWith s e).draws = s.draws := rfl

@[simp] theorem stopWith_long (s : State) (e : Byte) (q : Row) :
    (stopWith s e).long q = s.long q := long_congr (by simp) (by simp) (by simp) (by simp) q

@[simp] theorem accumulate_ime (op : BinaryOp) (s : State) (x : Reg) (b : Long) :
    (accumulate op s x b).ime = s.ime := by simp [accumulate]

@[simp] theorem accumulate_ec (op : BinaryOp) (s : State) (x : Reg) (b : Long) :
    (accumulate op s x b).ec = s.ec := by simp [accumulate]

@[simp] theorem accumulate_pc (op : BinaryOp) (s : State) (x : Reg) (b : Long) :
    (accumulate op s x b).pc = s.pc := by simp [accumulate]

@[simp] theorem accumulate_sp (op : BinaryOp) (s : State) (x : Reg) (b : Long) :
    (accumulate op s x b).sp = s.sp := by simp [accumulate]

@[simp] theorem accumulate_rp (op : BinaryOp) (s : State) (x : Reg) (b : Long) :
    (accumulate op s x b).rp = s.rp := by simp [accumulate]

@[simp] theorem accumulate_ia (op : BinaryOp) (s : State) (x : Reg) (b : Long) :
    (accumulate op s x b).ia = s.ia := by simp [accumulate]

@[simp] theorem accumulate_ma (op : BinaryOp) (s : State) (x : Reg) (b : Long) :
    (accumulate op s x b).ma = s.ma := by simp [accumulate]

@[simp] theorem accumulate_md (op : BinaryOp) (s : State) (x : Reg) (b : Long) :
    (accumulate op s x b).md = s.md := by simp [accumulate]

@[simp] theorem accumulate_ci (op : BinaryOp) (s : State) (x : Reg) (b : Long) :
    (accumulate op s x b).ci = s.ci := by simp [accumulate]

@[simp] theorem accumulate_da (op : BinaryOp) (s : State) (x : Reg) (b : Long) :
    (accumulate op s x b).da = s.da := by simp [accumulate]

@[simp] theorem accumulate_mem (op : BinaryOp) (s : State) (x : Reg) (b : Long) :
    (accumulate op s x b).mem = s.mem := by simp [accumulate]

@[simp] theorem accumulate_irq (op : BinaryOp) (s : State) (x : Reg) (b : Long) :
    (accumulate op s x b).irq = s.irq := by simp [accumulate]

@[simp] theorem accumulate_platform (op : BinaryOp) (s : State) (x : Reg) (b : Long) :
    (accumulate op s x b).platform = s.platform := by simp [accumulate]

@[simp] theorem accumulate_draws (op : BinaryOp) (s : State) (x : Reg) (b : Long) :
    (accumulate op s x b).draws = s.draws := by simp [accumulate]

@[simp] theorem compare_a (s : State) (x : Reg) (b : Long) :
    (Sys2Proof.Machine.compare s x b).a = s.a := rfl

@[simp] theorem compare_b (s : State) (x : Reg) (b : Long) :
    (Sys2Proof.Machine.compare s x b).b = s.b := rfl

@[simp] theorem compare_c (s : State) (x : Reg) (b : Long) :
    (Sys2Proof.Machine.compare s x b).c = s.c := rfl

@[simp] theorem compare_d (s : State) (x : Reg) (b : Long) :
    (Sys2Proof.Machine.compare s x b).d = s.d := rfl

@[simp] theorem compare_ime (s : State) (x : Reg) (b : Long) :
    (Sys2Proof.Machine.compare s x b).ime = s.ime := rfl

@[simp] theorem compare_ec (s : State) (x : Reg) (b : Long) :
    (Sys2Proof.Machine.compare s x b).ec = s.ec := rfl

@[simp] theorem compare_pc (s : State) (x : Reg) (b : Long) :
    (Sys2Proof.Machine.compare s x b).pc = s.pc := rfl

@[simp] theorem compare_sp (s : State) (x : Reg) (b : Long) :
    (Sys2Proof.Machine.compare s x b).sp = s.sp := rfl

@[simp] theorem compare_rp (s : State) (x : Reg) (b : Long) :
    (Sys2Proof.Machine.compare s x b).rp = s.rp := rfl

@[simp] theorem compare_ia (s : State) (x : Reg) (b : Long) :
    (Sys2Proof.Machine.compare s x b).ia = s.ia := rfl

@[simp] theorem compare_ma (s : State) (x : Reg) (b : Long) :
    (Sys2Proof.Machine.compare s x b).ma = s.ma := rfl

@[simp] theorem compare_md (s : State) (x : Reg) (b : Long) :
    (Sys2Proof.Machine.compare s x b).md = s.md := rfl

@[simp] theorem compare_ci (s : State) (x : Reg) (b : Long) :
    (Sys2Proof.Machine.compare s x b).ci = s.ci := rfl

@[simp] theorem compare_da (s : State) (x : Reg) (b : Long) :
    (Sys2Proof.Machine.compare s x b).da = s.da := rfl

@[simp] theorem compare_mem (s : State) (x : Reg) (b : Long) :
    (Sys2Proof.Machine.compare s x b).mem = s.mem := rfl

@[simp] theorem compare_irq (s : State) (x : Reg) (b : Long) :
    (Sys2Proof.Machine.compare s x b).irq = s.irq := rfl

@[simp] theorem compare_platform (s : State) (x : Reg) (b : Long) :
    (Sys2Proof.Machine.compare s x b).platform = s.platform := rfl

@[simp] theorem compare_draws (s : State) (x : Reg) (b : Long) :
    (Sys2Proof.Machine.compare s x b).draws = s.draws := rfl

@[simp] theorem compare_long (s : State) (x : Reg) (b : Long) (q : Row) :
    (Sys2Proof.Machine.compare s x b).long q = s.long q := long_congr (by simp) (by simp) (by simp) (by simp) q

@[simp] theorem modifyReg_ime (s : State) (x : Reg) (op : UnaryOp) :
    (modifyReg s x op).ime = s.ime := by simp [modifyReg]

@[simp] theorem modifyReg_ec (s : State) (x : Reg) (op : UnaryOp) :
    (modifyReg s x op).ec = s.ec := by simp [modifyReg]

@[simp] theorem modifyReg_pc (s : State) (x : Reg) (op : UnaryOp) :
    (modifyReg s x op).pc = s.pc := by simp [modifyReg]

@[simp] theorem modifyReg_sp (s : State) (x : Reg) (op : UnaryOp) :
    (modifyReg s x op).sp = s.sp := by simp [modifyReg]

@[simp] theorem modifyReg_rp (s : State) (x : Reg) (op : UnaryOp) :
    (modifyReg s x op).rp = s.rp := by simp [modifyReg]

@[simp] theorem modifyReg_ia (s : State) (x : Reg) (op : UnaryOp) :
    (modifyReg s x op).ia = s.ia := by simp [modifyReg]

@[simp] theorem modifyReg_ma (s : State) (x : Reg) (op : UnaryOp) :
    (modifyReg s x op).ma = s.ma := by simp [modifyReg]

@[simp] theorem modifyReg_md (s : State) (x : Reg) (op : UnaryOp) :
    (modifyReg s x op).md = s.md := by simp [modifyReg]

@[simp] theorem modifyReg_ci (s : State) (x : Reg) (op : UnaryOp) :
    (modifyReg s x op).ci = s.ci := by simp [modifyReg]

@[simp] theorem modifyReg_da (s : State) (x : Reg) (op : UnaryOp) :
    (modifyReg s x op).da = s.da := by simp [modifyReg]

@[simp] theorem modifyReg_mem (s : State) (x : Reg) (op : UnaryOp) :
    (modifyReg s x op).mem = s.mem := by simp [modifyReg]

@[simp] theorem modifyReg_irq (s : State) (x : Reg) (op : UnaryOp) :
    (modifyReg s x op).irq = s.irq := by simp [modifyReg]

@[simp] theorem modifyReg_platform (s : State) (x : Reg) (op : UnaryOp) :
    (modifyReg s x op).platform = s.platform := by simp [modifyReg]

@[simp] theorem modifyReg_draws (s : State) (x : Reg) (op : UnaryOp) :
    (modifyReg s x op).draws = s.draws := by simp [modifyReg]

end Sys2Proof.Machine
end

