-- ==== Sys2Proof/Laws/Regs.lean ====
section
/-! SUPPORT. Lemmas about the general registers and their parts (spec/10_state.md R21 to R24). -/

namespace Sys2Proof.Machine

@[simp] theorem setLong_long_same (s : State) (r : Row) (v : Long) : (s.setLong r v).long r = v := by
  cases r <;> rfl

theorem setLong_long_ne (s : State) {q r : Row} (v : Long) (h : q ≠ r) :
    (s.setLong r v).long q = s.long q := by
  cases q <;> cases r <;> first | rfl | exact absurd rfl h

@[simp] theorem setLong_setLong (s : State) (r : Row) (v w : Long) :
    (s.setLong r v).setLong r w = s.setLong r w := by
  cases r <;> rfl

@[simp] theorem setLong_self (s : State) (r : Row) : s.setLong r (s.long r) = s := by
  cases r <;> rfl

/-- A value truncated to a width, as a number (R8). -/
theorem truncTo_toNat (w : Width) (v : Long) : (truncTo w v).toNat = v.toNat % 2 ^ w.bits := by
  cases w
  · simp [truncTo, Width.bits, BitVec.extractLsb'_toNat]
    omega
  · simp [truncTo, Width.bits, BitVec.extractLsb'_toNat]
    omega
  · simpa [truncTo, Width.bits] using (Nat.mod_eq_of_lt v.isLt).symm

theorem truncTo_eq_ofNat (w : Width) (v : Long) :
    truncTo w v = BitVec.ofNat 32 (v.toNat % 2 ^ w.bits) := by
  apply BitVec.eq_of_toNat_eq
  rw [truncTo_toNat, BitVec.toNat_ofNat]
  exact (Nat.mod_eq_of_lt (Nat.lt_of_le_of_lt (Nat.mod_le _ _) v.isLt)).symm

theorem bits_le (w : Width) : w.bits ≤ 32 := by cases w <;> decide

theorem modulus_le (w : Width) : 2 ^ w.bits ≤ 2 ^ 32 := Nat.pow_le_pow_right (by omega) (bits_le w)

/-- A value below the modulus of a width is not changed by truncation. -/
theorem truncTo_of_lt {w : Width} {v : Long} (h : v.toNat < 2 ^ w.bits) : truncTo w v = v := by
  rw [truncTo_eq_ofNat, Nat.mod_eq_of_lt h, BitVec.ofNat_toNat, BitVec.setWidth_eq]

theorem truncTo_lt (w : Width) (v : Long) : (truncTo w v).toNat < 2 ^ w.bits := by
  rw [truncTo_toNat]
  exact Nat.mod_lt _ (by positivity)

@[simp] theorem truncTo_truncTo (w : Width) (v : Long) : truncTo w (truncTo w v) = truncTo w v :=
  truncTo_of_lt (truncTo_lt w v)

/-- A register's value fits its width (R24). -/
theorem partOf_lt (v : Long) (p : Part) : (partOf v p).toNat < 2 ^ p.width.bits := by
  have h := v.isLt
  cases p <;> simp [partOf, Part.width, Width.bits, BitVec.extractLsb'_toNat] <;> omega

theorem readReg_lt (s : State) (x : Reg) : (readReg s x).toNat < 2 ^ x.width.bits :=
  partOf_lt _ _

@[simp] theorem truncTo_readReg (s : State) (x : Reg) :
    truncTo x.width (readReg s x) = readReg s x := truncTo_of_lt (readReg_lt s x)

/-- A part reads as the low bits of what was written to it (R24). -/
theorem partOf_withPart (old v : Long) (p : Part) :
    partOf (withPart old p v) p = truncTo p.width v := by
  apply BitVec.eq_of_getLsbD_eq
  intro k hk
  cases p <;>
    simp only [partOf, withPart, truncTo, Part.width, BitVec.getLsbD_setWidth,
      BitVec.getLsbD_extractLsb', BitVec.getLsbD_append]
  · by_cases h : k < 16 <;> simp [h, hk]
  · by_cases h : k < 8
    · simp [h, hk, show 8 + k < 32 by omega, show ¬ 8 + k < 8 by omega]
    · simp [h]
  · by_cases h : k < 8 <;> simp [h, hk]

/-- The bits of a long outside a part survive a write of the part (R24). -/
theorem withPart_getLsbD_outside (old v : Long) (p : Part) (k : Nat) (h : inPart p k = false) :
    (withPart old p v).getLsbD k = old.getLsbD k := by
  by_cases hk : k < 32
  · cases p <;> simp [inPart] at h <;>
      simp only [withPart, BitVec.getLsbD_setWidth, BitVec.getLsbD_extractLsb',
        BitVec.getLsbD_append]
    · omega
    · simp [hk, show ¬ k < 16 by omega, show k - 16 < 16 by omega, show 16 + (k - 16) = k by omega]
    · by_cases h8 : k < 8
      · simp [h8, hk]
      · have := h (by omega)
        simp [h8, hk, show ¬ k - 8 < 8 by omega, show k - 8 - 8 < 16 by omega,
          show 16 + (k - 8 - 8) = k by omega]
    · simp [hk, show ¬ k < 8 by omega, show k - 8 < 24 by omega, show 8 + (k - 8) = k by omega]
  · rw [BitVec.getLsbD_of_ge _ _ (by omega), BitVec.getLsbD_of_ge _ _ (by omega)]

/-- Writing back the part that a long already has changes nothing. -/
@[simp] theorem withPart_partOf (old : Long) (p : Part) : withPart old p (partOf old p) = old := by
  apply BitVec.eq_of_getLsbD_eq
  intro k hk
  cases p <;>
    simp only [partOf, withPart, BitVec.getLsbD_setWidth, BitVec.getLsbD_extractLsb',
      BitVec.getLsbD_append]
  · by_cases h : k < 16
    · simp [h, hk]
    · simp [h, hk, show k - 16 < 16 by omega, show 16 + (k - 16) = k by omega]
  · by_cases h : k < 8
    · simp [h, hk]
    · by_cases h' : k - 8 < 8
      · simp [h, h', hk, show k - 8 < 32 by omega, show 8 + (k - 8) = k by omega]
      · simp [h, h', hk, show k - 8 - 8 < 16 by omega, show 16 + (k - 8 - 8) = k by omega]
  · by_cases h : k < 8
    · simp [h, hk]
    · simp [h, hk, show k - 8 < 24 by omega, show 8 + (k - 8) = k by omega]

/-- A later write of a part hides an earlier one. -/
@[simp] theorem withPart_withPart (old v w : Long) (p : Part) :
    withPart (withPart old p v) p w = withPart old p w := by
  apply BitVec.eq_of_getLsbD_eq
  intro k hk
  by_cases h : inPart p k = false
  · simp only [withPart_getLsbD_outside _ _ _ _ h]
  · cases p <;> simp [inPart] at h <;>
      simp only [withPart, BitVec.getLsbD_setWidth, BitVec.getLsbD_extractLsb',
        BitVec.getLsbD_append]
    · simp [h]
    · simp [show ¬ k < 8 by omega, show k - 8 < 8 by omega]
    · simp [h]

/-- What a register reads as after it has been written (R24). -/
@[simp] theorem readReg_writeReg (s : State) (x : Reg) (v : Long) :
    readReg (writeReg s x v) x = truncTo x.width v := by
  simp [readReg, writeReg, partOf_withPart, Reg.width]

/-- A write of a register, said once: the value, the other bits of its long, the other longs (R24). -/
theorem regBecomes_writeReg (s : State) (x : Reg) (v : Long) :
    regBecomes x (truncTo x.width v) s (writeReg s x v) := by
  refine ⟨readReg_writeReg s x v, ?_, ?_⟩
  · intro k hk
    simp [writeReg, withPart_getLsbD_outside _ _ _ _ hk]
  · intro r hr
    exact setLong_long_ne _ _ hr

/-- The same with a value that fits the register. -/
theorem regBecomes_writeReg_of_lt (s : State) (x : Reg) {v : Long}
    (h : v.toNat < 2 ^ x.width.bits) : regBecomes x v s (writeReg s x v) := by
  have := regBecomes_writeReg s x v
  rwa [truncTo_of_lt h] at this

theorem writeReg_long_ne (s : State) (x : Reg) (v : Long) {r : Row} (h : r ≠ x.row) :
    (writeReg s x v).long r = s.long r := setLong_long_ne _ _ h

@[simp] theorem writeReg_readReg (s : State) (x : Reg) : writeReg s x (readReg s x) = s := by
  simp [writeReg, readReg]

@[simp] theorem writeReg_writeReg (s : State) (x : Reg) (v w : Long) :
    writeReg (writeReg s x v) x w = writeReg s x w := by
  simp [writeReg]

/-- `regBecomes` speaks of the long registers alone. -/
theorem regBecomes_congr {x : Reg} {v : Long} {s s' t t' : State}
    (hs : ∀ r, s'.long r = s.long r) (ht : ∀ r, t'.long r = t.long r)
    (h : regBecomes x v s t) : regBecomes x v s' t' := by
  obtain ⟨h1, h2, h3⟩ := h
  refine ⟨?_, fun k hk => ?_, fun r hr => ?_⟩
  · rw [readReg_congr (ht x.row), h1]
  · rw [ht, hs, h2 k hk]
  · rw [ht, hs, h3 r hr]

/-! ### Frames -/

theorem sameExcept_refl (l : List Field) (s : State) : sameExcept l s s := by
  intro x _
  cases x <;> simp [agreeOn]

theorem sameExcept_trans {l : List Field} {s t u : State} (h1 : sameExcept l s t)
    (h2 : sameExcept l t u) : sameExcept l s u := by
  intro x hx
  have a := h1 x hx
  have b := h2 x hx
  cases x <;> simp only [agreeOn] at a b ⊢ <;> first | exact b.trans a | exact fun k => (b k).trans (a k)

theorem sameExcept_mono {l m : List Field} {s t : State} (h : sameExcept l s t) (hlm : l ⊆ m) :
    sameExcept m s t := fun x hx => h x fun hl => hx (hlm hl)

/-- A frame over the long registers and everything else: what is to be shown for each part. -/
theorem sameExcept_iff {l : List Field} {s t : State} :
    sameExcept l s t ↔ (∀ r, Field.long r ∉ l → t.long r = s.long r) ∧
      (Field.z ∉ l → t.flags.z = s.flags.z) ∧ (Field.n ∉ l → t.flags.n = s.flags.n) ∧
      (Field.h ∉ l → t.flags.h = s.flags.h) ∧ (Field.c ∉ l → t.flags.c = s.flags.c) ∧
      (Field.o ∉ l → t.flags.o = s.flags.o) ∧ (Field.u ∉ l → t.flags.u = s.flags.u) ∧
      (Field.l ∉ l → t.flags.l = s.flags.l) ∧ (Field.s ∉ l → t.flags.s = s.flags.s) ∧
      (Field.ime ∉ l → t.ime = s.ime) ∧ (Field.ec ∉ l → t.ec = s.ec) ∧
      (Field.pc ∉ l → t.pc = s.pc) ∧ (Field.sp ∉ l → t.sp = s.sp) ∧
      (Field.rp ∉ l → t.rp = s.rp) ∧ (Field.ia ∉ l → t.ia = s.ia) ∧
      (Field.ma ∉ l → t.ma = s.ma) ∧ (Field.md ∉ l → t.md = s.md) ∧
      (Field.ci ∉ l → t.ci = s.ci) ∧ (Field.da ∉ l → t.da = s.da) ∧
      (Field.mem ∉ l → ∀ a, readByte t a = readByte s a) ∧ (Field.irq ∉ l → t.irq = s.irq) ∧
      (Field.platform ∉ l → t.platform = s.platform) ∧ (Field.draws ∉ l → t.draws = s.draws) := by
  constructor
  · intro h
    refine ⟨fun r => h (.long r), h .z, h .n, h .h, h .c, h .o, h .u, h .l, h .s, h .ime, h .ec,
      h .pc, h .sp, h .rp, h .ia, h .ma, h .md, h .ci, h .da, h .mem, h .irq, h .platform,
      h .draws⟩
  · rintro ⟨h0, h1, h2, h3, h4, h5, h6, h7, h8, h9, h10, h11, h12, h13, h14, h15, h16, h17, h18,
      h19, h20, h21, h22⟩ x
    cases x
    · exact h0 _
    all_goals assumption

/-- A register write leaves everything but its long as it was. -/
theorem sameExcept_writeReg (s : State) (x : Reg) (v : Long) :
    sameExcept [.long x.row] s (writeReg s x v) := by
  rw [sameExcept_iff]
  simp only [List.mem_singleton, Field.long.injEq]
  refine ⟨fun r hr => writeReg_long_ne s x v hr, ?_⟩
  simp
  exact fun a => readByte_congr (by simp) a

end Sys2Proof.Machine
end

