-- ==== Sys2Proof/Laws/Memory.lean ====
section
/-! SUPPORT. Lemmas about stored bytes: reading after writing, the canonical form, runs of bytes
(spec/20_memory.md R60 to R62). -/

namespace Sys2Proof.Machine

/-! ### The list of stored bytes -/

@[simp] theorem Memory.get?_set_same (m : Memory) (a : Nat) (v : Byte) :
    Memory.get? (Memory.set m a v) a = some v := by
  induction m with
  | nil => simp [Memory.set, Memory.get?]
  | cons p rest ih =>
    obtain ⟨k, old⟩ := p
    rw [Memory.set]
    split
    · simp [Memory.get?]
    · split
      · simp [Memory.get?]
      · rw [Memory.get?, if_neg ‹_›, ih]

theorem Memory.get?_set_ne (m : Memory) {a b : Nat} (v : Byte) (h : b ≠ a) :
    Memory.get? (Memory.set m a v) b = Memory.get? m b := by
  induction m with
  | nil => simp [Memory.set, Memory.get?, h]
  | cons p rest ih =>
    obtain ⟨k, old⟩ := p
    rw [Memory.set]
    split
    · simp [Memory.get?, h]
    · split
      · subst_vars
        simp [Memory.get?, h]
      · rw [Memory.get?, Memory.get?, ih]

/-- Every entry after a write is the new one or an old one. -/
theorem Memory.mem_set {m : Memory} {a : Nat} {v : Byte} {p : Host.Cell}
    (h : p ∈ Memory.set m a v) : p = (a, v) ∨ p ∈ m := by
  induction m with
  | nil => simpa [Memory.set] using h
  | cons q rest ih =>
    obtain ⟨k, old⟩ := q
    rw [Memory.set] at h
    split at h
    · simpa using h
    · split at h
      · rcases List.mem_cons.1 h with h | h
        · exact .inl h
        · exact .inr (List.mem_cons_of_mem _ h)
      · rcases List.mem_cons.1 h with h | h
        · exact .inr (h ▸ List.mem_cons_self)
        · exact (ih h).imp_right (List.mem_cons_of_mem _)

/-- A write keeps the canonical form. -/
theorem Memory.wf_set {m : Memory} {a : Nat} {v : Byte} (h : Memory.wf m) (ha : a < hwregStart) :
    Memory.wf (Memory.set m a v) := by
  obtain ⟨hs, hb⟩ := h
  refine ⟨?_, fun p hp => ?_⟩
  · clear hb
    induction m with
    | nil => simp [Memory.set]
    | cons q rest ih =>
      obtain ⟨k, old⟩ := q
      obtain ⟨hk, hr⟩ := List.pairwise_cons.1 hs
      rw [Memory.set]
      split
      · refine List.pairwise_cons.2 ⟨fun p hp => ?_, hs⟩
        rcases List.mem_cons.1 hp with rfl | hp
        · assumption
        · exact Nat.lt_trans ‹_› (hk p hp)
      · split
        · subst_vars
          exact List.pairwise_cons.2 ⟨hk, hr⟩
        · refine List.pairwise_cons.2 ⟨fun p hp => ?_, ih hr⟩
          rcases Memory.mem_set hp with rfl | hp
          · simp only
            omega
          · exact hk p hp
  · rcases Memory.mem_set hp with rfl | hp
    · exact ha
    · exact hb p hp

/-- Nothing is stored where the platform is (R76). -/
theorem Memory.get?_hwPage {m : Memory} (h : Memory.wf m) {a : Nat} (ha : hwregStart ≤ a) :
    Memory.get? m a = none := by
  obtain ⟨-, hb⟩ := h
  induction m with
  | nil => rfl
  | cons q rest ih =>
    obtain ⟨k, old⟩ := q
    have := hb (k, old) List.mem_cons_self
    rw [Memory.get?, if_neg (by simp only at this; omega)]
    exact ih fun p hp => hb p (List.mem_cons_of_mem _ hp)

theorem reset_mem_wf : Memory.wf State.reset.mem := by decide

/-! ### One byte -/

theorem readByte_writeByte (s : State) (a b : Nat) (v : Byte) :
    readByte (writeByte s a v) b = if b = a ∧ a < hwregStart then v else readByte s b := by
  unfold writeByte readByte
  by_cases ha : a < hwregStart
  · by_cases h : b = a
    · simp [ha, h]
    · simp [ha, h, Memory.get?_set_ne]
  · simp [ha]

theorem writeByte_wf {s : State} (h : Memory.wf s.mem) (a : Nat) (v : Byte) :
    Memory.wf (writeByte s a v).mem := by
  unfold writeByte
  split
  · exact Memory.wf_set h ‹_›
  · exact h

/-! ### Runs of bytes -/

@[simp] theorem readBytes_length (s : State) (a n : Nat) : (readBytes s a n).length = n := by
  simp [readBytes]

/-- Two states whose bytes agree on a run have the same run. -/
theorem readBytes_congr {s t : State} {a n : Nat}
    (h : ∀ k, k < n → readByte t (a + k) = readByte s (a + k)) :
    readBytes t a n = readBytes s a n := by
  refine List.map_congr_left fun b hb => ?_
  obtain ⟨k, hk, rfl⟩ := List.mem_range'.1 hb
  simpa using h k hk

/-- Reading bytes depends on the memory alone. -/
theorem readBytes_of_mem {s t : State} (h : t.mem = s.mem) (a n : Nat) :
    readBytes t a n = readBytes s a n := readBytes_congr fun _ _ => readByte_congr h _

theorem readBytes_append (s : State) (a m n : Nat) :
    readBytes s a (m + n) = readBytes s a m ++ readBytes s (a + m) n := by
  simp only [readBytes]
  rw [← List.map_append, List.range'_append_1]

/-- What a byte reads as after a run of bytes has been written (R62; R76 for the last page). -/
theorem readByte_writeBytes (s : State) (a b : Nat) (l : List Byte) :
    readByte (writeBytes s a l) b =
      if a ≤ b ∧ b < a + l.length ∧ b < hwregStart then l.getD (b - a) 0 else readByte s b := by
  induction l generalizing s a with
  | nil => rw [writeBytes, if_neg (by simp; omega)]
  | cons v rest ih =>
    rw [writeBytes, ih, readByte_writeByte]
    by_cases h : b = a
    · subst h
      by_cases hb : b < hwregStart <;> simp [hb]
    · rw [if_neg (by tauto : ¬(b = a ∧ a < hwregStart))]
      by_cases h1 : a + 1 ≤ b ∧ b < a + 1 + rest.length ∧ b < hwregStart
      · rw [if_pos h1, if_pos (by simp; omega), show b - a = (b - (a + 1)) + 1 by omega]
        rfl
      · rw [if_neg h1, if_neg (by simp at h1 ⊢; omega)]

theorem readByte_writeBytes_outside (s : State) {a b : Nat} {l : List Byte}
    (h : b < a ∨ a + l.length ≤ b) : readByte (writeBytes s a l) b = readByte s b := by
  rw [readByte_writeBytes, if_neg (by omega)]

/-- A run below the hardware-register page reads back as it was written. -/
theorem readBytes_writeBytes (s : State) (a : Nat) (l : List Byte)
    (h : a + l.length ≤ hwregStart) : readBytes (writeBytes s a l) a l.length = l := by
  apply List.ext_getElem (by simp)
  intro k hk hk'
  simp only [readBytes, List.getElem_map, List.getElem_range', Nat.one_mul]
  rw [readByte_writeBytes, if_pos (by omega)]
  simp [hk']

theorem writeBytes_wf {s : State} (h : Memory.wf s.mem) (a : Nat) (l : List Byte) :
    Memory.wf (writeBytes s a l).mem := by
  induction l generalizing s a with
  | nil => exact h
  | cons v rest ih => exact ih (writeByte_wf h a v) (a + 1)

/-- Writing bytes changes the memory alone. -/
theorem writeBytes_eq (s : State) (a : Nat) (l : List Byte) :
    writeBytes s a l = { s with mem := (writeBytes s a l).mem } := by
  induction l generalizing s a with
  | nil => rfl
  | cons v rest ih =>
    have h : writeByte s a v = { s with mem := (writeByte s a v).mem } := by
      unfold writeByte; split <;> rfl
    rw [writeBytes, ih]
    rw [h]

/-! What `writeBytes` leaves alone. -/

@[simp] theorem writeBytes_a (s : State) (a : Nat) (l : List Byte) :
    (writeBytes s a l).a = s.a := by rw [writeBytes_eq]

@[simp] theorem writeBytes_b (s : State) (a : Nat) (l : List Byte) :
    (writeBytes s a l).b = s.b := by rw [writeBytes_eq]

@[simp] theorem writeBytes_c (s : State) (a : Nat) (l : List Byte) :
    (writeBytes s a l).c = s.c := by rw [writeBytes_eq]

@[simp] theorem writeBytes_d (s : State) (a : Nat) (l : List Byte) :
    (writeBytes s a l).d = s.d := by rw [writeBytes_eq]

@[simp] theorem writeBytes_flags (s : State) (a : Nat) (l : List Byte) :
    (writeBytes s a l).flags = s.flags := by rw [writeBytes_eq]

@[simp] theorem writeBytes_ime (s : State) (a : Nat) (l : List Byte) :
    (writeBytes s a l).ime = s.ime := by rw [writeBytes_eq]

@[simp] theorem writeBytes_ec (s : State) (a : Nat) (l : List Byte) :
    (writeBytes s a l).ec = s.ec := by rw [writeBytes_eq]

@[simp] theorem writeBytes_pc (s : State) (a : Nat) (l : List Byte) :
    (writeBytes s a l).pc = s.pc := by rw [writeBytes_eq]

@[simp] theorem writeBytes_sp (s : State) (a : Nat) (l : List Byte) :
    (writeBytes s a l).sp = s.sp := by rw [writeBytes_eq]

@[simp] theorem writeBytes_rp (s : State) (a : Nat) (l : List Byte) :
    (writeBytes s a l).rp = s.rp := by rw [writeBytes_eq]

@[simp] theorem writeBytes_ia (s : State) (a : Nat) (l : List Byte) :
    (writeBytes s a l).ia = s.ia := by rw [writeBytes_eq]

@[simp] theorem writeBytes_ma (s : State) (a : Nat) (l : List Byte) :
    (writeBytes s a l).ma = s.ma := by rw [writeBytes_eq]

@[simp] theorem writeBytes_md (s : State) (a : Nat) (l : List Byte) :
    (writeBytes s a l).md = s.md := by rw [writeBytes_eq]

@[simp] theorem writeBytes_ci (s : State) (a : Nat) (l : List Byte) :
    (writeBytes s a l).ci = s.ci := by rw [writeBytes_eq]

@[simp] theorem writeBytes_da (s : State) (a : Nat) (l : List Byte) :
    (writeBytes s a l).da = s.da := by rw [writeBytes_eq]

@[simp] theorem writeBytes_irq (s : State) (a : Nat) (l : List Byte) :
    (writeBytes s a l).irq = s.irq := by rw [writeBytes_eq]

@[simp] theorem writeBytes_platform (s : State) (a : Nat) (l : List Byte) :
    (writeBytes s a l).platform = s.platform := by rw [writeBytes_eq]

@[simp] theorem writeBytes_draws (s : State) (a : Nat) (l : List Byte) :
    (writeBytes s a l).draws = s.draws := by rw [writeBytes_eq]

@[simp] theorem writeBytes_long (s : State) (a : Nat) (l : List Byte) (r : Row) :
    (writeBytes s a l).long r = s.long r := by cases r <;> simp [State.long]

@[simp] theorem writeBytes_readReg (s : State) (a : Nat) (l : List Byte) (x : Reg) :
    readReg (writeBytes s a l) x = readReg s x := readReg_congr (by simp)

end Sys2Proof.Machine
end

