-- ==== Sys2Proof/Laws/Ops.lean ====
section
/-! SUPPORT. For each shared operation one lemma that says everything it can do (`…_cases`: if it answers,
then ...), and equations for when it answers. Later proofs cite these and do not unfold the operations. -/

namespace Sys2Proof.Machine

/-! ### Data accesses -/

/-- Everything a read can do: it does not run past the address space, the platform sees it, and it answers
the little-endian value. -/
theorem memRead_cases {s t : State} {addr v : Long} {n : Nat} (h : memRead s addr n = .ok (v, t)) :
    addr.toNat + n ≤ addrLimit ∧ t = notePlatformRead s (List.range' addr.toNat n) ∧
      v = valueSeen t (List.range' addr.toNat n) := by
  unfold memRead at h
  split at h
  · cases h
  · simp only [Except.ok.injEq, Prod.mk.injEq] at h
    exact ⟨by omega, h.2.symm, h.2 ▸ h.1.symm⟩

theorem memRead_of_le (s : State) {addr : Long} {n : Nat} (h : addr.toNat + n ≤ addrLimit) :
    memRead s addr n = .ok
      (valueSeen (notePlatformRead s (List.range' addr.toNat n)) (List.range' addr.toNat n),
        notePlatformRead s (List.range' addr.toNat n)) := by
  rw [memRead, if_neg (by omega)]

theorem memRead_of_lt (s : State) {addr : Long} {n : Nat} (h : addrLimit < addr.toNat + n) :
    memRead s addr n = .error .addressWrap := by
  rw [memRead, if_pos h]

/-- A one-byte read always answers. -/
theorem memRead_byte (s : State) (addr : Long) :
    memRead s addr 1 = .ok
      (valueSeen (notePlatformRead s [addr.toNat]) [addr.toNat],
        notePlatformRead s [addr.toNat]) :=
  memRead_of_le s (by have := addr.isLt; simp only [addrLimit]; omega)

/-- A read tells the platform and changes nothing else. -/
theorem notePlatformRead_eq (s : State) (l : List Nat) :
    notePlatformRead s l = { s with platform := (notePlatformRead s l).platform } := by
  unfold notePlatformRead; split <;> rfl

theorem notePlatformWrite_eq (s : State) (l : List Host.Cell) :
    notePlatformWrite s l = { s with platform := (notePlatformWrite s l).platform } := by
  unfold notePlatformWrite; split <;> rfl

/-- A read below the hardware-register page is not seen by the platform. -/
theorem notePlatformRead_of_le (s : State) {a n : Nat} (h : a + n ≤ hwregStart) :
    notePlatformRead s (List.range' a n) = s := by
  unfold notePlatformRead
  rw [if_neg]
  simp only [List.any_eq_true, List.mem_range', inHwPage,
    decide_eq_true_eq, not_exists, not_and]
  rintro _ ⟨k, hk, rfl⟩
  omega

/-- A write below the hardware-register page is not seen by the platform. -/
theorem notePlatformWrite_of_le (s : State) {a n : Nat} {l : List Byte} (h : a + n ≤ hwregStart) :
    notePlatformWrite s ((List.range' a n).zip l) = s := by
  unfold notePlatformWrite
  rw [if_neg]
  simp only [List.any_eq_true, inHwPage, decide_eq_true_eq, not_exists,
    not_and]
  rintro ⟨b, v⟩ hb
  obtain ⟨k, hk, rfl⟩ := List.mem_range'.1 (List.of_mem_zip hb).1
  simp only
  omega

/-- The value of an access below the hardware-register page is that of the bytes in memory. -/
theorem valueSeen_of_le (s : State) {a n : Nat} (h : a + n ≤ hwregStart) :
    valueSeen s (List.range' a n) = BitVec.ofNat 32 (littleEndian (readBytes s a n)) := by
  rw [valueSeen, readBytes]
  congr 2
  refine List.map_congr_left fun b hb => ?_
  obtain ⟨k, hk, rfl⟩ := List.mem_range'.1 hb
  simp only [byteSeen, inHwPage, decide_eq_true_eq]
  rw [if_neg (by omega)]

/-- A read below the hardware-register page: the bytes in memory, and no change at all. -/
theorem memRead_below_page (s : State) {addr : Long} {n : Nat}
    (h : addr.toNat + n ≤ hwregStart) :
    memRead s addr n =
      .ok (BitVec.ofNat 32 (littleEndian (readBytes s addr.toNat n)), s) := by
  rw [memRead_of_le s (by simp only [addrLimit, hwregStart] at *; omega),
    notePlatformRead_of_le s h, valueSeen_of_le s h]

/-- Everything a write can do: it touches neither ROM nor the end of the address space, the platform sees
it, and the bytes are stored. -/
theorem memWrite_cases {s t : State} {addr v : Long} {n : Nat} (h : memWrite s addr n v = .ok t) :
    addr.toNat + n ≤ addrLimit ∧ romLimit ≤ addr.toNat ∧
      t = writeBytes (notePlatformWrite s ((List.range' addr.toNat n).zip (leBytes v.toNat n)))
        addr.toNat (leBytes v.toNat n) := by
  unfold memWrite at h
  split at h
  · cases h
  · split at h
    · cases h
    · simp only [Except.ok.injEq] at h
      exact ⟨by omega, by omega, h.symm⟩

theorem memWrite_of_le (s : State) {addr v : Long} {n : Nat} (h : addr.toNat + n ≤ addrLimit)
    (hr : romLimit ≤ addr.toNat) :
    memWrite s addr n v = .ok
      (writeBytes (notePlatformWrite s ((List.range' addr.toNat n).zip (leBytes v.toNat n)))
        addr.toNat (leBytes v.toNat n)) := by
  rw [memWrite, if_neg (by omega), if_neg (by omega)]

/-- A write below the hardware-register page stores the bytes and changes nothing else. -/
theorem memWrite_below_page (s : State) {addr v : Long} {n : Nat}
    (h : addr.toNat + n ≤ hwregStart) (hr : romLimit ≤ addr.toNat) :
    memWrite s addr n v = .ok (writeBytes s addr.toNat (leBytes v.toNat n)) := by
  rw [memWrite_of_le s (by simp only [addrLimit, hwregStart] at *; omega) hr,
    notePlatformWrite_of_le s h]

theorem memWrite_wrap (s : State) {addr v : Long} {n : Nat} (h : addrLimit < addr.toNat + n) :
    memWrite s addr n v = .error .addressWrap := by
  rw [memWrite, if_pos h]

theorem memWrite_rom (s : State) {addr v : Long} {n : Nat} (h : addr.toNat + n ≤ addrLimit)
    (hr : addr.toNat < romLimit) : memWrite s addr n v = .error .romWrite := by
  rw [memWrite, if_neg (by omega), if_pos hr]

/-- A write changes memory and what the platform has seen, and nothing else. -/
theorem memWrite_frame {s t : State} {addr v : Long} {n : Nat} (h : memWrite s addr n v = .ok t) :
    t = { s with mem := t.mem, platform := t.platform } := by
  obtain ⟨-, -, rfl⟩ := memWrite_cases h
  rw [writeBytes_eq, notePlatformWrite_eq]

theorem memWrite_wf {s t : State} {addr v : Long} {n : Nat} (h : memWrite s addr n v = .ok t)
    (hs : Memory.wf s.mem) : Memory.wf t.mem := by
  obtain ⟨-, -, rfl⟩ := memWrite_cases h
  exact writeBytes_wf (by simpa using hs) _ _

/-! ### The two stacks -/

/-- The memory address of the general stack's top does not wrap (R33, R69). -/
theorem stackAddr_toNat (p : Word) : (stackAddr p).toNat = 0xFFFD0000 + p.toNat := by
  have := p.isLt
  simp [stackAddr, stackBase]
  omega

/-- The memory address of the call stack's top does not wrap (R34, R69). -/
theorem callStackAddr_toNat (p : Word) : (callStackAddr p).toNat = 0xFFFE0000 + p.toNat := by
  have := p.isLt
  simp [callStackAddr, callStackBase]
  omega

theorem word_sub_four {p : Word} (h : 4 ≤ p.toNat) : (p - 4).toNat = p.toNat - 4 := by
  have := p.isLt
  simp [BitVec.toNat_sub]
  omega

/-- Everything a push on the general stack can do (R70). -/
theorem pushData_cases {s t : State} {v : Long} (h : pushData s v = .ok t) :
    4 ≤ s.sp.toNat ∧
      t = writeBytes { s with sp := s.sp - 4 } (0xFFFD0000 + (s.sp.toNat - 4))
        (leBytes v.toNat 4) := by
  unfold pushData at h
  split at h
  · cases h
  · have h4 : 4 ≤ s.sp.toNat := by omega
    have ha : (stackAddr (s.sp - 4)).toNat = 0xFFFD0000 + (s.sp.toNat - 4) := by
      rw [stackAddr_toNat, word_sub_four h4]
    have := s.sp.isLt
    rw [memWrite_below_page _ (by simp only [ha, hwregStart]; omega)
      (by simp only [ha, romLimit]; omega), ha] at h
    exact ⟨h4, (Except.ok.inj h).symm⟩

theorem pushData_of_le (s : State) (v : Long) (h4 : 4 ≤ s.sp.toNat) :
    pushData s v = .ok (writeBytes { s with sp := s.sp - 4 } (0xFFFD0000 + (s.sp.toNat - 4))
      (leBytes v.toNat 4)) := by
  have ha : (stackAddr (s.sp - 4)).toNat = 0xFFFD0000 + (s.sp.toNat - 4) := by
    rw [stackAddr_toNat, word_sub_four h4]
  have := s.sp.isLt
  rw [pushData, if_neg (by omega), memWrite_below_page _ (by simp only [ha, hwregStart]; omega)
    (by simp only [ha, romLimit]; omega), ha]

/-- Everything a push on the call stack can do (R71). -/
theorem pushCall_cases {s t : State} {v : Long} (h : pushCall s v = .ok t) :
    4 ≤ s.rp.toNat ∧
      t = writeBytes { s with rp := s.rp - 4 } (0xFFFE0000 + (s.rp.toNat - 4))
        (leBytes v.toNat 4) := by
  unfold pushCall at h
  split at h
  · cases h
  · have h4 : 4 ≤ s.rp.toNat := by omega
    have ha : (callStackAddr (s.rp - 4)).toNat = 0xFFFE0000 + (s.rp.toNat - 4) := by
      rw [callStackAddr_toNat, word_sub_four h4]
    have := s.rp.isLt
    rw [memWrite_below_page _ (by simp only [ha, hwregStart]; omega)
      (by simp only [ha, romLimit]; omega), ha] at h
    exact ⟨h4, (Except.ok.inj h).symm⟩

theorem pushCall_of_le (s : State) (v : Long) (h4 : 4 ≤ s.rp.toNat) :
    pushCall s v = .ok (writeBytes { s with rp := s.rp - 4 } (0xFFFE0000 + (s.rp.toNat - 4))
      (leBytes v.toNat 4)) := by
  have ha : (callStackAddr (s.rp - 4)).toNat = 0xFFFE0000 + (s.rp.toNat - 4) := by
    rw [callStackAddr_toNat, word_sub_four h4]
  have := s.rp.isLt
  rw [pushCall, if_neg (by omega), memWrite_below_page _ (by simp only [ha, hwregStart]; omega)
    (by simp only [ha, romLimit]; omega), ha]

/-- Everything a pop of the general stack can do (R70). -/
theorem popData_cases {s t : State} {v : Long} (h : popData s = .ok (v, t)) :
    s.sp ≠ emptyPointer ∧ t = { s with sp := s.sp + 4 } ∧
      v = BitVec.ofNat 32 (littleEndian (readBytes s (0xFFFD0000 + s.sp.toNat) 4)) := by
  unfold popData at h
  split at h
  · cases h
  · have := s.sp.isLt
    rw [memRead_below_page _ (by simp only [stackAddr_toNat, hwregStart]; omega),
      stackAddr_toNat] at h
    simp only [Except.ok.injEq, Prod.mk.injEq] at h
    exact ⟨by assumption, h.2.symm, h.1.symm⟩

theorem popData_of_ne (s : State) (h : s.sp ≠ emptyPointer) :
    popData s = .ok (BitVec.ofNat 32 (littleEndian (readBytes s (0xFFFD0000 + s.sp.toNat) 4)),
      { s with sp := s.sp + 4 }) := by
  have := s.sp.isLt
  rw [popData, if_neg h, memRead_below_page _ (by simp only [stackAddr_toNat, hwregStart]; omega),
    stackAddr_toNat]

/-- A pop of the call stack (R71); the callers have checked that it is not empty. -/
theorem popCall_eq (s : State) :
    popCall s = .ok (BitVec.ofNat 32 (littleEndian (readBytes s (0xFFFE0000 + s.rp.toNat) 4)),
      { s with rp := s.rp + 4 }) := by
  have := s.rp.isLt
  rw [popCall, memRead_below_page _ (by simp only [callStackAddr_toNat, hwregStart]; omega),
    callStackAddr_toNat]

/-! ### Calls, interrupts, returns -/

/-- Everything a call can do (R184, R185). -/
theorem callTo_cases {s t : State} {target : Long} (h : callTo s target = .ok t) :
    4 ≤ s.rp.toNat ∧
      t = { writeBytes { s with rp := s.rp - 4 } (0xFFFE0000 + (s.rp.toNat - 4))
        (leBytes s.pc.toNat 4) with pc := target } := by
  unfold callTo at h
  split at h
  · cases h
  · obtain ⟨h4, rfl⟩ := pushCall_cases ‹_›
    exact ⟨h4, (Except.ok.inj h).symm⟩

theorem callTo_of_le (s : State) (target : Long) (h4 : 4 ≤ s.rp.toNat) :
    callTo s target = .ok { writeBytes { s with rp := s.rp - 4 }
      (0xFFFE0000 + (s.rp.toNat - 4)) (leBytes s.pc.toNat 4) with pc := target } := by
  rw [callTo, pushCall_of_le s _ h4]

theorem callTo_of_lt (s : State) (target : Long) (h : s.rp.toNat < 4) :
    callTo s target = .error .callStackFull := by
  rw [callTo, pushCall, if_pos h]

/-- Everything an interrupt entry can do (R307). -/
theorem takeInterrupt_cases {n : InterruptNumber} {s t : State} (h : takeInterrupt n s = .ok t) :
    4 ≤ s.rp.toNat ∧
      t = { writeBytes { s with rp := s.rp - 4, ime := false } (0xFFFE0000 + (s.rp.toNat - 4))
          (leBytes s.pc.toNat 4) with
        pc := interruptVector n
        platform := .ack n :: s.platform } := by
  unfold takeInterrupt at h
  split at h
  · cases h
  · obtain ⟨h4, rfl⟩ := callTo_cases ‹_›
    refine ⟨h4, ?_⟩
    rw [← Except.ok.inj h, tellPlatform]
    simp

theorem takeInterrupt_of_le (n : InterruptNumber) (s : State) (h4 : 4 ≤ s.rp.toNat) :
    takeInterrupt n s = .ok
      { writeBytes { s with rp := s.rp - 4, ime := false } (0xFFFE0000 + (s.rp.toNat - 4))
          (leBytes s.pc.toNat 4) with
        pc := interruptVector n
        platform := .ack n :: s.platform } := by
  have := callTo_of_le { s with ime := false } (interruptVector n) h4
  rw [takeInterrupt, this]
  simp [tellPlatform]

/-- Everything a return can do (R186, R187): it stops the CPU or comes back. It always answers. -/
theorem returnFromCall_eq (s : State) :
    returnFromCall s = .ok (if s.rp = emptyPointer then stopWith s 0x00 else
      { s with
        rp := s.rp + 4
        pc := BitVec.ofNat 32 (littleEndian (readBytes s (0xFFFE0000 + s.rp.toNat) 4)) }) := by
  unfold returnFromCall callStackEmpty
  by_cases h : s.rp = emptyPointer
  · simp [h]
  · simp [h, popCall_eq]

/-! ### Pending interrupts and the prologue -/

/-- Nothing is lowest exactly if nothing is pending. -/
theorem lowestPending_eq_none {l : List InterruptNumber} : lowestPending l = none ↔ l = [] := by
  cases l with
  | nil => simp [lowestPending]
  | cons n rest =>
    simp only [lowestPending, reduceCtorEq, iff_false]
    split
    · simp
    · split <;> simp

/-- The lowest pending interrupt is pending and is the least (R307). -/
theorem lowestPending_eq_some {l : List InterruptNumber} {n : InterruptNumber} :
    lowestPending l = some n ↔ n ∈ l ∧ ∀ m ∈ l, n ≤ m := by
  induction l generalizing n with
  | nil => simp [lowestPending]
  | cons k rest ih =>
    simp only [lowestPending]
    cases h : lowestPending rest with
    | none =>
      rw [lowestPending_eq_none] at h
      subst h
      simp only [Option.some.injEq, List.mem_singleton, forall_eq]
      constructor
      · rintro rfl; exact ⟨rfl, le_refl _⟩
      · exact fun h => h.1.symm
    | some m =>
      obtain ⟨hm, hl⟩ := ih.1 h
      simp only [List.mem_cons, forall_eq_or_imp]
      by_cases hkm : k ≤ m
      · simp only [hkm, if_true, Option.some.injEq]
        constructor
        · rintro rfl
          exact ⟨.inl rfl, le_refl _, fun j hj => le_trans hkm (hl j hj)⟩
        · rintro ⟨h1 | h1, h2, h3⟩
          · exact h1.symm
          · exact le_antisymm (le_trans hkm (hl n h1)) h2
      · simp only [hkm, if_false, Option.some.injEq]
        have hmk : m ≤ k := le_of_lt (not_le.1 hkm)
        constructor
        · rintro rfl
          exact ⟨.inr hm, hmk, hl⟩
        · rintro ⟨h1 | h1, h2, h3⟩
          · subst h1; exact absurd (h3 m hm) hkm
          · exact le_antisymm (hl n h1) (h3 m hm)

/-- The state in which a step that does not wait goes on: sampled, and not halted (R311). -/
theorem prologue_run {s : State} (hs : s.flags.s = false) (hl : s.flags.l = true → pendingNow s ≠ [])
    (hi : s.ime = true → pendingNow s = []) :
    prologue s = .run { s with irq := s.irq.tail, flags := { s.flags with l := false } } := by
  unfold prologue
  rw [if_neg (by simp [hs]), if_neg]
  · cases h : lowestPending (pendingNow s) with
    | none => rfl
    | some n =>
      have hne : pendingNow s ≠ [] := fun h0 => by
        rw [lowestPending_eq_none.2 h0] at h
        cases h
      have : s.ime = false := by
        cases hime : s.ime with
        | false => rfl
        | true => exact absurd (hi hime) hne
      simp [this, afterSample]
  · simp only [Bool.and_eq_true, List.isEmpty_iff, not_and]
    exact hl

/-- Everything the prologue can decide (R311). -/
theorem prologue_cases (s : State) :
    (s.flags.s = true ∧ prologue s = .wait s) ∨
    (s.flags.s = false ∧ s.flags.l = true ∧ pendingNow s = [] ∧
      prologue s = .wait { s with irq := s.irq.tail }) ∨
    (s.flags.s = false ∧ s.ime = true ∧
      ∃ n, n ∈ pendingNow s ∧ (∀ m ∈ pendingNow s, n ≤ m) ∧
        prologue s = .interrupt n
          { s with irq := s.irq.tail, flags := { s.flags with l := false } }) ∨
    (s.flags.s = false ∧ (s.flags.l = true → pendingNow s ≠ []) ∧
      (s.ime = true → pendingNow s = []) ∧
      prologue s = .run { s with irq := s.irq.tail, flags := { s.flags with l := false } }) := by
  cases hs : s.flags.s with
  | true => exact .inl ⟨rfl, by simp [prologue, hs]⟩
  | false =>
    right
    by_cases hp : pendingNow s = []
    · cases hl : s.flags.l with
      | true => exact .inl ⟨rfl, rfl, hp, by simp [prologue, hs, hl, hp, afterSample]⟩
      | false =>
        exact .inr <| .inr ⟨rfl, by simp, fun _ => hp,
          prologue_run hs (by simp [hl]) fun _ => hp⟩
    · right
      by_cases hi : s.ime = true
      · left
        cases h : lowestPending (pendingNow s) with
        | none => exact absurd (lowestPending_eq_none.1 h) hp
        | some n =>
          obtain ⟨h1, h2⟩ := lowestPending_eq_some.1 h
          exact ⟨rfl, hi, n, h1, h2, by simp [prologue, hs, hp, hi, h, afterSample]⟩
      · exact .inr ⟨rfl, fun _ => hp, fun h => absurd h hi,
          prologue_run hs (fun _ => hp) fun h => absurd h hi⟩

/-! ### Fetch -/

/-- The executable addresses in numbers: ROM and XRAM (R63, R64). -/
theorem executable_iff (a : Nat) :
    executable a = true ↔ a < 0x80000000 ∨ (0xC0000000 ≤ a ∧ a ≤ 0xFFFCFFFF) := by
  simp only [executable, Bool.or_eq_true, Bool.and_eq_true, decide_eq_true_eq]
  simp only [romLimit, xramStart, xramLimit]
  omega

/-- A fetch meets no fault exactly if every byte may be executed (R84). -/
theorem fetchFault_eq_none {a n : Nat} :
    fetchFault a n = none ↔ ∀ k, k < n → a + k < addrLimit ∧ executable (a + k) = true := by
  induction n generalizing a with
  | zero => simp [fetchFault]
  | succ n ih =>
    rw [fetchFault]
    constructor
    · intro h
      split at h
      · cases h
      · split at h
        · intro k hk
          cases k with
          | zero => exact ⟨by omega, ‹_›⟩
          | succ k => rw [show a + (k + 1) = a + 1 + k by omega]; exact ih.1 h k (by omega)
        · cases h
    · intro h
      have h0 := h 0 (by omega)
      rw [if_neg (by omega), if_pos (by simpa using h0.2)]
      refine ih.2 fun k hk => ?_
      rw [show a + 1 + k = a + (k + 1) by omega]
      exact h (k + 1) (by omega)

/-- A fetch that stays inside the address space and takes a byte that is not executable faults by that name
(R84). -/
theorem fetchFault_of_not_executable {a n k : Nat} (hn : a + n ≤ addrLimit) (hk : k < n)
    (hx : executable (a + k) = false) : fetchFault a n = some .fetchNotExecutable := by
  induction n generalizing a k with
  | zero => omega
  | succ n ih =>
    rw [fetchFault, if_neg (by omega)]
    split
    · rename_i h0
      cases k with
      | zero => simp_all
      | succ k => exact ih (by omega) (show k < n by omega) (by rwa [Nat.add_right_comm, Nat.add_assoc])
    · rfl

/-- Everything a fetch of bytes can do (R84). -/
theorem fetchBytes_cases {n : Nat} {s t : State} {l : List Byte} (h : fetchBytes n s = .ok (l, t)) :
    fetchFault s.pc.toNat n = none ∧ l = readBytes s s.pc.toNat n ∧
      t = { s with pc := s.pc + BitVec.ofNat 32 n } := by
  unfold fetchBytes at h
  split at h
  · cases h
  · simp only [Except.ok.injEq, Prod.mk.injEq] at h
    exact ⟨by assumption, h.1.symm, h.2.symm⟩

theorem fetchBytes_of_none {n : Nat} {s : State} (h : fetchFault s.pc.toNat n = none) :
    fetchBytes n s = .ok (readBytes s s.pc.toNat n, { s with pc := s.pc + BitVec.ofNat 32 n }) := by
  rw [fetchBytes, h]

theorem fetchBytes_of_fault {n : Nat} {s : State} {e : Fault}
    (h : fetchFault s.pc.toNat n = some e) : fetchBytes n s = .error e := by
  rw [fetchBytes, h]

/-- Everything a fetch can do (R84). -/
theorem fetch_cases {n : Nat} {s t : State} {v : Nat} (h : fetch n s = .ok (v, t)) :
    fetchFault s.pc.toNat n = none ∧ v = littleEndian (readBytes s s.pc.toNat n) ∧
      t = { s with pc := s.pc + BitVec.ofNat 32 n } := by
  unfold fetch at h
  split at h
  · cases h
  · obtain ⟨h1, rfl, rfl⟩ := fetchBytes_cases ‹_›
    simp only [Except.ok.injEq, Prod.mk.injEq] at h
    exact ⟨h1, h.1.symm, h.2.symm⟩

theorem fetch_of_none {n : Nat} {s : State} (h : fetchFault s.pc.toNat n = none) :
    fetch n s = .ok (littleEndian (readBytes s s.pc.toNat n),
      { s with pc := s.pc + BitVec.ofNat 32 n }) := by
  rw [fetch, fetchBytes_of_none h]

/-- The opcode word that a fetch reads (R101). -/
theorem fetchedWord (s : State) (a : Nat) :
    BitVec.ofNat 16 (littleEndian (readBytes s a 2)) = readByte s (a + 1) ++ readByte s a :=
  littleEndian_pair _ _

/-- Everything the fetch of an opcode can do (R84, R35, R38). -/
theorem fetchOpcode_cases {s t : State} {w : Word} (h : fetchOpcode s = .ok (w, t)) :
    fetchFault s.pc.toNat 2 = none ∧
      w = readByte s (s.pc.toNat + 1) ++ readByte s s.pc.toNat ∧
      t = { s with ia := s.pc, pc := s.pc + 2, ci := w } := by
  unfold fetchOpcode at h
  split at h
  · cases h
  · obtain ⟨h1, h2, rfl⟩ := fetch_cases ‹_›
    simp only [Except.ok.injEq, Prod.mk.injEq] at h
    obtain ⟨rfl, rfl⟩ := h
    subst h2
    exact ⟨h1, fetchedWord _ _, rfl⟩

theorem fetchOpcode_of_none {s : State} (h : fetchFault s.pc.toNat 2 = none) :
    fetchOpcode s = .ok (readByte s (s.pc.toNat + 1) ++ readByte s s.pc.toNat,
      { s with
        ia := s.pc
        pc := s.pc + 2
        ci := readByte s (s.pc.toNat + 1) ++ readByte s s.pc.toNat }) := by
  have h' : fetchFault ({ s with ia := s.pc } : State).pc.toNat 2 = none := h
  rw [fetchOpcode, fetch_of_none h']
  simp only [fetchedWord]
  rfl

/-- Everything the fetch of an instruction can do: the instruction is decoded from the word and the bytes
after it, and the state differs in `PC`, `IA`, `CI` and the four fields that `drawInternals` writes. -/
theorem fetchInstr_cases {s t : State} {i : Instr} (h : fetchInstr s = .ok (i, t)) :
    ∃ d, decodeWord (readByte s (s.pc.toNat + 1) ++ readByte s s.pc.toNat) = .ok d ∧
      fetchFault s.pc.toNat 2 = none ∧ fetchFault (s.pc + 2).toNat d.immBytes = none ∧
      i = d.build (readBytes s (s.pc + 2).toNat d.immBytes) ∧
      t = drawInternals
        { s with
          ia := s.pc
          ci := readByte s (s.pc.toNat + 1) ++ readByte s s.pc.toNat
          pc := s.pc + 2 + BitVec.ofNat 32 d.immBytes } := by
  unfold fetchInstr at h
  split at h
  · cases h
  · obtain ⟨h1, h2, rfl⟩ := fetchOpcode_cases ‹_›
    split at h
    · cases h
    · rename_i d hd
      split at h
      · cases h
      · obtain ⟨h3, h4, rfl⟩ := fetchBytes_cases ‹_›
        simp only [Except.ok.injEq, Prod.mk.injEq] at h
        obtain ⟨rfl, rfl⟩ := h
        subst h2 h4
        refine ⟨d, hd, h1, h3, ?_, rfl⟩
        exact congrArg d.build (readBytes_of_mem (by rfl) _ _)

/-! ### Operand forms -/

/-- Everything a load can do (R161 to R164). -/
theorem load_cases {s t : State} {x : Reg} {addr : Long} (h : load s x addr = .ok t) :
    ∃ v s', memRead s addr x.width.bytes = .ok (v, s') ∧ t = writeReg s' x v := by
  unfold load at h
  split at h
  · cases h
  · exact ⟨_, _, ‹_›, (Except.ok.inj h).symm⟩

/-- Everything the `X, [Y]` form can do (R202). -/
theorem withMemoryOperand_cases {s t : State} {x y : Reg} {k : State → Reg → Long → State}
    (h : withMemoryOperand s x y k = .ok t) :
    ∃ v s', memRead s (readReg s y) x.width.bytes = .ok (v, s') ∧ t = k s' x v := by
  unfold withMemoryOperand pointer at h
  split at h
  · cases h
  · exact ⟨_, _, ‹_›, (Except.ok.inj h).symm⟩

/-- Everything the memory form of a one-operand instruction can do (R265): it reads a byte, and writes the
result to the same address. -/
theorem modifyMem_cases {s t : State} {addr : Long} {op : UnaryOp}
    (h : modifyMem s addr op = .ok t) :
    ∃ v s' s'', memRead s addr 1 = .ok (v, s') ∧
      memWrite s' addr 1 (op v s.flags).1 = .ok s'' ∧
      t = { s'' with flags := (op v s.flags).2 } := by
  unfold modifyMem at h
  split at h
  · cases h
  · rename_i v s' hr
    have hf : s'.flags = s.flags := by
      obtain ⟨-, rfl, -⟩ := memRead_cases hr
      simp
    split at h
    · cases h
    · rw [hf] at *
      exact ⟨_, _, _, hr, ‹_›, (Except.ok.inj h).symm⟩

/-- Everything the bit-number check can do (R280). -/
theorem withBit_cases {b : Byte} {w : Width} {r : Except Fault State} {t : State}
    (h : withBit b w r = .ok t) : b.toNat < w.bits ∧ r = .ok t := by
  unfold withBit at h
  split at h
  · cases h
  · exact ⟨by omega, h⟩

theorem withBit_of_lt {b : Byte} {w : Width} (r : Except Fault State) (h : b.toNat < w.bits) :
    withBit b w r = r := by
  rw [withBit, if_neg (by omega)]

theorem withBit_of_le {b : Byte} {w : Width} (r : Except Fault State) (h : w.bits ≤ b.toNat) :
    withBit b w r = .error .bitIndexRange := by
  rw [withBit, if_pos h]

/-! ### Outcomes -/

@[simp] theorem settle_ok (s : State) : settle (.ok s) = .next s := rfl

@[simp] theorem settle_error (e : Fault) : settle (.error e) = .fault e := rfl

theorem settle_eq_next {r : Except Fault State} {t : State} : settle r = .next t ↔ r = .ok t := by
  cases r <;> simp [settle]

/-! ### The step -/

/-- Everything a step can do (R311): nothing, a sample, an interrupt entry, or an instruction. -/
theorem step_cases {s t : State} (h : step s = .next t) :
    (s.flags.s = true ∧ t = s) ∨
    (s.flags.s = false ∧ s.flags.l = true ∧ pendingNow s = [] ∧
      t = { s with irq := s.irq.tail }) ∨
    (s.flags.s = false ∧ s.ime = true ∧ ∃ n, n ∈ pendingNow s ∧
      takeInterrupt n { s with irq := s.irq.tail, flags := { s.flags with l := false } } = .ok t) ∨
    (s.flags.s = false ∧ ∃ i s',
      fetchInstr { s with irq := s.irq.tail, flags := { s.flags with l := false } } = .ok (i, s') ∧
      exec i s' = .next t) := by
  unfold step at h
  rcases prologue_cases s with ⟨hs, hp⟩ | ⟨hs, hl, he, hp⟩ | ⟨hs, hi, n, hn, -, hp⟩ | ⟨hs, -, -, hp⟩
  · rw [hp] at h
    exact .inl ⟨hs, (Host.Outcome.next.inj h).symm⟩
  · rw [hp] at h
    exact .inr <| .inl ⟨hs, hl, he, (Host.Outcome.next.inj h).symm⟩
  · rw [hp] at h
    exact .inr <| .inr <| .inl ⟨hs, hi, n, hn, settle_eq_next.1 h⟩
  · rw [hp] at h
    refine .inr <| .inr <| .inr ⟨hs, ?_⟩
    simp only at h
    split at h
    · cases h
    · exact ⟨_, _, ‹_›, h⟩

end Sys2Proof.Machine
end

