-- ==== Sys2Proof/Laws/Access.lean ====
section
/-! SUPPORT. What a data access does, in the words of Sys2Proof/Safety.lean: the value it reads, the bytes
it stores, what the platform sees, and the frame of each. -/

namespace Sys2Proof.Machine

/-- An access of at least one byte touches the hardware-register page exactly if it ends in it. -/
theorem any_inHwPage (a : Nat) {n : Nat} (hn : 0 < n) :
    (List.range' a n).any inHwPage = decide (hwregStart < a + n) := by
  rw [Bool.eq_iff_iff]
  simp only [List.any_eq_true, List.mem_range', inHwPage, decide_eq_true_eq]
  constructor
  · rintro ⟨_, ⟨k, hk, rfl⟩, h⟩
    omega
  · intro h
    exact ⟨a + 1 * (n - 1), ⟨n - 1, by omega, rfl⟩, by omega⟩

theorem inHwPage_eq : inHwPage = fun k => decide (hwregStart ≤ k) := rfl

/-- What a read sees and what the platform sees of it (R62, R76). -/
theorem valueRead_valueSeen (s : State) (a : Nat) {n : Nat} (hn : 0 < n) :
    valueRead a n (valueSeen (notePlatformRead s (List.range' a n)) (List.range' a n)) s
      (notePlatformRead s (List.range' a n)) := by
  constructor
  · unfold notePlatformRead
    rw [any_inHwPage a hn]
    by_cases h : hwregStart < a + n
    · simp [h, inHwPage_eq]
    · simp [h]
  · unfold valueSeen
    congr 3
    funext k
    simp only [byteSeen, inHwPage, decide_eq_true_eq, notePlatformRead_draws]
    rw [readByte_congr (t := notePlatformRead s _) (s := s) (by simp)]

theorem sameExcept_notePlatformRead (s : State) (l : List Nat) :
    sameExcept [.platform] s (notePlatformRead s l) := by
  rw [notePlatformRead_eq, sameExcept_iff]
  simp
  exact ⟨fun r => by cases r <;> rfl, fun a => rfl⟩

/-- What a write stores and what the platform sees of it (R62, R76). -/
theorem valueStored_writeBytes (s : State) (a : Nat) {n : Nat} (v : Long) (hn : 0 < n) :
    valueStored a n v s (writeBytes
      (notePlatformWrite s ((List.range' a n).zip (leBytes v.toNat n))) a (leBytes v.toNat n)) := by
  refine ⟨fun k hk hlt => ?_, fun k hk => ?_, ?_⟩
  · rw [readByte_writeBytes, if_pos (by simp; omega), Nat.add_sub_cancel_left, leBytes_long]
    simp [hk]
  · rw [readByte_writeBytes_outside _ (by simpa using hk)]
    exact readByte_congr (by simp) k
  · rw [writeBytes_platform]
    unfold notePlatformWrite
    have h : ((List.range' a n).zip (leBytes v.toNat n)).any (fun p => inHwPage p.1) =
        (List.range' a n).any inHwPage := by
      have h1 := List.any_map (f := fun p : Host.Cell => p.1) (p := inHwPage)
        (l := (List.range' a n).zip (leBytes v.toNat n))
      have h2 : List.map (fun p : Host.Cell => p.1)
          ((List.range' a n).zip (leBytes v.toNat n)) = List.range' a n :=
        List.map_fst_zip (by simp)
      rw [h2] at h1
      exact h1.symm
    rw [h, any_inHwPage a hn, leBytes_long]
    by_cases h : hwregStart < a + n
    · simp [h, inHwPage_eq]
    · simp [h]

theorem sameExcept_stored (s : State) (cells : List Host.Cell) (a : Nat) (l : List Byte) :
    sameExcept [.mem, .platform] s (writeBytes (notePlatformWrite s cells) a l) := by
  rw [writeBytes_eq, notePlatformWrite_eq, sameExcept_iff]
  simp
  exact fun r => by cases r <;> rfl

/-- The four bytes of a long that a push stores (R70, R71). -/
theorem readByte_pushed (s : State) {a k : Nat} (v : Long) (ha : a + 4 ≤ hwregStart) (hk : k < 4) :
    readByte (writeBytes s a (leBytes v.toNat 4)) (a + k) = v.extractLsb' (8 * k) 8 := by
  rw [readByte_writeBytes, if_pos (by simp; omega), Nat.add_sub_cancel_left, leBytes_long]
  simp [hk]

theorem sameMemoryOutside_writeBytes (s : State) (a : Nat) (l : List Byte) :
    sameMemoryOutside a l.length s (writeBytes s a l) :=
  fun _ hk => readByte_writeBytes_outside s hk

/-- Any access of at least one byte whose width is a register's or a long's is at most four bytes. -/
theorem width_bytes_pos (w : Width) : 0 < w.bytes := by cases w <;> decide

theorem width_bits_eq (w : Width) : w.bits = 8 * w.bytes := by cases w <;> rfl

/-- A value that an access of `n` bytes reads has `8 * n` bits. -/
theorem valueSeen_lt (s : State) (a n : Nat) :
    (valueSeen s (List.range' a n)).toNat < 2 ^ (8 * n) := by
  have h := littleEndian_lt ((List.range' a n).map (byteSeen s))
  rw [List.length_map, List.length_range', show 256 = 2 ^ 8 from rfl, ← Nat.pow_mul] at h
  rw [valueSeen, BitVec.toNat_ofNat]
  exact Nat.lt_of_le_of_lt (Nat.mod_le _ _) h

/-- The value that a memory operand of register width has (R202). -/
theorem memRead_lt {s t : State} {addr v : Long} {n : Nat} (h : memRead s addr n = .ok (v, t)) :
    v.toNat < 2 ^ (8 * n) := by
  obtain ⟨-, -, rfl⟩ := memRead_cases h
  exact valueSeen_lt _ _ _

/-! ### Shapes of instructions -/

/-- A two-operand instruction with its second operand read: the register, the flags, the frame (R202). -/
theorem accumulate_spec (op : BinaryOp) (s : State) (x : Reg) (b : Long) :
    regBecomes x (truncTo x.width (op x.width (readReg s x) b s.flags).1) s (accumulate op s x b) ∧
      sameExcept (.long x.row :: .l :: .s :: arithmeticFlags) s (accumulate op s x b) := by
  constructor
  · exact regBecomes_congr (s := s) (fun _ => rfl) (fun r => by cases r <;> rfl)
      (regBecomes_writeReg s x _)
  · rw [sameExcept_iff]
    simp [arithmeticFlags]
    refine ⟨fun r hr => ?_, fun a => readByte_congr (by simp) a⟩
    exact (by cases r <;> rfl : (accumulate op s x b).long r = (writeReg s x _).long r).trans
      (writeReg_long_ne s x _ hr)

/-- A one-operand instruction on a register: the register, the flags, the frame (R265). -/
theorem modifyReg_spec (s : State) (x : Reg) (op : UnaryOp) :
    regBecomes x (truncTo x.width (op (readReg s x) s.flags).1) s (modifyReg s x op) ∧
      sameExcept (.long x.row :: .l :: .s :: arithmeticFlags) s (modifyReg s x op) := by
  constructor
  · exact regBecomes_congr (s := s) (fun _ => rfl) (fun r => by cases r <;> rfl)
      (regBecomes_writeReg s x _)
  · rw [sameExcept_iff]
    simp [arithmeticFlags]
    refine ⟨fun r hr => ?_, fun a => readByte_congr (by simp) a⟩
    exact (by cases r <;> rfl : (modifyReg s x op).long r = (writeReg s x _).long r).trans
      (writeReg_long_ne s x _ hr)

/-- A register form whose register and flags are written again leaves nothing of itself. -/
theorem modifyReg_overwritten (s : State) (x : Reg) (op : UnaryOp) (v : Long) (f : Flags) :
    { writeReg (modifyReg s x op) x v with flags := f } = { writeReg s x v with flags := f } := by
  have h : writeReg (modifyReg s x op) x v =
      { writeReg (writeReg s x (op (readReg s x) s.flags).1) x v with
        flags := (op (readReg s x) s.flags).2 } := by
    rcases x with ⟨row, part⟩
    cases row <;> rfl
  rw [h, writeReg_writeReg]

@[simp] theorem execTimes_zero (i : Instr) (s : State) : execTimes i 0 s = .next s := rfl

/-- One more application of an instruction that completes. -/
theorem execTimes_succ {i : Instr} {s t : State} (n : Nat) (h : exec i s = .next t) :
    execTimes i (n + 1) s = execTimes i n t := by
  rw [execTimes, h]

/-- A one-operand instruction on a register, applied `n` times: its operation is iterated on the register and
the flags (R265). -/
theorem execTimes_modifyReg {i : Instr} {x : Reg} {op : UnaryOp}
    (hi : ∀ s, exec i s = .next (modifyReg s x op))
    (hop : ∀ a f, truncTo x.width (op a f).1 = (op a f).1) (n : Nat) (s : State) :
    execTimes i n s = .next
      { writeReg s x ((fun p : Long × Flags => op p.1 p.2)^[n] (readReg s x, s.flags)).1 with
        flags := ((fun p : Long × Flags => op p.1 p.2)^[n] (readReg s x, s.flags)).2 } := by
  induction n generalizing s with
  | zero => simp
  | succ n ih =>
    rw [execTimes_succ n (hi s), ih, Function.iterate_succ_apply]
    have hr : readReg (modifyReg s x op) x = (op (readReg s x) s.flags).1 := by
      rw [(modifyReg_spec s x op).1.1, hop]
    rw [hr, modifyReg_flags]
    generalize (fun p : Long × Flags => op p.1 p.2)^[n] _ = q
    exact congrArg _ (modifyReg_overwritten s x op q.1 q.2)


end Sys2Proof.Machine
end

