-- ==== Sys2Proof/Laws/Decoding.lean ====
section
/-! SUPPORT. Everything the decoder can do, said once, and when it accepts an opcode word
(spec/30_encoding.md R100 to R111). -/

namespace Sys2Proof

/-- Everything the decoder can do with a list of bytes. -/
theorem decode_cases {bytes rest : List Byte} {i : Instr} (h : decode bytes = .ok (i, rest)) :
    ∃ lo hi l d, bytes = lo :: hi :: l ∧ decodeWord (hi ++ lo) = .ok d ∧
      d.immBytes ≤ l.length ∧ rest = l.drop d.immBytes ∧
      i = d.build (l.take d.immBytes) := by
  unfold decode at h
  split at h
  · rename_i lo hi l
    split at h
    · cases h
    · rename_i d hd
      split at h
      · cases h
      · simp only [Except.ok.injEq, Prod.mk.injEq] at h
        exact ⟨lo, hi, l, d, rfl, hd, by omega, h.2.symm, h.1.symm⟩
  · cases h

/-- The opcode word of an assigned op byte is read by its format. -/
theorem decodeWord_opWord {op : Byte} (x y : BitVec 4) {f : Format} (h : op ≠ 0xFF)
    (hf : formatOf op = some f) :
    decodeWord (opWord op x y) = decodeFormat f (opWord op x y) := by
  unfold decodeWord
  rw [if_neg, opByte_opWord, hf]
  intro h0
  apply h
  rw [← opByte_opWord op x y, h0]
  decide

/-- An immediate is at most four bytes (R103). -/
theorem decodeWord_immBytes_le {w : Word} {d : Decoded} (h : decodeWord w = .ok d) :
    d.immBytes ≤ 4 := by
  have hw : ∀ w : Width, w.bytes ≤ 4 := by intro w; cases w <;> decide
  have hk : ∀ (k : ImmKind) (w : Width), k.bytes w ≤ 4 := by
    intro k w; cases k <;> cases w <;> decide
  unfold decodeWord at h
  split at h
  · cases h
    simp
  · split at h
    · unfold decodeFormat at h
      repeat' split at h
      all_goals first
        | (cases h; done)
        | (cases Except.ok.inj h; first | exact hk _ _ | exact hw _ | simp)
    · cases h

/-- The two bytes of an opcode word are its high and its low byte. -/
theorem word_bytes (w : Word) : w.extractLsb' 8 8 ++ w.extractLsb' 0 8 = w := by
  apply BitVec.eq_of_getLsbD_eq
  intro i hi
  simp only [BitVec.getLsbD_append, BitVec.getLsbD_extractLsb']
  split
  · simp [*]
  · simp [show i - 8 < 8 by omega, show 8 + (i - 8) = i by omega]

/-- Bytes that begin with an accepted opcode word and enough bytes for its immediate decode to the
instruction that the word and those bytes make. -/
theorem decode_append {w : Word} {d : Decoded} {imm : List Byte} (rest : List Byte)
    (hd : decodeWord w = .ok d) (hl : imm.length = d.immBytes) :
    decode (opcodeBytes w ++ imm ++ rest) = .ok (d.build imm, rest) := by
  have h2 : opcodeBytes w = [w.extractLsb' 0 8, w.extractLsb' 8 8] := by
    conv_lhs => rw [← word_bytes w]
    exact leBytes_word _ _
  simp only [h2, List.cons_append, List.nil_append, decode]
  rw [word_bytes, hd]
  simp [← hl]

/-- Bytes that begin with an encoded immediate instruction decode to the instruction of its opcode word and
the immediate's bytes. -/
theorem decode_instrBytes {w : Word} {d : Decoded} {k : ImmKind} {width : Width} (v : Nat)
    (rest : List Byte) (hd : decodeWord w = .ok d) (hk : d.immBytes = k.bytes width) :
    decode (instrBytes w k width v ++ rest) = .ok (d.build (leBytes v d.immBytes), rest) := by
  rw [instrBytes_eq, ← hk, decode_append rest hd (leBytes_length _ _)]

end Sys2Proof
end

