-- ==== Sys2Proof/Laws/Flags.lean ====
section
/-! SUPPORT. Lemmas about results and flags: what narrowing does, the difference as an integer, and that a
result fits its width (spec/00_scope.md R8, spec/43_arithmetic.md R200, R201, spec/45_shift_rotate.md R250). -/

namespace Sys2Proof.Machine

/-! ### Narrowing -/

theorem modulus_pos (w : Width) : 0 < modulus w := Nat.pos_of_ne_zero (by cases w <;> decide)

theorem halfModulus_mul_self (w : Width) : halfModulus w * halfModulus w = modulus w := by
  cases w <;> rfl

/-- A narrowed result is the number modulo `2^w` (R8). -/
theorem narrow_toNat (w : Width) (r : Nat) : (narrow w r).toNat = r % modulus w := by
  have h : r % modulus w < 2 ^ 32 :=
    Nat.lt_of_lt_of_le (Nat.mod_lt _ (modulus_pos w)) (modulus_le w)
  rw [narrow, BitVec.toNat_ofNat, Nat.mod_eq_of_lt h]

theorem narrow_lt (w : Width) (r : Nat) : (narrow w r).toNat < 2 ^ w.bits := by
  rw [narrow_toNat]
  exact Nat.mod_lt _ (modulus_pos w)

@[simp] theorem truncTo_narrow (w : Width) (r : Nat) : truncTo w (narrow w r) = narrow w r :=
  truncTo_of_lt (narrow_lt w r)

theorem narrow_eq_zero (w : Width) (r : Nat) : narrow w r = 0 ↔ r % modulus w = 0 := by
  rw [← BitVec.toNat_inj, narrow_toNat]
  rfl

/-! ### Differences -/

/-- The difference is the mathematical one modulo `2^w` (R201). -/
theorem difference_eq (w : Width) (a b : Long) (cin : Bool) :
    (difference w a b cin : Int) = ((a.toNat : Int) - b.toNat - cin.toNat) % 2 ^ w.bits := by
  have h : (0 : Int) < 2 ^ w.bits := by positivity
  simp only [difference, modulus]
  push_cast
  rw [Int.toNat_of_nonneg (Int.emod_nonneg _ h.ne')]

theorem difference_lt (w : Width) (a b : Long) (cin : Bool) : difference w a b cin < modulus w := by
  have h : (0 : Int) < 2 ^ w.bits := by positivity
  have h1 := difference_eq w a b cin
  have h2 := Int.emod_lt_of_pos ((a.toNat : Int) - b.toNat - cin.toNat) h
  rw [← h1] at h2
  exact_mod_cast h2

theorem narrow_difference_toNat (w : Width) (a b : Long) (cin : Bool) :
    (narrow w (difference w a b cin)).toNat = difference w a b cin := by
  rw [narrow_toNat, Nat.mod_eq_of_lt (difference_lt w a b cin)]

/-! ### Results fit -/

theorem logicResult_lt (k : LogicKind) {n : Nat} {a b : Long} (ha : a.toNat < 2 ^ n)
    (hb : b.toNat < 2 ^ n) : (logicResult k a b).toNat < 2 ^ n := by
  cases k <;> simp only [logicResult, BitVec.toNat_and, BitVec.toNat_or, BitVec.toNat_xor]
  · exact Nat.and_lt_two_pow _ hb
  · exact Nat.or_lt_two_pow ha hb
  · exact Nat.xor_lt_two_pow ha hb

theorem shiftCore_lt (k : ShiftKind) (w : Width) (a : Long) (f : Flags) :
    (shiftCore k w a f).1.toNat < 2 ^ w.bits := narrow_lt _ _

theorem swapCore_lt (w : Width) (a : Long) (f : Flags) :
    (swapCore w a f).1.toNat < 2 ^ w.bits := narrow_lt _ _

/-- Bit `k` of the result of a shift, as a bit of the number it is made of. -/
theorem shiftCore_getLsbD (kind : ShiftKind) {w : Width} (a : Long) (f : Flags) {k : Nat}
    (hk : k < w.bits) :
    (shiftCore kind w a f).1.getLsbD k = (shiftNumber kind w a f.c).testBit k := by
  have := bits_le w
  simp only [shiftCore, narrow, BitVec.getLsbD_ofNat]
  rw [modulus, Nat.testBit_mod_two_pow]
  simp [hk, show k < 32 by omega]

end Sys2Proof.Machine
end

