-- ==== Sys2Proof/Laws/PerInstr.lean ====
section
/-! SUPPORT. A statement for each instruction: how many bytes its encoding has (spec/30_encoding.md R103,
R104): two for the opcode word, then the immediate that its mnemonic names. -/

namespace Sys2Proof.Laws.EncodedLength

/-- The immediate bytes of an instruction, read off its mnemonic (R103). -/
def immediateBytes (i : Instr) : Nat :=
  match i with
  | .nop => 0
  | .stop => 0
  | .halt => 0
  | .sec _ => 0
  | .cec => 0
  | .di => 0
  | .ei => 0
  | .daa => 0
  | .cpl => 0
  | .cpw => 0
  | .cpb => 0
  | .scf => 0
  | .ccf => 0
  | .ldI x _ => x.width.bytes
  | .ldA32 _ _ => 4
  | .ldM _ _ => 0
  | .ldq _ _ => 2
  | .ldh _ _ => 1
  | .stA32 _ _ => 4
  | .stM _ _ => 0
  | .stq _ _ => 2
  | .sth _ _ => 1
  | .mv _ _ => 0
  | .push _ => 0
  | .pop _ => 0
  | .jmpA32 _ _ => 4
  | .jmpR _ _ => 0
  | .jpb _ _ => 2
  | .call _ _ => 4
  | .rst _ => 0
  | .ret _ => 0
  | .reti => 0
  | .jps => 0
  | .incR _ => 0
  | .incM _ => 0
  | .decR _ => 0
  | .decM _ => 0
  | .addI x _ => x.width.bytes
  | .addR _ _ => 0
  | .addM _ _ => 0
  | .adcI x _ => x.width.bytes
  | .adcR _ _ => 0
  | .adcM _ _ => 0
  | .subI x _ => x.width.bytes
  | .subR _ _ => 0
  | .subM _ _ => 0
  | .sbcI x _ => x.width.bytes
  | .sbcR _ _ => 0
  | .sbcM _ _ => 0
  | .andI x _ => x.width.bytes
  | .andR _ _ => 0
  | .andM _ _ => 0
  | .orI x _ => x.width.bytes
  | .orR _ _ => 0
  | .orM _ _ => 0
  | .xorI x _ => x.width.bytes
  | .xorR _ _ => 0
  | .xorM _ _ => 0
  | .cmpI x _ => x.width.bytes
  | .cmpR _ _ => 0
  | .cmpM _ _ => 0
  | .slaR _ => 0
  | .slaM _ => 0
  | .sraR _ => 0
  | .sraM _ => 0
  | .srlR _ => 0
  | .srlM _ => 0
  | .rlR _ => 0
  | .rlM _ => 0
  | .rlcR _ => 0
  | .rlcM _ => 0
  | .rrR _ => 0
  | .rrM _ => 0
  | .rrcR _ => 0
  | .rrcM _ => 0
  | .bitR _ _ => 1
  | .bitM _ _ => 1
  | .setR _ _ => 1
  | .setM _ _ => 1
  | .resR _ _ => 1
  | .resM _ _ => 1
  | .swapR _ => 0
  | .swapM _ => 0

/-- The encoding of an instruction is its opcode word and its immediate bytes, and nothing else. -/
def Statement (i : Instr) : Prop := (encode i).length = 2 + immediateBytes i

theorem length_leBytes (v n : Nat) : (leBytes v n).length = n := by
  induction n generalizing v with
  | zero => rfl
  | succ n ih => rw [leBytes, List.length_cons, ih]

theorem length_opcodeBytes (w : Word) : (opcodeBytes w).length = 2 + 0 := length_leBytes _ _

theorem length_instrBytes (w : Word) (k : ImmKind) (width : Width) (v : Nat) :
    (instrBytes w k width v).length = 2 + k.bytes width := by
  have h : (k.layout.writeBytes width v).length = k.bytes width := by
    cases k <;> exact length_leBytes _ _
  rw [instrBytes, List.length_append, length_opcodeBytes, h]

theorem nop : Statement .nop := length_opcodeBytes _

theorem stop : Statement .stop := length_opcodeBytes _

theorem halt : Statement .halt := length_opcodeBytes _

theorem sec (xx : Byte) : Statement (.sec xx) := length_opcodeBytes _

theorem cec : Statement .cec := length_opcodeBytes _

theorem di : Statement .di := length_opcodeBytes _

theorem ei : Statement .ei := length_opcodeBytes _

theorem daa : Statement .daa := length_opcodeBytes _

theorem cpl : Statement .cpl := length_opcodeBytes _

theorem cpw : Statement .cpw := length_opcodeBytes _

theorem cpb : Statement .cpb := length_opcodeBytes _

theorem scf : Statement .scf := length_opcodeBytes _

theorem ccf : Statement .ccf := length_opcodeBytes _

theorem ldI (x : Reg) (imm : Long) : Statement (.ldI x imm) := length_instrBytes _ _ _ _

theorem ldA32 (x : Reg) (addr : Long) : Statement (.ldA32 x addr) := length_instrBytes _ _ _ _

theorem ldM (x y : Reg) : Statement (.ldM x y) := length_opcodeBytes _

theorem ldq (x : Reg) (off : Word) : Statement (.ldq x off) := length_instrBytes _ _ _ _

theorem ldh (x : Reg) (off : Byte) : Statement (.ldh x off) := length_instrBytes _ _ _ _

theorem stA32 (addr : Long) (y : Reg) : Statement (.stA32 addr y) := length_instrBytes _ _ _ _

theorem stM (x y : Reg) : Statement (.stM x y) := length_opcodeBytes _

theorem stq (off : Word) (y : Reg) : Statement (.stq off y) := length_instrBytes _ _ _ _

theorem sth (off : Byte) (y : Reg) : Statement (.sth off y) := length_instrBytes _ _ _ _

theorem mv (x y : Reg) : Statement (.mv x y) := length_opcodeBytes _

theorem push (x : Reg) : Statement (.push x) := length_opcodeBytes _

theorem pop (x : Reg) : Statement (.pop x) := length_opcodeBytes _

theorem jmpA32 (c : Cond) (addr : Long) : Statement (.jmpA32 c addr) := length_instrBytes _ _ _ _

theorem jmpR (c : Cond) (y : Reg) : Statement (.jmpR c y) := length_opcodeBytes _

theorem jpb (c : Cond) (off : Word) : Statement (.jpb c off) := length_instrBytes _ _ _ _

theorem call (c : Cond) (addr : Long) : Statement (.call c addr) := length_instrBytes _ _ _ _

theorem rst (v : BitVec 4) : Statement (.rst v) := length_opcodeBytes _

theorem ret (c : Cond) : Statement (.ret c) := length_opcodeBytes _

theorem reti : Statement .reti := length_opcodeBytes _

theorem jps : Statement .jps := length_opcodeBytes _

theorem incR (x : Reg) : Statement (.incR x) := length_opcodeBytes _

theorem incM (y : Reg) : Statement (.incM y) := length_opcodeBytes _

theorem decR (x : Reg) : Statement (.decR x) := length_opcodeBytes _

theorem decM (y : Reg) : Statement (.decM y) := length_opcodeBytes _

theorem addI (x : Reg) (imm : Long) : Statement (.addI x imm) := length_instrBytes _ _ _ _

theorem addR (x y : Reg) : Statement (.addR x y) := length_opcodeBytes _

theorem addM (x y : Reg) : Statement (.addM x y) := length_opcodeBytes _

theorem adcI (x : Reg) (imm : Long) : Statement (.adcI x imm) := length_instrBytes _ _ _ _

theorem adcR (x y : Reg) : Statement (.adcR x y) := length_opcodeBytes _

theorem adcM (x y : Reg) : Statement (.adcM x y) := length_opcodeBytes _

theorem subI (x : Reg) (imm : Long) : Statement (.subI x imm) := length_instrBytes _ _ _ _

theorem subR (x y : Reg) : Statement (.subR x y) := length_opcodeBytes _

theorem subM (x y : Reg) : Statement (.subM x y) := length_opcodeBytes _

theorem sbcI (x : Reg) (imm : Long) : Statement (.sbcI x imm) := length_instrBytes _ _ _ _

theorem sbcR (x y : Reg) : Statement (.sbcR x y) := length_opcodeBytes _

theorem sbcM (x y : Reg) : Statement (.sbcM x y) := length_opcodeBytes _

theorem andI (x : Reg) (imm : Long) : Statement (.andI x imm) := length_instrBytes _ _ _ _

theorem andR (x y : Reg) : Statement (.andR x y) := length_opcodeBytes _

theorem andM (x y : Reg) : Statement (.andM x y) := length_opcodeBytes _

theorem orI (x : Reg) (imm : Long) : Statement (.orI x imm) := length_instrBytes _ _ _ _

theorem orR (x y : Reg) : Statement (.orR x y) := length_opcodeBytes _

theorem orM (x y : Reg) : Statement (.orM x y) := length_opcodeBytes _

theorem xorI (x : Reg) (imm : Long) : Statement (.xorI x imm) := length_instrBytes _ _ _ _

theorem xorR (x y : Reg) : Statement (.xorR x y) := length_opcodeBytes _

theorem xorM (x y : Reg) : Statement (.xorM x y) := length_opcodeBytes _

theorem cmpI (x : Reg) (imm : Long) : Statement (.cmpI x imm) := length_instrBytes _ _ _ _

theorem cmpR (x y : Reg) : Statement (.cmpR x y) := length_opcodeBytes _

theorem cmpM (x y : Reg) : Statement (.cmpM x y) := length_opcodeBytes _

theorem slaR (x : Reg) : Statement (.slaR x) := length_opcodeBytes _

theorem slaM (x : Reg) : Statement (.slaM x) := length_opcodeBytes _

theorem sraR (x : Reg) : Statement (.sraR x) := length_opcodeBytes _

theorem sraM (x : Reg) : Statement (.sraM x) := length_opcodeBytes _

theorem srlR (x : Reg) : Statement (.srlR x) := length_opcodeBytes _

theorem srlM (x : Reg) : Statement (.srlM x) := length_opcodeBytes _

theorem rlR (x : Reg) : Statement (.rlR x) := length_opcodeBytes _

theorem rlM (x : Reg) : Statement (.rlM x) := length_opcodeBytes _

theorem rlcR (x : Reg) : Statement (.rlcR x) := length_opcodeBytes _

theorem rlcM (x : Reg) : Statement (.rlcM x) := length_opcodeBytes _

theorem rrR (x : Reg) : Statement (.rrR x) := length_opcodeBytes _

theorem rrM (x : Reg) : Statement (.rrM x) := length_opcodeBytes _

theorem rrcR (x : Reg) : Statement (.rrcR x) := length_opcodeBytes _

theorem rrcM (x : Reg) : Statement (.rrcM x) := length_opcodeBytes _

theorem bitR (b : Byte) (y : Reg) : Statement (.bitR b y) := length_instrBytes _ _ _ _

theorem bitM (b : Byte) (y : Reg) : Statement (.bitM b y) := length_instrBytes _ _ _ _

theorem setR (b : Byte) (y : Reg) : Statement (.setR b y) := length_instrBytes _ _ _ _

theorem setM (b : Byte) (y : Reg) : Statement (.setM b y) := length_instrBytes _ _ _ _

theorem resR (b : Byte) (y : Reg) : Statement (.resR b y) := length_instrBytes _ _ _ _

theorem resM (b : Byte) (y : Reg) : Statement (.resM b y) := length_instrBytes _ _ _ _

theorem swapR (x : Reg) : Statement (.swapR x) := length_opcodeBytes _

theorem swapM (x : Reg) : Statement (.swapM x) := length_opcodeBytes _

end Sys2Proof.Laws.EncodedLength
end

