-- ==== Sys2Proof/Tests/Slice0.lean ====
section
/-! SUPPORT. The model's own tests: ill-formed terms that `Instr.wf` refuses, one word of every instruction
decoded, one or two single steps of every instruction with the results that spec/95_test_vectors.md
gives, and for each statement of Sys2Proof/Certificates/Slice0/Obligations.lean that has hypotheses a
concrete state and operands that meet them (`witness_…`). -/

namespace Sys2Proof.Tests

open Sys2Proof.Machine

/-! ### Helpers -/

/-- What is observed of the next state, if there is one. -/
def after {α : Type} (r : Result) (f : State → α) : Option α :=
  match r with
  | .next t => some (f t)
  | _ => none

/-- The fault a step ends in, if it does. -/
def faultOf (r : Result) : Option Fault :=
  match r with
  | .fault e => some e
  | _ => none

/-- A step has a next state of which a test holds, if the test can be observed to hold. -/
theorem exists_next_and {r : Result} {p : State → Bool} (h : after r p = some true) :
    ∃ t, r = .next t ∧ p t = true := by
  cases r with
  | next t => exact ⟨t, rfl, Option.some.inj h⟩
  | fault e => cases h
  | refused e => cases h

/-- A step has a next state if something can be observed of it. -/
theorem exists_next {r : Result} (h : after r (fun _ => true) = some true) : ∃ t, r = .next t := by
  cases r with
  | next t => exact ⟨t, rfl⟩
  | fault e => cases h
  | refused e => cases h

/-- The flags register from its byte (10_state.md R26). -/
def flagsOf (b : Byte) : Flags :=
  ⟨b.getLsbD 7, b.getLsbD 6, b.getLsbD 5, b.getLsbD 4, b.getLsbD 3, b.getLsbD 2, b.getLsbD 1,
    b.getLsbD 0⟩

/-- The state with these bytes at `PC`. -/
def placed (bytes : List Byte) (s : State) : State := writeBytes s s.pc.toNat bytes

/-! ### Well-formedness refuses ill-formed terms -/

/-- An immediate that does not fit the register's width (30_encoding.md R103). -/
theorem test_wf_refuses_wide_immediates :
    (Instr.ldI ⟨.b, .lo⟩ 0x100).wf = false ∧ (Instr.ldI ⟨.b, .word⟩ 0x10000).wf = false ∧
    (Instr.addI ⟨.a, .hi⟩ 0x100).wf = false ∧ (Instr.adcI ⟨.a, .lo⟩ 0x100).wf = false ∧
    (Instr.subI ⟨.a, .lo⟩ 0x100).wf = false ∧ (Instr.sbcI ⟨.a, .word⟩ 0x10000).wf = false ∧
    (Instr.andI ⟨.a, .lo⟩ 0x100).wf = false ∧ (Instr.orI ⟨.a, .lo⟩ 0x100).wf = false ∧
    (Instr.xorI ⟨.a, .lo⟩ 0x100).wf = false ∧ (Instr.cmpI ⟨.a, .lo⟩ 0x100).wf = false := by
  decide

/-- A first operand that is no accumulator register, immediate forms (R109). -/
theorem test_wf_refuses_other_rows_immediate :
    (Instr.addI ⟨.b, .lo⟩ 0).wf = false ∧ (Instr.adcI ⟨.c, .lo⟩ 0).wf = false ∧
    (Instr.subI ⟨.d, .lo⟩ 0).wf = false ∧ (Instr.sbcI ⟨.b, .long⟩ 0).wf = false ∧
    (Instr.andI ⟨.b, .hi⟩ 0).wf = false ∧ (Instr.orI ⟨.b, .word⟩ 0).wf = false ∧
    (Instr.xorI ⟨.c, .lo⟩ 0).wf = false ∧ (Instr.cmpI ⟨.d, .lo⟩ 0).wf = false := by
  decide

/-- A first operand that is no accumulator register, register and memory forms (R109). -/
theorem test_wf_refuses_other_rows :
    (Instr.addR ⟨.b, .lo⟩ ⟨.a, .lo⟩).wf = false ∧ (Instr.addM ⟨.b, .lo⟩ ⟨.a, .long⟩).wf = false ∧
    (Instr.adcR ⟨.b, .lo⟩ ⟨.a, .lo⟩).wf = false ∧ (Instr.adcM ⟨.c, .lo⟩ ⟨.a, .long⟩).wf = false ∧
    (Instr.subR ⟨.b, .lo⟩ ⟨.a, .lo⟩).wf = false ∧ (Instr.subM ⟨.d, .lo⟩ ⟨.a, .long⟩).wf = false ∧
    (Instr.sbcR ⟨.b, .lo⟩ ⟨.a, .lo⟩).wf = false ∧ (Instr.sbcM ⟨.b, .lo⟩ ⟨.a, .long⟩).wf = false ∧
    (Instr.andR ⟨.b, .lo⟩ ⟨.a, .lo⟩).wf = false ∧ (Instr.andM ⟨.b, .lo⟩ ⟨.a, .long⟩).wf = false ∧
    (Instr.orR ⟨.b, .lo⟩ ⟨.a, .lo⟩).wf = false ∧ (Instr.orM ⟨.b, .lo⟩ ⟨.a, .long⟩).wf = false ∧
    (Instr.xorR ⟨.b, .lo⟩ ⟨.a, .lo⟩).wf = false ∧ (Instr.xorM ⟨.b, .lo⟩ ⟨.a, .long⟩).wf = false ∧
    (Instr.cmpR ⟨.b, .lo⟩ ⟨.a, .lo⟩).wf = false ∧ (Instr.cmpM ⟨.b, .lo⟩ ⟨.a, .long⟩).wf = false := by
  decide

/-! ### Decoding -/

/-- Words that are no instruction (30_encoding.md R106 to R109; spec/95_test_vectors.md, part 2). -/
theorem test_decode_rejects :
    (∀ w ∈ [0x0001, 0x0D00, 0x1400, 0x1600, 0x1A00, 0x1C00, 0x2700, 0x4C00, 0x5E00, 0x6800,
      0xFF00, 0xFFFE, 0x1001, 0x1E10, 0x2601, 0x2070, 0x25F0, 0x2071, 0x3440, 0x4A74, 0x3441],
      decodeTableWord 16 w = none) := by
  decide

/-- One word of each general instruction (spec/95_test_vectors.md, part 2). -/
theorem test_decode_general :
    decodeTableWord 16 0x0000 = some (.nop) ∧
    decodeTableWord 16 0x0100 = some (.stop) ∧
    decodeTableWord 16 0x0200 = some (.halt) ∧
    decodeTableWord 16 0x032A = some (.sec 0x2A) ∧
    decodeTableWord 16 0x0400 = some (.cec) ∧
    decodeTableWord 16 0x0500 = some (.di) ∧
    decodeTableWord 16 0x0600 = some (.ei) ∧
    decodeTableWord 16 0x0700 = some (.daa) ∧
    decodeTableWord 16 0x0800 = some (.cpl) ∧
    decodeTableWord 16 0x0900 = some (.cpw) ∧
    decodeTableWord 16 0x0A00 = some (.cpb) ∧
    decodeTableWord 16 0x0B00 = some (.scf) ∧
    decodeTableWord 16 0x0C00 = some (.ccf) := by
  decide

/-- One word of each data transfer instruction (spec/95_test_vectors.md, part 2). -/
theorem test_decode_data_transfer :
    decodeTableWord 32 0xBEEF10D0 = some (.ldI ⟨.d, .word⟩ 0xBEEF) ∧
    decodeTableWord 48 0x8000000011B0 = some (.ldA32 ⟨.c, .lo⟩ 0x80000000) ∧
    decodeTableWord 16 0x12D4 = some (.ldM ⟨.d, .word⟩ ⟨.b, .long⟩) ∧
    decodeTableWord 32 0x00101300 = some (.ldq ⟨.a, .long⟩ 0x0010) ∧
    decodeTableWord 24 0x441570 = some (.ldh ⟨.b, .lo⟩ 0x44) ∧
    decodeTableWord 48 0x800000001701 = some (.stA32 0x80000000 ⟨.a, .word⟩) ∧
    decodeTableWord 16 0x1840 = some (.stM ⟨.b, .long⟩ ⟨.a, .long⟩) ∧
    decodeTableWord 32 0x00101900 = some (.stq 0x0010 ⟨.a, .long⟩) ∧
    decodeTableWord 24 0x441B07 = some (.sth 0x44 ⟨.b, .lo⟩) ∧
    decodeTableWord 16 0x1D43 = some (.mv ⟨.b, .long⟩ ⟨.a, .lo⟩) ∧
    decodeTableWord 16 0x1E01 = some (.push ⟨.a, .word⟩) ∧
    decodeTableWord 16 0x1F80 = some (.pop ⟨.c, .long⟩) := by
  decide

/-- One word of each control transfer instruction (spec/95_test_vectors.md, part 2). -/
theorem test_decode_control_transfer :
    decodeTableWord 48 0x000031002030 = some (.jmpA32 .zs 0x00003100) ∧
    decodeTableWord 16 0x2104 = some (.jmpR .n ⟨.b, .long⟩) ∧
    decodeTableWord 32 0xFFF82240 = some (.jpb .zc 0xFFF8) ∧
    decodeTableWord 48 0x0000300E2300 = some (.call .n 0x0000300E) ∧
    decodeTableWord 16 0x2430 = some (.rst 3) ∧
    decodeTableWord 16 0x2500 = some (.ret .n) ∧
    decodeTableWord 16 0x2600 = some (.reti) ∧
    decodeTableWord 16 0xFFFF = some (.jps) := by
  decide

/-- One word of each arithmetic instruction (spec/95_test_vectors.md, part 2). -/
theorem test_decode_arithmetic :
    decodeTableWord 16 0x3070 = some (.incR ⟨.b, .lo⟩) ∧
    decodeTableWord 16 0x3104 = some (.incM ⟨.b, .long⟩) ∧
    decodeTableWord 16 0x3270 = some (.decR ⟨.b, .lo⟩) ∧
    decodeTableWord 16 0x3304 = some (.decM ⟨.b, .long⟩) ∧
    decodeTableWord 24 0x013430 = some (.addI ⟨.a, .lo⟩ 0x01) ∧
    decodeTableWord 16 0x3537 = some (.addR ⟨.a, .lo⟩ ⟨.b, .lo⟩) ∧
    decodeTableWord 16 0x3604 = some (.addM ⟨.a, .long⟩ ⟨.b, .long⟩) ∧
    decodeTableWord 32 0x12343710 = some (.adcI ⟨.a, .word⟩ 0x1234) ∧
    decodeTableWord 16 0x3804 = some (.adcR ⟨.a, .long⟩ ⟨.b, .long⟩) ∧
    decodeTableWord 16 0x3938 = some (.adcM ⟨.a, .lo⟩ ⟨.c, .long⟩) ∧
    decodeTableWord 48 0x000000013A00 = some (.subI ⟨.a, .long⟩ 0x00000001) ∧
    decodeTableWord 16 0x3B37 = some (.subR ⟨.a, .lo⟩ ⟨.b, .lo⟩) ∧
    decodeTableWord 16 0x3C1C = some (.subM ⟨.a, .word⟩ ⟨.d, .long⟩) ∧
    decodeTableWord 24 0xFF3D30 = some (.sbcI ⟨.a, .lo⟩ 0xFF) ∧
    decodeTableWord 16 0x3E04 = some (.sbcR ⟨.a, .long⟩ ⟨.b, .long⟩) ∧
    decodeTableWord 16 0x3F34 = some (.sbcM ⟨.a, .lo⟩ ⟨.b, .long⟩) := by
  decide

/-- One word of each bitwise instruction (spec/95_test_vectors.md, part 2). -/
theorem test_decode_bitwise :
    decodeTableWord 24 0x0F4030 = some (.andI ⟨.a, .lo⟩ 0x0F) ∧
    decodeTableWord 16 0x4104 = some (.andR ⟨.a, .long⟩ ⟨.b, .long⟩) ∧
    decodeTableWord 16 0x4214 = some (.andM ⟨.a, .word⟩ ⟨.b, .long⟩) ∧
    decodeTableWord 24 0x804330 = some (.orI ⟨.a, .lo⟩ 0x80) ∧
    decodeTableWord 16 0x4407 = some (.orR ⟨.a, .long⟩ ⟨.b, .lo⟩) ∧
    decodeTableWord 16 0x4534 = some (.orM ⟨.a, .lo⟩ ⟨.b, .long⟩) ∧
    decodeTableWord 32 0xFFFF4610 = some (.xorI ⟨.a, .word⟩ 0xFFFF) ∧
    decodeTableWord 16 0x4700 = some (.xorR ⟨.a, .long⟩ ⟨.a, .long⟩) ∧
    decodeTableWord 16 0x4834 = some (.xorM ⟨.a, .lo⟩ ⟨.b, .long⟩) ∧
    decodeTableWord 24 0x104930 = some (.cmpI ⟨.a, .lo⟩ 0x10) ∧
    decodeTableWord 16 0x4A04 = some (.cmpR ⟨.a, .long⟩ ⟨.b, .long⟩) ∧
    decodeTableWord 16 0x4B14 = some (.cmpM ⟨.a, .word⟩ ⟨.b, .long⟩) := by
  decide

/-- One word of each shift instruction (spec/95_test_vectors.md, part 2). -/
theorem test_decode_shift :
    decodeTableWord 16 0x5030 = some (.slaR ⟨.a, .lo⟩) ∧
    decodeTableWord 16 0x5104 = some (.slaM ⟨.b, .long⟩) ∧
    decodeTableWord 16 0x5210 = some (.sraR ⟨.a, .word⟩) ∧
    decodeTableWord 16 0x5304 = some (.sraM ⟨.b, .long⟩) ∧
    decodeTableWord 16 0x5400 = some (.srlR ⟨.a, .long⟩) ∧
    decodeTableWord 16 0x5504 = some (.srlM ⟨.b, .long⟩) ∧
    decodeTableWord 16 0x5630 = some (.rlR ⟨.a, .lo⟩) ∧
    decodeTableWord 16 0x5704 = some (.rlM ⟨.b, .long⟩) ∧
    decodeTableWord 16 0x5830 = some (.rlcR ⟨.a, .lo⟩) ∧
    decodeTableWord 16 0x5904 = some (.rlcM ⟨.b, .long⟩) ∧
    decodeTableWord 16 0x5A30 = some (.rrR ⟨.a, .lo⟩) ∧
    decodeTableWord 16 0x5B04 = some (.rrM ⟨.b, .long⟩) ∧
    decodeTableWord 16 0x5C30 = some (.rrcR ⟨.a, .lo⟩) ∧
    decodeTableWord 16 0x5D04 = some (.rrcM ⟨.b, .long⟩) := by
  decide

/-- One word of each bit check instruction (spec/95_test_vectors.md, part 2). -/
theorem test_decode_bit_check :
    decodeTableWord 24 0x046003 = some (.bitR 4 ⟨.a, .lo⟩) ∧
    decodeTableWord 24 0x076104 = some (.bitM 7 ⟨.b, .long⟩) ∧
    decodeTableWord 24 0x1F6200 = some (.setR 31 ⟨.a, .long⟩) ∧
    decodeTableWord 24 0x036304 = some (.setM 3 ⟨.b, .long⟩) ∧
    decodeTableWord 24 0x076403 = some (.resR 7 ⟨.a, .lo⟩) ∧
    decodeTableWord 24 0x006504 = some (.resM 0 ⟨.b, .long⟩) ∧
    decodeTableWord 16 0x6630 = some (.swapR ⟨.a, .lo⟩) ∧
    decodeTableWord 16 0x6704 = some (.swapM ⟨.b, .long⟩) := by
  decide

/-! ### Steps -/

/-- `LDH BL, [$44]`: the platform sees a read of `0xFFFFFF44` (20_memory.md R76). -/
theorem test_ldh :
    after (step (placed [0x70, 0x15, 0x44] { State.reset with b := 0x11223344 }))
      (fun t => (t.platform, t.pc)) =
      some ([.read [0xFFFFFF44]], 0x00003003) := by decide

/-- `STH [$44], BL`: the platform sees a write of `0xA5` to `0xFFFFFF44` (20_memory.md R76). -/
theorem test_sth :
    after (step (placed [0x07, 0x1B, 0x44] { State.reset with b := 0x000000A5 }))
      (fun t => (t.platform, t.pc)) =
      some ([.write [(0xFFFFFF44, 0xA5)]], 0x00003003) := by decide

/-- `DAA` keeps `N` and clears `H`, whatever the adjustment (40_general.md R147). -/
theorem test_daa :
    after (step (placed [0x00, 0x07] { State.reset with a := 0x1234563C, flags := flagsOf 0x60 }))
      (fun t => (t.b, t.pc, t.flags.n, t.flags.h)) =
      some (0x00000000, 0x00003002, true, false) := by decide

/-- `NOP`: spec/95_test_vectors.md, part 3. -/
theorem test_nop :
    after (step (placed [0x00, 0x00] { State.reset with a := 0x12345678, flags := flagsOf 0xFC }))
      (fun t => (t.pc, t.flags.toByte)) =
      some (0x00003002, 0xFC) := by decide

/-- `STOP`: spec/95_test_vectors.md, part 3. -/
theorem test_stop :
    after (step (placed [0x00, 0x01] { State.reset with ime := true, flags := flagsOf 0xFC }))
      (fun t => (t.pc, t.flags.toByte)) =
      some (0x00003002, 0xFD) := by decide

/-- `HALT`: spec/95_test_vectors.md, part 3. -/
theorem test_halt :
    after (step (placed [0x00, 0x02] State.reset))
      (fun t => (t.pc, t.flags.toByte)) =
      some (0x00003002, 0x02) := by decide

/-- `SEC 0xFF`: spec/95_test_vectors.md, part 3. -/
theorem test_sec :
    after (step (placed [0xFF, 0x03] { State.reset with ec := 0x01 }))
      (fun t => (t.ec, t.flags.toByte)) =
      some (0xFF, 0x00) := by decide

/-- `CEC`: spec/95_test_vectors.md, part 3. -/
theorem test_cec :
    after (step (placed [0x00, 0x04] { State.reset with ec := 0x55 }))
      (fun t => (t.ec, t.flags.toByte)) =
      some (0x00, 0x00) := by decide

/-- `DI`: spec/95_test_vectors.md, part 3. -/
theorem test_di :
    after (step (placed [0x00, 0x05] { State.reset with ime := true }))
      (fun t => (t.ime, t.flags.toByte)) =
      some (false, 0x00) := by decide

/-- `EI`: spec/95_test_vectors.md, part 3. -/
theorem test_ei :
    after (step (placed [0x00, 0x06] { State.reset with ime := false }))
      (fun t => (t.ime, t.flags.toByte)) =
      some (true, 0x00) := by decide

/-- `CPL`: spec/95_test_vectors.md, part 3. -/
theorem test_cpl :
    after (step (placed [0x00, 0x08] { State.reset with a := 0x12345678 }))
      (fun t => (t.a, t.flags.toByte)) =
      some (0xEDCBA987, 0x60) := by decide

/-- `CPW`: spec/95_test_vectors.md, part 3. -/
theorem test_cpw :
    after (step (placed [0x00, 0x09] { State.reset with a := 0x12345678 }))
      (fun t => (t.a, t.flags.toByte)) =
      some (0x1234A987, 0x60) := by decide

/-- `CPB`: spec/95_test_vectors.md, part 3. -/
theorem test_cpb :
    after (step (placed [0x00, 0x0A] { State.reset with a := 0x000000FF, flags := flagsOf 0x9C }))
      (fun t => (t.a, t.flags.toByte)) =
      some (0x00000000, 0xFC) := by decide

/-- `SCF`: spec/95_test_vectors.md, part 3. -/
theorem test_scf :
    after (step (placed [0x00, 0x0B] { State.reset with flags := flagsOf 0xFC }))
      (fun t => t.flags.toByte) =
      some 0x90 := by decide

/-- `CCF`: spec/95_test_vectors.md, part 3. -/
theorem test_ccf :
    after (step (placed [0x00, 0x0C] { State.reset with flags := flagsOf 0xEC }))
      (fun t => t.flags.toByte) =
      some 0x90 := by decide

/-- `CCF`: spec/95_test_vectors.md, part 3. -/
theorem test_ccf_2 :
    after (step (placed [0x00, 0x0C] { State.reset with flags := flagsOf 0x10 }))
      (fun t => t.flags.toByte) =
      some 0x00 := by decide

/-- `LD AH, 0x99`: spec/95_test_vectors.md, part 3. -/
theorem test_ldI :
    after (step (placed [0x20, 0x10, 0x99] { State.reset with a := 0x12345678 }))
      (fun t => (t.a, t.flags.toByte)) =
      some (0x12349978, 0x00) := by decide

/-- `LD AW, 0x00FF`: spec/95_test_vectors.md, part 3. -/
theorem test_ldI_2 :
    after (step (placed [0x10, 0x10, 0xFF, 0x00] { State.reset with a := 0x12345678 }))
      (fun t => (t.a, t.flags.toByte)) =
      some (0x123400FF, 0x00) := by decide

/-- `LD CW, [$80000001]`: spec/95_test_vectors.md, part 3. -/
theorem test_ldA32 :
    after (step (writeBytes (placed [0x90, 0x11, 0x01, 0x00, 0x00, 0x80] State.reset) 0x80000000 [0x44, 0x33, 0x22, 0x11]))
      (fun t => (t.c, t.flags.toByte)) =
      some (0x00002233, 0x00) := by decide

/-- `LD C, [$FFFFFFFD]`: spec/95_test_vectors.md, part 3. -/
theorem test_ldA32_2 :
    faultOf (step (placed [0x80, 0x11, 0xFD, 0xFF, 0xFF, 0xFF] State.reset)) =
      some .addressWrap := by decide

/-- `LD A, [A]`: spec/95_test_vectors.md, part 3. -/
theorem test_ldM :
    after (step (writeBytes (placed [0x00, 0x12] { State.reset with a := 0x80000000 }) 0x80000000 [0x44, 0x33, 0x22, 0x11]))
      (fun t => (t.a, t.flags.toByte)) =
      some (0x11223344, 0x00) := by decide

/-- `LD A, [BL]`: spec/95_test_vectors.md, part 3. -/
theorem test_ldM_2 :
    after (step (writeBytes (placed [0x07, 0x12] { State.reset with b := 0x80000002 }) 0x00000000 [0x54, 0x4D, 0x30, 0x38, 0x41, 0x00]))
      (fun t => (t.a, t.flags.toByte)) =
      some (0x00413830, 0x00) := by decide

/-- `LDQ A, [$0010]`: spec/95_test_vectors.md, part 3. -/
theorem test_ldq :
    after (step (writeBytes (placed [0x00, 0x13, 0x10, 0x00] State.reset) 0xFFFF0010 [0x01, 0x02, 0x03, 0x04]))
      (fun t => (t.a, t.flags.toByte)) =
      some (0x04030201, 0x00) := by decide

/-- `LDQ AW, [$FFFF]`: spec/95_test_vectors.md, part 3. -/
theorem test_ldq_2 :
    faultOf (step (placed [0x10, 0x13, 0xFF, 0xFF] State.reset)) =
      some .addressWrap := by decide

/-- `ST [$80000000], AH`: spec/95_test_vectors.md, part 3. -/
theorem test_stA32 :
    after (step (placed [0x02, 0x17, 0x00, 0x00, 0x00, 0x80] { State.reset with a := 0x11223344 }))
      (fun t => (t.flags.toByte, readBytes t 0x80000000 1)) =
      some (0x00, [0x33]) := by decide

/-- `ST [$7FFFFFFE], A`: spec/95_test_vectors.md, part 3. -/
theorem test_stA32_2 :
    faultOf (step (placed [0x00, 0x17, 0xFE, 0xFF, 0xFF, 0x7F] { State.reset with a := 0x11223344 })) =
      some .romWrite := by decide

/-- `ST [B], A`: spec/95_test_vectors.md, part 3. -/
theorem test_stM :
    after (step (placed [0x40, 0x18] { State.reset with b := 0x80000000, a := 0x11223344 }))
      (fun t => (t.flags.toByte, readBytes t 0x80000000 4)) =
      some (0x00, [0x44, 0x33, 0x22, 0x11]) := by decide

/-- `ST [BW], A`: spec/95_test_vectors.md, part 3. -/
theorem test_stM_2 :
    faultOf (step (placed [0x50, 0x18] { State.reset with b := 0x80001234, a := 0x11223344 })) =
      some .romWrite := by decide

/-- `STQ [$0010], A`: spec/95_test_vectors.md, part 3. -/
theorem test_stq :
    after (step (placed [0x00, 0x19, 0x10, 0x00] { State.reset with a := 0x11223344 }))
      (fun t => (t.flags.toByte, readBytes t 0xFFFF0010 4)) =
      some (0x00, [0x44, 0x33, 0x22, 0x11]) := by decide

/-- `STQ [$FFFD], A`: spec/95_test_vectors.md, part 3. -/
theorem test_stq_2 :
    faultOf (step (placed [0x00, 0x19, 0xFD, 0xFF] { State.reset with a := 0x11223344 })) =
      some .addressWrap := by decide

/-- `MV AH, AL`: spec/95_test_vectors.md, part 3. -/
theorem test_mv :
    after (step (placed [0x23, 0x1D] { State.reset with a := 0x11223344 }))
      (fun t => (t.a, t.flags.toByte)) =
      some (0x11224444, 0x00) := by decide

/-- `MV BW, A`: spec/95_test_vectors.md, part 3. -/
theorem test_mv_2 :
    after (step (placed [0x50, 0x1D] { State.reset with a := 0x11223344, b := 0xFFFFFFFF }))
      (fun t => (t.b, t.flags.toByte)) =
      some (0xFFFF3344, 0x00) := by decide

/-- `PUSH AW`: spec/95_test_vectors.md, part 3. -/
theorem test_push :
    after (step (placed [0x01, 0x1E] { State.reset with a := 0x123401FE }))
      (fun t => (t.sp, t.flags.toByte, readBytes t 0xFFFDFFFB 4)) =
      some (0xFFFB, 0x00, [0xFE, 0x01, 0x00, 0x00]) := by decide

/-- `PUSH A`: spec/95_test_vectors.md, part 3. -/
theorem test_push_2 :
    faultOf (step (placed [0x00, 0x1E] { State.reset with sp := 0x0003 })) =
      some .dataStackFull := by decide

/-- `POP BL`: spec/95_test_vectors.md, part 3. -/
theorem test_pop :
    after (step (writeBytes (placed [0x70, 0x1F] { State.reset with b := 0xFFFFFFFF, sp := 0xFFFB }) 0xFFFDFFFB [0x44, 0x33, 0x22, 0x11]))
      (fun t => (t.b, t.sp, t.flags.toByte)) =
      some (0xFFFFFF44, 0xFFFF, 0x00) := by decide

/-- `POP A`: spec/95_test_vectors.md, part 3. -/
theorem test_pop_2 :
    faultOf (step (placed [0x00, 0x1F] State.reset)) =
      some .dataStackEmpty := by decide

/-- `JMP ZS, [$00003100]`: spec/95_test_vectors.md, part 3. -/
theorem test_jmpA32 :
    after (step (placed [0x30, 0x20, 0x00, 0x31, 0x00, 0x00] { State.reset with flags := flagsOf 0x80 }))
      (fun t => (t.pc, t.flags.toByte)) =
      some (0x00003100, 0x80) := by decide

/-- `JMP CC, [$00003100]`: spec/95_test_vectors.md, part 3. -/
theorem test_jmpA32_2 :
    after (step (placed [0x20, 0x20, 0x00, 0x31, 0x00, 0x00] { State.reset with flags := flagsOf 0x10 }))
      (fun t => (t.pc, t.flags.toByte)) =
      some (0x00003006, 0x10) := by decide

/-- `JMP N, [BW]`: spec/95_test_vectors.md, part 3. -/
theorem test_jmpR :
    after (step (placed [0x05, 0x21] { State.reset with b := 0xC0001234 }))
      (fun t => (t.pc, t.flags.toByte)) =
      some (0x00001234, 0x00) := by decide

/-- `JMP ZC, [B]`: spec/95_test_vectors.md, part 3. -/
theorem test_jmpR_2 :
    after (step (placed [0x44, 0x21] { State.reset with b := 0xC0000000, flags := flagsOf 0x80 }))
      (fun t => (t.pc, t.flags.toByte)) =
      some (0x00003002, 0x80) := by decide

/-- `JPB ZC, -8`: spec/95_test_vectors.md, part 3. -/
theorem test_jpb :
    after (step (placed [0x40, 0x22, 0xF8, 0xFF] { State.reset with pc := 0x0000300A, flags := flagsOf 0x40 }))
      (fun t => (t.pc, t.flags.toByte)) =
      some (0x00003006, 0x40) := by decide

/-- `JPB N, 0x7FFF`: spec/95_test_vectors.md, part 3. -/
theorem test_jpb_2 :
    after (step (placed [0x00, 0x22, 0xFF, 0x7F] State.reset))
      (fun t => (t.pc, t.flags.toByte)) =
      some (0x0000B003, 0x00) := by decide

/-- `CALL N, [$0000300E]`: spec/95_test_vectors.md, part 3. -/
theorem test_call :
    after (step (placed [0x00, 0x23, 0x0E, 0x30, 0x00, 0x00] { State.reset with pc := 0x00003004 }))
      (fun t => (t.pc, t.rp, t.flags.toByte, readBytes t 0xFFFEFFFB 4)) =
      some (0x0000300E, 0xFFFB, 0x00, [0x0A, 0x30, 0x00, 0x00]) := by decide

/-- `CALL N, [$00004000]`: spec/95_test_vectors.md, part 3. -/
theorem test_call_2 :
    faultOf (step (placed [0x00, 0x23, 0x00, 0x40, 0x00, 0x00] { State.reset with rp := 0x0003 })) =
      some .callStackFull := by decide

/-- `RST 15`: spec/95_test_vectors.md, part 3. -/
theorem test_rst :
    after (step (placed [0xF0, 0x24] { State.reset with rp := 0xFFFB }))
      (fun t => (t.pc, t.rp, t.flags.toByte, readBytes t 0xFFFEFFF7 4)) =
      some (0x00001F00, 0xFFF7, 0x00, [0x02, 0x30, 0x00, 0x00]) := by decide

/-- `RET CS`: spec/95_test_vectors.md, part 3. -/
theorem test_ret :
    after (step (writeBytes (placed [0x10, 0x25] { State.reset with rp := 0xFFF7, flags := flagsOf 0x10 }) 0xFFFEFFF7 [0x00, 0x40, 0x00, 0x00, 0x0A, 0x30, 0x00, 0x00]))
      (fun t => (t.pc, t.rp, t.flags.toByte)) =
      some (0x00004000, 0xFFFB, 0x10) := by decide

/-- `RET N`: spec/95_test_vectors.md, part 3. -/
theorem test_ret_2 :
    after (step (placed [0x00, 0x25] { State.reset with ec := 0x2A }))
      (fun t => (t.ec, t.pc, t.flags.toByte)) =
      some (0x00, 0x00003002, 0x01) := by decide

/-- `RETI`: spec/95_test_vectors.md, part 3. -/
theorem test_reti :
    after (step (writeBytes (placed [0x00, 0x26] { State.reset with rp := 0xFFFB }) 0xFFFEFFFB [0x56, 0x34, 0x00, 0x00]))
      (fun t => (t.ime, t.pc, t.rp, t.flags.toByte)) =
      some (true, 0x00003456, 0xFFFF, 0x00) := by decide

/-- `RETI`: spec/95_test_vectors.md, part 3. -/
theorem test_reti_2 :
    after (step (placed [0x00, 0x26] State.reset))
      (fun t => (t.ime, t.pc, t.flags.toByte)) =
      some (true, 0x00003002, 0x01) := by decide

/-- `JPS`: spec/95_test_vectors.md, part 3. -/
theorem test_jps :
    after (step (placed [0xFF, 0xFF] { State.reset with pc := 0x00004000, a := 0x00000005, rp := 0xFFFB, ime := true, flags := flagsOf 0xFC }))
      (fun t => (t.pc, t.flags.toByte)) =
      some (0x00003000, 0xFC) := by decide

/-- `INC AH`: spec/95_test_vectors.md, part 3. -/
theorem test_incR :
    after (step (placed [0x20, 0x30] { State.reset with a := 0x0000FF00 }))
      (fun t => (t.a, t.flags.toByte)) =
      some (0x00000000, 0xA0) := by decide

/-- `INC D`: spec/95_test_vectors.md, part 3. -/
theorem test_incR_2 :
    after (step (placed [0xC0, 0x30] { State.reset with d := 0x00000000, flags := flagsOf 0xDC }))
      (fun t => (t.d, t.flags.z)) =
      some (0x00000001, false) := by decide

/-- `INC [B]`: spec/95_test_vectors.md, part 3. -/
theorem test_incM :
    after (step (writeBytes (placed [0x04, 0x31] { State.reset with b := 0x80000000 }) 0x80000000 [0xFF]))
      (fun t => (t.flags.toByte, readBytes t 0x80000000 1)) =
      some (0xA0, [0x00]) := by decide

/-- `DEC AL`: spec/95_test_vectors.md, part 3. -/
theorem test_decR :
    after (step (placed [0x30, 0x32] { State.reset with a := 0x00000000 }))
      (fun t => (t.a, t.flags.toByte)) =
      some (0x000000FF, 0x60) := by decide

/-- `DEC [B]`: spec/95_test_vectors.md, part 3. -/
theorem test_decM :
    after (step (writeBytes (placed [0x04, 0x33] { State.reset with b := 0x80000000 }) 0x80000000 [0x00]))
      (fun t => (t.flags.toByte, readBytes t 0x80000000 1)) =
      some (0x60, [0xFF]) := by decide

/-- `ADD AW, 0x0001`: spec/95_test_vectors.md, part 3. -/
theorem test_addI :
    after (step (placed [0x10, 0x34, 0x01, 0x00] { State.reset with a := 0x0001FFFF }))
      (fun t => (t.a, t.flags.toByte)) =
      some (0x00010000, 0xB8) := by decide

/-- `ADD AL, 0x08`: spec/95_test_vectors.md, part 3. -/
theorem test_addI_2 :
    after (step (placed [0x30, 0x34, 0x08] { State.reset with a := 0x00000008 }))
      (fun t => (t.a, t.flags.toByte)) =
      some (0x00000010, 0x20) := by decide

/-- `ADD AL, B`: spec/95_test_vectors.md, part 3. -/
theorem test_addR :
    after (step (placed [0x34, 0x35] { State.reset with a := 0x00000001, b := 0x11223344 }))
      (fun t => (t.a, t.flags.toByte)) =
      some (0x00000045, 0x00) := by decide

/-- `ADD A, BL`: spec/95_test_vectors.md, part 3. -/
theorem test_addR_2 :
    after (step (placed [0x07, 0x35] { State.reset with a := 0x00000001, b := 0xFFFFFFFF }))
      (fun t => (t.a, t.flags.toByte)) =
      some (0x00000100, 0x00) := by decide

/-- `ADD AL, [B]`: spec/95_test_vectors.md, part 3. -/
theorem test_addM :
    after (step (writeBytes (placed [0x34, 0x36] { State.reset with a := 0x00000001, b := 0x80000000 }) 0x80000000 [0xFF, 0xFF]))
      (fun t => (t.a, t.flags.toByte)) =
      some (0x00000000, 0xB8) := by decide

/-- `ADC AL, 0xFF`: spec/95_test_vectors.md, part 3. -/
theorem test_adcI :
    after (step (placed [0x30, 0x37, 0xFF] { State.reset with a := 0x00000000, flags := flagsOf 0x10 }))
      (fun t => t.flags.toByte) =
      some 0xB8 := by decide

/-- `ADC A, B`: spec/95_test_vectors.md, part 3. -/
theorem test_adcR :
    after (step (placed [0x04, 0x38] { State.reset with a := 0xFFFFFFFF, b := 0xFFFFFFFF, flags := flagsOf 0x10 }))
      (fun t => t.flags.toByte) =
      some 0x38 := by decide

/-- `ADC AW, [B]`: spec/95_test_vectors.md, part 3. -/
theorem test_adcM :
    after (step (writeBytes (placed [0x14, 0x39] { State.reset with a := 0x00001234, b := 0x80000000 }) 0x80000000 [0xCC, 0xED]))
      (fun t => (t.a, t.flags.toByte)) =
      some (0x00000000, 0xB8) := by decide

/-- `SUB AL, 0x01`: spec/95_test_vectors.md, part 3. -/
theorem test_subI :
    after (step (placed [0x30, 0x3A, 0x01] { State.reset with a := 0x00000000 }))
      (fun t => (t.a, t.flags.toByte)) =
      some (0x000000FF, 0x74) := by decide

/-- `SUB A, B`: spec/95_test_vectors.md, part 3. -/
theorem test_subR :
    after (step (placed [0x04, 0x3B] { State.reset with a := 0x00000001, b := 0x00000002 }))
      (fun t => (t.a, t.flags.toByte)) =
      some (0xFFFFFFFF, 0x74) := by decide

/-- `SUB A, [B]`: spec/95_test_vectors.md, part 3. -/
theorem test_subM :
    after (step (writeBytes (placed [0x04, 0x3C] { State.reset with a := 0x11223344, b := 0x80000000 }) 0x80000000 [0x44, 0x33, 0x22, 0x11]))
      (fun t => (t.a, t.flags.toByte)) =
      some (0x00000000, 0xC0) := by decide

/-- `SBC AL, 0xFF`: spec/95_test_vectors.md, part 3. -/
theorem test_sbcI :
    after (step (placed [0x30, 0x3D, 0xFF] { State.reset with a := 0x00000000, flags := flagsOf 0x10 }))
      (fun t => t.flags.toByte) =
      some 0xF4 := by decide

/-- `SBC A, B`: spec/95_test_vectors.md, part 3. -/
theorem test_sbcR :
    after (step (placed [0x04, 0x3E] { State.reset with a := 0x00000000, b := 0xFFFFFFFF, flags := flagsOf 0x10 }))
      (fun t => t.flags.toByte) =
      some 0xF4 := by decide

/-- `SBC AW, [B]`: spec/95_test_vectors.md, part 3. -/
theorem test_sbcM :
    after (step (writeBytes (placed [0x14, 0x3F] { State.reset with a := 0x00000100, b := 0x80000000, flags := flagsOf 0x10 }) 0x80000000 [0xFF, 0x00]))
      (fun t => (t.a, t.flags.toByte)) =
      some (0x00000000, 0xE0) := by decide

/-- `AND AL, 0x0F`: spec/95_test_vectors.md, part 3. -/
theorem test_andI :
    after (step (placed [0x30, 0x40, 0x0F] { State.reset with a := 0x123456FF, flags := flagsOf 0xDC }))
      (fun t => (t.a, t.flags.toByte)) =
      some (0x1234560F, 0x20) := by decide

/-- `AND A, BW`: spec/95_test_vectors.md, part 3. -/
theorem test_andR :
    after (step (placed [0x05, 0x41] { State.reset with a := 0xFFFFFFFF, b := 0x12345678 }))
      (fun t => (t.a, t.flags.toByte)) =
      some (0x00005678, 0x20) := by decide

/-- `AND AW, [B]`: spec/95_test_vectors.md, part 3. -/
theorem test_andM :
    after (step (writeBytes (placed [0x14, 0x42] { State.reset with a := 0xFFFFFFFF, b := 0x80000000 }) 0x80000000 [0x0F, 0xF0, 0xFF]))
      (fun t => (t.a, t.flags.toByte)) =
      some (0xFFFFF00F, 0x20) := by decide

/-- `OR AL, 0x00`: spec/95_test_vectors.md, part 3. -/
theorem test_orI :
    after (step (placed [0x30, 0x43, 0x00] { State.reset with a := 0x00000000, flags := flagsOf 0x7C }))
      (fun t => t.flags.toByte) =
      some 0x80 := by decide

/-- `OR A, BL`: spec/95_test_vectors.md, part 3. -/
theorem test_orR :
    after (step (placed [0x07, 0x44] { State.reset with a := 0x11000000, b := 0xFFFFFF22 }))
      (fun t => (t.a, t.flags.toByte)) =
      some (0x11000022, 0x00) := by decide

/-- `OR AL, [B]`: spec/95_test_vectors.md, part 3. -/
theorem test_orM :
    after (step (writeBytes (placed [0x34, 0x45] { State.reset with a := 0x00000001, b := 0x80000000 }) 0x80000000 [0x02]))
      (fun t => (t.a, t.flags.toByte)) =
      some (0x00000003, 0x00) := by decide

/-- `OR AW, [B]`: spec/95_test_vectors.md, part 3. -/
theorem test_orM_2 :
    faultOf (step (placed [0x14, 0x45] { State.reset with b := 0xFFFFFFFF })) =
      some .addressWrap := by decide

/-- `XOR AW, 0xFFFF`: spec/95_test_vectors.md, part 3. -/
theorem test_xorI :
    after (step (placed [0x10, 0x46, 0xFF, 0xFF] { State.reset with a := 0x12345678 }))
      (fun t => (t.a, t.flags.toByte)) =
      some (0x1234A987, 0x00) := by decide

/-- `XOR A, A`: spec/95_test_vectors.md, part 3. -/
theorem test_xorR :
    after (step (placed [0x00, 0x47] { State.reset with a := 0x12345678 }))
      (fun t => (t.a, t.flags.toByte)) =
      some (0x00000000, 0x80) := by decide

/-- `XOR AL, [B]`: spec/95_test_vectors.md, part 3. -/
theorem test_xorM :
    after (step (writeBytes (placed [0x34, 0x48] { State.reset with a := 0x000000FF, b := 0x80000000 }) 0x80000000 [0x0F]))
      (fun t => (t.a, t.flags.toByte)) =
      some (0x000000F0, 0x00) := by decide

/-- `CMP AL, 0x10`: spec/95_test_vectors.md, part 3. -/
theorem test_cmpI :
    after (step (placed [0x30, 0x49, 0x10] { State.reset with a := 0x0000000F }))
      (fun t => t.flags.toByte) =
      some 0x54 := by decide

/-- `CMP AL, 0x10`: spec/95_test_vectors.md, part 3. -/
theorem test_cmpI_2 :
    after (step (placed [0x30, 0x49, 0x10] { State.reset with a := 0x00000011, flags := flagsOf 0x08 }))
      (fun t => t.flags.toByte) =
      some 0x40 := by decide

/-- `CMP A, BL`: spec/95_test_vectors.md, part 3. -/
theorem test_cmpR :
    after (step (placed [0x07, 0x4A] { State.reset with a := 0x000000FF, b := 0x123456FF }))
      (fun t => t.flags.toByte) =
      some 0xC0 := by decide

/-- `CMP AW, [B]`: spec/95_test_vectors.md, part 3. -/
theorem test_cmpM :
    after (step (writeBytes (placed [0x14, 0x4B] { State.reset with a := 0x00001000, b := 0x80000000 }) 0x80000000 [0x01, 0x10]))
      (fun t => t.flags.toByte) =
      some 0x74 := by decide

/-- `SLA AL`: spec/95_test_vectors.md, part 3. -/
theorem test_slaR :
    after (step (placed [0x30, 0x50] { State.reset with a := 0x00000081, flags := flagsOf 0x10 }))
      (fun t => (t.a, t.flags.toByte)) =
      some (0x00000002, 0x10) := by decide

/-- `SLA [B]`: spec/95_test_vectors.md, part 3. -/
theorem test_slaM :
    after (step (writeBytes (placed [0x04, 0x51] { State.reset with b := 0x80000000, flags := flagsOf 0x10 }) 0x80000000 [0x81, 0xFF]))
      (fun t => (t.flags.toByte, readBytes t 0x80000000 1)) =
      some (0x10, [0x02]) := by decide

/-- `SLA [B]`: spec/95_test_vectors.md, part 3. -/
theorem test_slaM_2 :
    faultOf (step (writeBytes (placed [0x04, 0x51] { State.reset with b := 0x00000000 }) 0x00000000 [0x54])) =
      some .romWrite := by decide

/-- `SRA AH`: spec/95_test_vectors.md, part 3. -/
theorem test_sraR :
    after (step (placed [0x20, 0x52] { State.reset with a := 0x00008000 }))
      (fun t => (t.a, t.flags.toByte)) =
      some (0x0000C000, 0x00) := by decide

/-- `SRA AW`: spec/95_test_vectors.md, part 3. -/
theorem test_sraR_2 :
    after (step (placed [0x10, 0x52] { State.reset with a := 0xFFFF8001, flags := flagsOf 0x10 }))
      (fun t => (t.a, t.flags.toByte)) =
      some (0xFFFFC000, 0x10) := by decide

/-- `SRA [B]`: spec/95_test_vectors.md, part 3. -/
theorem test_sraM :
    after (step (writeBytes (placed [0x04, 0x53] { State.reset with b := 0x80000000, flags := flagsOf 0x10 }) 0x80000000 [0x81, 0xFF]))
      (fun t => (t.flags.toByte, readBytes t 0x80000000 1)) =
      some (0x10, [0xC0]) := by decide

/-- `SRL AL`: spec/95_test_vectors.md, part 3. -/
theorem test_srlR :
    after (step (placed [0x30, 0x54] { State.reset with a := 0x00000001, flags := flagsOf 0x6C }))
      (fun t => (t.a, t.flags.toByte)) =
      some (0x00000000, 0x90) := by decide

/-- `SRL [B]`: spec/95_test_vectors.md, part 3. -/
theorem test_srlM :
    after (step (writeBytes (placed [0x04, 0x55] { State.reset with b := 0x80000000, flags := flagsOf 0x10 }) 0x80000000 [0x81, 0xFF]))
      (fun t => (t.flags.toByte, readBytes t 0x80000000 1)) =
      some (0x10, [0x40]) := by decide

/-- `RL AW`: spec/95_test_vectors.md, part 3. -/
theorem test_rlR :
    after (step (placed [0x10, 0x56] { State.reset with a := 0xFFFF8001, flags := flagsOf 0x10 }))
      (fun t => (t.a, t.flags.toByte)) =
      some (0xFFFF0003, 0x10) := by decide

/-- `RL [B]`: spec/95_test_vectors.md, part 3. -/
theorem test_rlM :
    after (step (writeBytes (placed [0x04, 0x57] { State.reset with b := 0x80000000, flags := flagsOf 0x10 }) 0x80000000 [0x81, 0xFF]))
      (fun t => (t.flags.toByte, readBytes t 0x80000000 1)) =
      some (0x10, [0x03]) := by decide

/-- `RLC AL`: spec/95_test_vectors.md, part 3. -/
theorem test_rlcR :
    after (step (placed [0x30, 0x58] { State.reset with a := 0x00000081 }))
      (fun t => (t.a, t.flags.toByte)) =
      some (0x00000003, 0x10) := by decide

/-- `RLC [B]`: spec/95_test_vectors.md, part 3. -/
theorem test_rlcM :
    after (step (writeBytes (placed [0x04, 0x59] { State.reset with b := 0x80000000, flags := flagsOf 0x10 }) 0x80000000 [0x81, 0xFF]))
      (fun t => (t.flags.toByte, readBytes t 0x80000000 1)) =
      some (0x10, [0x03]) := by decide

/-- `RR AL`: spec/95_test_vectors.md, part 3. -/
theorem test_rrR :
    after (step (placed [0x30, 0x5A] { State.reset with a := 0x00000081, flags := flagsOf 0x10 }))
      (fun t => (t.a, t.flags.toByte)) =
      some (0x000000C0, 0x10) := by decide

/-- `RR [B]`: spec/95_test_vectors.md, part 3. -/
theorem test_rrM :
    after (step (writeBytes (placed [0x04, 0x5B] { State.reset with b := 0x80000000, flags := flagsOf 0x10 }) 0x80000000 [0x81, 0xFF]))
      (fun t => (t.flags.toByte, readBytes t 0x80000000 1)) =
      some (0x10, [0xC0]) := by decide

/-- `RRC A`: spec/95_test_vectors.md, part 3. -/
theorem test_rrcR :
    after (step (placed [0x00, 0x5C] { State.reset with a := 0x80000001 }))
      (fun t => (t.a, t.flags.toByte)) =
      some (0xC0000000, 0x10) := by decide

/-- `RRC [B]`: spec/95_test_vectors.md, part 3. -/
theorem test_rrcM :
    after (step (writeBytes (placed [0x04, 0x5D] { State.reset with b := 0x80000000, flags := flagsOf 0x10 }) 0x80000000 [0x81, 0xFF]))
      (fun t => (t.flags.toByte, readBytes t 0x80000000 1)) =
      some (0x10, [0xC0]) := by decide

/-- `BIT 4, AL`: spec/95_test_vectors.md, part 3. -/
theorem test_bitR :
    after (step (placed [0x03, 0x60, 0x04] { State.reset with a := 0x0000000F, flags := flagsOf 0x5C }))
      (fun t => t.flags.toByte) =
      some 0xBC := by decide

/-- `BIT 8, AL`: spec/95_test_vectors.md, part 3. -/
theorem test_bitR_2 :
    faultOf (step (placed [0x03, 0x60, 0x08] State.reset)) =
      some .bitIndexRange := by decide

/-- `BIT 7, [B]`: spec/95_test_vectors.md, part 3. -/
theorem test_bitM :
    after (step (writeBytes (placed [0x04, 0x61, 0x07] { State.reset with b := 0x80000000 }) 0x80000000 [0x80]))
      (fun t => t.flags.toByte) =
      some 0x20 := by decide

/-- `BIT 8, [B]`: spec/95_test_vectors.md, part 3. -/
theorem test_bitM_2 :
    faultOf (step (placed [0x04, 0x61, 0x08] { State.reset with b := 0x80000000 })) =
      some .bitIndexRange := by decide

/-- `SET 0, AL`: spec/95_test_vectors.md, part 3. -/
theorem test_setR :
    after (step (placed [0x03, 0x62, 0x00] { State.reset with a := 0x00000001, flags := flagsOf 0xE0 }))
      (fun t => t.flags.toByte) =
      some 0x90 := by decide

/-- `SET 3, [B]`: spec/95_test_vectors.md, part 3. -/
theorem test_setM :
    after (step (writeBytes (placed [0x04, 0x63, 0x03] { State.reset with b := 0x80000000 }) 0x80000000 [0x01]))
      (fun t => (t.flags.toByte, readBytes t 0x80000000 1)) =
      some (0x10, [0x09]) := by decide

/-- `RES 7, AL`: spec/95_test_vectors.md, part 3. -/
theorem test_resR :
    after (step (placed [0x03, 0x64, 0x07] { State.reset with a := 0x000000FF, flags := flagsOf 0xFC }))
      (fun t => (t.a, t.flags.toByte)) =
      some (0x0000007F, 0xFC) := by decide

/-- `RES 0, [B]`: spec/95_test_vectors.md, part 3. -/
theorem test_resM :
    after (step (writeBytes (placed [0x04, 0x65, 0x00] { State.reset with b := 0x80000000 }) 0x80000000 [0x01]))
      (fun t => (t.flags.toByte, readBytes t 0x80000000 1)) =
      some (0x00, [0x00]) := by decide

/-- `SWAP AW`: spec/95_test_vectors.md, part 3. -/
theorem test_swapR :
    after (step (placed [0x10, 0x66] { State.reset with a := 0x11223344 }))
      (fun t => (t.a, t.flags.toByte)) =
      some (0x11224433, 0x00) := by decide

/-- `SWAP [B]`: spec/95_test_vectors.md, part 3. -/
theorem test_swapM :
    after (step (writeBytes (placed [0x04, 0x67] { State.reset with b := 0x80000000 }) 0x80000000 [0xA5]))
      (fun t => (t.flags.toByte, readBytes t 0x80000000 1)) =
      some (0x00, [0x5A]) := by decide

/-! ### Stop, halt and interrupt entry (60_exceptions.md R301, R307, R310, R311) -/

/-- A stopped CPU takes no interrupt (spec/95_test_vectors.md, part 3.8). -/
theorem test_stopped_stays :
    after (step (placed [0x30, 0x30]
      { State.reset with flags := flagsOf 0x01, ime := true, irq := [[0]] }))
      (fun t => (t.pc, t.a, t.flags.toByte)) = some (0x00003000, 0x00000000, 0x01) := by decide

/-- Halted with `IME` clear: a pending interrupt lifts the halt and the instruction runs. -/
theorem test_halt_lifted :
    after (step (placed [0x30, 0x30] { State.reset with flags := flagsOf 0x02, irq := [[5]] }))
      (fun t => (t.pc, t.a, t.flags.toByte)) = some (0x00003002, 0x00000001, 0x00) := by decide

/-- Halted with nothing pending: nothing changes. -/
theorem test_halt_waits :
    after (step (placed [0x30, 0x30] { State.reset with flags := flagsOf 0x02 }))
      (fun t => (t.pc, t.a, t.flags.toByte)) = some (0x00003000, 0x00000000, 0x02) := by decide

/-- Of interrupts 2, 7 and 15 the lowest is taken. -/
theorem test_interrupt_lowest_first :
    after (step (placed [0x30, 0x30] { State.reset with ime := true, irq := [[7, 2, 15]] }))
      (fun t => (t.pc, t.rp, t.ime, readBytes t 0xFFFEFFFB 4)) =
      some (0x00002200, 0xFFFB, false, [0x00, 0x30, 0x00, 0x00]) := by decide

/-- The entry faults when the call stack is full. -/
theorem test_interrupt_stack_full :
    faultOf (step (placed [0x30, 0x30]
      { State.reset with ime := true, rp := 0x0003, irq := [[3]] })) = some .callStackFull := by
  decide

/-- Code does not run from RAM (20_memory.md R64). -/
theorem test_fetch_from_ram :
    faultOf (step { State.reset with pc := 0x80000000 }) = some .fetchNotExecutable := by decide

/-- The placed instruction is the next one to run, whatever was pending. -/
theorem test_withFetchWord :
    after (step (({ State.reset with flags := flagsOf 0x03, ime := true, irq := [[3]] } :
      State).withFetchWord 24 0x2A1030)) (fun t => (t.a, t.pc)) =
      some (0x0000002A, 0x00003003) := by decide

/-- The fetch leaves the instruction's address in `IA` and its word in `CI` (10_state.md R35, R38). -/
theorem test_fetch_registers :
    after (step (placed [0x30, 0x10, 0x2A] State.reset)) (fun t => (t.ia, t.ci)) =
      some (0x00003000, 0x1030) := by decide

/-! ### Witnesses: states and operands that meet the hypotheses of the obligations -/

theorem witness_DecodeOfEncodeIsTheInstruction :
    (Instr.ldI ⟨.d, .lo⟩ 0xFF).wf = true ∧ (Instr.subI ⟨.a, .word⟩ 0xFFFF).wf = true ∧
    (Instr.jmpR .us ⟨.d, .lo⟩).wf = true ∧ (Instr.sec 0xFF).wf = true := by decide

theorem witness_DecodedBytesAreTheEncoding :
    decode [0xF0, 0x10, 0xFF, 0x00] = .ok (.ldI ⟨.d, .lo⟩ 0xFF, [0x00]) := rfl

/-- Words on both sides of each range of R108. -/
theorem witness_UnassignedWordsAreIllegal :
    decodeTableWord 16 0x0C00 = some .ccf ∧
    (∀ w ∈ [0x0D00, 0x0F00, 0x1400, 0x1600, 0x1A00, 0x1C00, 0x2700, 0x2F00, 0x4C00, 0x4F00,
      0x5E00, 0x5F00, 0x6800, 0xFE00, 0xFF00, 0xFFFE], decodeTableWord 16 w = none) ∧
    decodeTableWord 16 0xFFFF = some .jps ∧ decodeTableWord 16 0x4BFF = none ∧
    decodeTableWord 16 0x4B3F = some (.cmpM ⟨.a, .lo⟩ ⟨.d, .lo⟩) ∧
    decodeTableWord 16 0x6700 = some (.swapM ⟨.a, .long⟩) := by decide

theorem witness_NonzeroPatternDigitsAreReserved :
    (match decodeWord (opWord 0x00 0 1) with | .error r => some r | .ok _ => none) =
      some .reservedField ∧
    (match decodeWord (opWord 0x10 15 1) with | .error r => some r | .ok _ => none) =
      some .reservedField ∧
    (match decodeWord (opWord 0x17 1 15) with | .error r => some r | .ok _ => none) =
      some .reservedField ∧
    (match decodeWord (opWord 0x20 15 15) with | .error r => some r | .ok _ => none) =
      some .reservedField := by decide

theorem witness_BadConditionsAndNonAccumulatorsAreRejected :
    (match decodeWord (opWord 0x21 7 15) with | .error r => some r | .ok _ => none) =
      some .badCondition ∧
    (match decodeWord (opWord 0x25 15 0) with | .error r => some r | .ok _ => none) =
      some .badCondition ∧
    (match decodeWord (opWord 0x34 4 0) with | .error r => some r | .ok _ => none) =
      some .nonAccumulator ∧
    (match decodeWord (opWord 0x4B 15 15) with | .error r => some r | .ok _ => none) =
      some .nonAccumulator := by decide

/-- A six-byte instruction at the end of ROM. -/
theorem witness_StepRunsTheDecodedInstruction :
    let s := placed [0x00, 0x10, 0x44, 0x33, 0x22, 0x11] { State.reset with pc := 0x7FFFFFFA }
    runsInstruction s ∧ (Instr.ldI ⟨.a, .long⟩ 0x11223344).wf = true ∧
    decode (readBytes s s.pc.toNat 6) = .ok (.ldI ⟨.a, .long⟩ 0x11223344, []) ∧
    ∀ k, k < 6 → s.pc.toNat + k < 0x80000000 ∨
      (0xC0000000 ≤ s.pc.toNat + k ∧ s.pc.toNat + k ≤ 0xFFFCFFFF) :=
  ⟨by unfold runsInstruction; decide, by decide, rfl, by decide⟩

/-- A two-byte instruction at the end of XRAM, on a halted CPU that an interrupt wakes. -/
theorem witness_StepRunsTheDecodedInstruction_xram :
    let s := placed [0x00, 0x00]
      { State.reset with pc := 0xFFFCFFFE, flags := flagsOf 0x02, irq := [[3]] }
    runsInstruction s ∧ decode (readBytes s s.pc.toNat 2) = .ok (.nop, []) ∧
    ∀ k, k < 2 → s.pc.toNat + k < 0x80000000 ∨
      (0xC0000000 ≤ s.pc.toNat + k ∧ s.pc.toNat + k ≤ 0xFFFCFFFF) :=
  ⟨by unfold runsInstruction; decide, rfl, by decide⟩

theorem witness_StepFaultsOnRejectedWords :
    let s := placed [0x00, 0x0D] { State.reset with pc := 0x7FFFFFFE }
    let t := placed [0x70, 0x20] { State.reset with pc := 0xFFFCFFFE }
    (runsInstruction s ∧ s.pc.toNat + 1 < 0x80000000 ∧
      decodeWord (readByte s (s.pc.toNat + 1) ++ readByte s s.pc.toNat) = .error .illegalOpcode) ∧
    (runsInstruction t ∧ 0xC0000000 ≤ t.pc.toNat ∧ t.pc.toNat + 1 ≤ 0xFFFCFFFF ∧
      decodeWord (readByte t (t.pc.toNat + 1) ++ readByte t t.pc.toNat) = .error .badCondition) :=
  ⟨⟨by unfold runsInstruction; decide, by decide, rfl⟩,
    by unfold runsInstruction; decide, by decide, by decide, rfl⟩

/-- The first byte past ROM, the byte past XRAM, and the last byte of the address space. -/
theorem witness_FetchOutsideExecutableMemoryFaults :
    ∀ p ∈ [((0x7FFFFFFF : Long), 1), (0x80000000, 0), (0xBFFFFFFF, 0), (0xFFFCFFFF, 1),
        (0xFFFFFFFF, 0)],
      (({ State.reset with pc := p.1 } : State).flags.s = false ∧
        ({ State.reset with pc := p.1 } : State).flags.l = false ∧
        ({ State.reset with pc := p.1 } : State).ime = false) ∧
      p.2 < 2 ∧ p.1.toNat + p.2 < 0x100000000 ∧
      ¬ (p.1.toNat + p.2 < 0x80000000 ∨
        (0xC0000000 ≤ p.1.toNat + p.2 ∧ p.1.toNat + p.2 ≤ 0xFFFCFFFF)) := by decide

/-- `LD A, I` whose opcode word ends ROM (`t`: XRAM): the first and the last of its four immediate bytes. -/
theorem witness_FetchOutsideExecutableMemoryFaults_immediate :
    let s := placed [0x00, 0x10] { State.reset with pc := 0x7FFFFFFE }
    let t := placed [0x00, 0x10] { State.reset with pc := 0xFFFCFFFE }
    (runsInstruction s ∧ s.pc.toNat + 1 < 0x80000000 ∧
      decodeWord (readByte s (s.pc.toNat + 1) ++ readByte s s.pc.toNat) =
        .ok ⟨4, fun l => .ldI ⟨.a, .long⟩ (ImmKind.i.value 0x1000 l)⟩ ∧
      ¬ (s.pc.toNat + 2 < 0x80000000 ∨
        (0xC0000000 ≤ s.pc.toNat + 2 ∧ s.pc.toNat + 2 ≤ 0xFFFCFFFF))) ∧
    (runsInstruction t ∧ 0xC0000000 ≤ t.pc.toNat ∧ t.pc.toNat + 1 ≤ 0xFFFCFFFF ∧
      decodeWord (readByte t (t.pc.toNat + 1) ++ readByte t t.pc.toNat) =
        .ok ⟨4, fun l => .ldI ⟨.a, .long⟩ (ImmKind.i.value 0x1000 l)⟩ ∧
      ¬ (t.pc.toNat + 5 < 0x80000000 ∨
        (0xC0000000 ≤ t.pc.toNat + 5 ∧ t.pc.toNat + 5 ≤ 0xFFFCFFFF))) :=
  ⟨⟨by unfold runsInstruction; decide, by decide, rfl, by decide⟩,
    by unfold runsInstruction; decide, by decide, by decide, rfl, by decide⟩

theorem witness_StoppedCpuChangesNothing :
    ({ State.reset with flags := flagsOf 0x01, irq := [[0]] } : State).flags.s = true := by decide

theorem witness_HaltedCpuWaits :
    let s := { State.reset with flags := flagsOf 0x02, irq := [[], [1]] }
    s.flags.s = false ∧ s.flags.l = true ∧ pendingNow s = [] := by decide

theorem witness_PendingInterruptLiftsTheHalt :
    let s := { State.reset with flags := flagsOf 0x02, irq := [[1]] }
    s.flags.l = true ∧ pendingNow s ≠ [] ∧ s.flags.s = false := by decide

/-- A CPU with interrupts 2, 7 and 15 pending and enabled, and this return pointer. -/
def interrupted (rp : Word) : State :=
  { State.reset with ime := true, rp := rp, irq := [[7, 2, 15]] }

/-- Both sides of the stack check: `RP` 4 and `RP` 3. -/
theorem witness_InterruptEntrySavesPcAndJumps :
    (∀ rp, (interrupted rp).flags.s = false ∧ (interrupted rp).ime = true ∧
      (2 : InterruptNumber) ∈ pendingNow (interrupted rp) ∧
      ∀ m ∈ pendingNow (interrupted rp), (2 : InterruptNumber) ≤ m) ∧
    4 ≤ (interrupted 0x0004).rp.toNat ∧ (interrupted 0x0003).rp.toNat < 4 := by
  have h : ∀ m ∈ ([7, 2, 15] : List InterruptNumber), (2 : InterruptNumber) ≤ m := by decide
  exact ⟨fun rp => ⟨rfl, rfl, .tail _ (.head _), h⟩, by decide, by decide⟩

/-- The last byte of ROM, the first of RAM and the last below the hardware-register page. -/
theorem witness_ResetGivesTheInitialValues :
    (0x7FFFFFFF : Nat) < 0x80000000 ∧ (0x80000000 : Nat) ≤ 0x80000000 ∧
    (0xFFFFFEFF : Nat) < 0xFFFFFF00 := by decide

theorem witness_StepKeepsTheInvariant :
    (placed [0x01, 0x1E] State.reset).inv ∧
    ∃ t, step (placed [0x01, 0x1E] State.reset) = .next t :=
  ⟨⟨by decide, by decide, by decide⟩, exists_next (by decide)⟩

theorem witness_RomNeverChanges :
    ∃ t, step (placed [0x40, 0x18] { State.reset with b := 0x80000000 }) = .next t ∧
      (0x7FFFFFFF : Nat) < 0x80000000 := by
  obtain ⟨t, h⟩ := exists_next
    (r := step (placed [0x40, 0x18] { State.reset with b := 0x80000000 })) (by decide)
  exact ⟨t, h, by decide⟩

/-- Each of the three ways to stop. -/
theorem witness_StopFlagOnlySetByStopCauses :
    ∀ l ∈ [([0x00, 0x01] : List Byte), [0x00, 0x25], [0x00, 0x26]],
      (placed l State.reset).flags.s = false ∧
      after (step (placed l State.reset)) (fun t => t.flags.s) = some true := by decide

theorem witness_HaltFlagOnlySetByHalt :
    (placed [0x00, 0x02] State.reset).flags.l = false ∧
    after (step (placed [0x00, 0x02] State.reset)) (fun t => t.flags.l) = some true := by decide

theorem witness_FlagsChangeAsTheFlagStringsSay :
    ∃ t, exec (.addI ⟨.a, .lo⟩ 0x01) { State.reset with a := 0xFF } = .next t := ⟨_, rfl⟩

theorem witness_NothingReadsTheInternalRegisters :
    ∃ (ec : Byte) (ia ma md : Long) (ci : Word) (da : Bool),
      ({ State.reset with ec := 0x2A, ia := 1, ma := 2, md := 3, ci := 4, da := true } : State) =
        { State.reset with ec := ec, ia := ia, ma := ma, md := md, ci := ci, da := da } :=
  ⟨0x2A, 1, 2, 3, 4, true, rfl⟩

/-- The last legal address of each size and the first that wraps. -/
theorem witness_MemReadIsLittleEndianOrWraps :
    (0xFFFFFFFF : Long).toNat + 1 ≤ 0x100000000 ∧ (0xFFFFFFFE : Long).toNat + 2 ≤ 0x100000000 ∧
    (0xFFFFFFFC : Long).toNat + 4 ≤ 0x100000000 ∧ 0x100000000 < (0xFFFFFFFF : Long).toNat + 2 ∧
    0x100000000 < (0xFFFFFFFD : Long).toNat + 4 := by decide

/-- The ends of the three ranges of a write of a long, and of a byte. -/
theorem witness_MemWriteIsLittleEndianOrFaults :
    ((0xFFFFFFFC : Long).toNat + 4 ≤ 0x100000000 ∧ 0x80000000 ≤ (0xFFFFFFFC : Long).toNat) ∧
    ((0x80000000 : Long).toNat + 4 ≤ 0x100000000 ∧ 0x80000000 ≤ (0x80000000 : Long).toNat) ∧
    0x100000000 < (0xFFFFFFFD : Long).toNat + 4 ∧
    ((0x7FFFFFFF : Long).toNat + 1 ≤ 0x100000000 ∧ (0x7FFFFFFF : Long).toNat < 0x80000000) := by
  decide

theorem witness_ReadAfterWriteGivesTheValue :
    (0xFFFFFEFC : Long).toNat + 4 ≤ 0xFFFFFF00 ∧
    ∃ t, memWrite State.reset 0xFFFFFEFC 4 0x11223344 = .ok t := ⟨by decide, _, rfl⟩

theorem witness_ComplementsInvertTheAccumulator :
    ((Instr.cpl = .cpl ∧ Part.long = .long) ∨ (Instr.cpl = .cpw ∧ Part.long = .word) ∨
      (Instr.cpl = .cpb ∧ Part.long = .lo)) ∧
    ((Instr.cpb = .cpl ∧ Part.lo = .long) ∨ (Instr.cpb = .cpw ∧ Part.lo = .word) ∨
      (Instr.cpb = .cpb ∧ Part.lo = .lo)) := by decide

theorem witness_CarryFlagInstructions :
    let s := { State.reset with flags := flagsOf 0x10 }
    ((Instr.scf = .scf ∧ true = true) ∨ (Instr.scf = .ccf ∧ true = !s.flags.c)) ∧
    ((Instr.ccf = .scf ∧ false = true) ∨ (Instr.ccf = .ccf ∧ false = !s.flags.c)) := by decide

theorem witness_DaaTiesFlagsToTheAdjustment :
    ∃ r wrapped, Config.daaFn (State.reset.a.extractLsb' 0 8) State.reset.flags.n
      State.reset.flags.h State.reset.flags.c = (r, wrapped) := ⟨_, _, rfl⟩

theorem witness_LoadImmediateAndMove :
    immFits ⟨.a, .hi⟩ 0xFF = true ∧ immFits ⟨.a, .word⟩ 0xFFFF = true ∧
    immFits ⟨.a, .long⟩ 0xFFFFFFFF = true := by decide

/-- Each of the four loads, at the last address that does not wrap and at the first that does. -/
theorem witness_LoadsReadTheirAddress :
    let s := { State.reset with b := 0xFFFFFFFC, c := 0xFFFFFFFD }
    ((∃ a : Long, Instr.ldA32 ⟨.a, .long⟩ 0xFFFFFFFC = .ldA32 ⟨.a, .long⟩ a ∧
      0xFFFFFFFC = a.toNat) ∧ 0xFFFFFFFC + Width.long.bytes ≤ 0x100000000) ∧
    ((∃ y, Instr.ldM ⟨.a, .long⟩ ⟨.b, .long⟩ = .ldM ⟨.a, .long⟩ y ∧
      0xFFFFFFFC = (readReg s y).toNat) ∧ 0xFFFFFFFC + Width.long.bytes ≤ 0x100000000) ∧
    ((∃ y, Instr.ldM ⟨.a, .long⟩ ⟨.c, .long⟩ = .ldM ⟨.a, .long⟩ y ∧
      0xFFFFFFFD = (readReg s y).toNat) ∧ 0x100000000 < 0xFFFFFFFD + Width.long.bytes) ∧
    ((∃ off : Word, Instr.ldq ⟨.a, .word⟩ 0xFFFE = .ldq ⟨.a, .word⟩ off ∧
      0xFFFFFFFE = 0xFFFF0000 + off.toNat) ∧ 0xFFFFFFFE + Width.word.bytes ≤ 0x100000000) ∧
    ((∃ off : Byte, Instr.ldh ⟨.a, .lo⟩ 0xFF = .ldh ⟨.a, .lo⟩ off ∧
      0xFFFFFFFF = 0xFFFFFF00 + off.toNat) ∧ 0xFFFFFFFF + Width.byte.bytes ≤ 0x100000000) :=
  ⟨⟨⟨_, rfl, by decide⟩, by decide⟩, ⟨⟨_, rfl, by decide⟩, by decide⟩,
    ⟨⟨_, rfl, by decide⟩, by decide⟩, ⟨⟨_, rfl, by decide⟩, by decide⟩,
    ⟨_, rfl, by decide⟩, by decide⟩

/-- Each of the four stores, and both faults. -/
theorem witness_StoresWriteTheirAddress :
    let s := { State.reset with b := 0x80000000 }
    ((∃ a : Long, Instr.stA32 0x7FFFFFFF ⟨.a, .lo⟩ = .stA32 a ⟨.a, .lo⟩ ∧ 0x7FFFFFFF = a.toNat) ∧
      0x7FFFFFFF + Width.byte.bytes ≤ 0x100000000 ∧ 0x7FFFFFFF < 0x80000000) ∧
    ((∃ x, Instr.stM ⟨.b, .long⟩ ⟨.a, .long⟩ = .stM x ⟨.a, .long⟩ ∧
      0x80000000 = (readReg s x).toNat) ∧
      0x80000000 + Width.long.bytes ≤ 0x100000000 ∧ 0x80000000 ≤ 0x80000000) ∧
    ((∃ off : Word, Instr.stq 0xFFFD ⟨.a, .long⟩ = .stq off ⟨.a, .long⟩ ∧
      0xFFFFFFFD = 0xFFFF0000 + off.toNat) ∧ 0x100000000 < 0xFFFFFFFD + Width.long.bytes) ∧
    ((∃ off : Byte, Instr.sth 0xFF ⟨.a, .lo⟩ = .sth off ⟨.a, .lo⟩ ∧
      0xFFFFFFFF = 0xFFFFFF00 + off.toNat) ∧
      0xFFFFFFFF + Width.byte.bytes ≤ 0x100000000 ∧ 0x80000000 ≤ 0xFFFFFFFF) :=
  ⟨⟨⟨_, rfl, by decide⟩, by decide⟩, ⟨⟨_, rfl, by decide⟩, by decide⟩,
    ⟨⟨_, rfl, by decide⟩, by decide⟩, ⟨_, rfl, by decide⟩, by decide⟩

theorem witness_PushStoresALongBelowTheTop :
    4 ≤ ({ State.reset with sp := 0x0004 } : State).sp.toNat ∧
    ({ State.reset with sp := 0x0003 } : State).sp.toNat < 4 := by decide

theorem witness_PopLoadsTheTopLong :
    ({ State.reset with sp := 0xFFFB } : State).sp ≠ 0xFFFF ∧ State.reset.sp = 0xFFFF := by decide

theorem witness_PushThenPopRestores :
    ∃ t, exec (.push ⟨.a, .word⟩) { State.reset with sp := 0x0007 } = .next t :=
  exists_next (by decide)

theorem witness_FalseConditionDoesNothing :
    condHolds .cs State.reset.flags = false ∧ condHolds .zs State.reset.flags = false := by decide

theorem witness_JumpsMoveOnlyPc :
    condHolds .n State.reset.flags = true ∧ condHolds .zc State.reset.flags = true := by decide

/-- `CALL` and `RST`, with room for one more return address and without. -/
theorem witness_CallsPushTheReturnAddress :
    let s := { State.reset with rp := 0x0004 }
    let t := { State.reset with rp := 0x0003 }
    ((∃ c a, Instr.call .zc 0x4000 = .call c a ∧ condHolds c s.flags = true ∧ 0x4000 = a.toNat) ∧
      4 ≤ s.rp.toNat) ∧
    ((∃ v : BitVec 4, Instr.rst 15 = .rst v ∧ 0x1F00 = 0x00001000 + 0x100 * v.toNat) ∧
      t.rp.toNat < 4) :=
  ⟨⟨⟨_, _, rfl, by decide, by decide⟩, by decide⟩, ⟨_, rfl, by decide⟩, by decide⟩

theorem witness_ReturnsPopTheReturnAddress :
    ({ State.reset with rp := 0xFFFB } : State).rp ≠ 0xFFFF ∧
    condHolds .cc State.reset.flags = true := by decide

theorem witness_ReturnOnEmptyCallStackStops :
    State.reset.rp = 0xFFFF ∧ condHolds .n State.reset.flags = true := by decide

/-- A `CALL` and a `RET` with different conditions. -/
theorem witness_CallThenReturnComesBack :
    condHolds .n State.reset.flags = true ∧
    ∃ t, exec (.call .n 0x4000) { State.reset with rp := 0x0007 } = .next t ∧
      condHolds .cc t.flags = true :=
  ⟨by decide, exists_next_and (p := fun t => condHolds .cc t.flags) (by decide)⟩

/-- The state with a long at `0x80000000` and its address in `B`. -/
def withLong : State :=
  writeBytes { State.reset with a := 0x01, b := 0x80000000, flags := flagsOf 0x10 } 0x80000000
    [0xFF, 0xFF, 0xFF, 0x7F]

/-- The immediate, the register and the memory form of `ADD` and `ADC`, at the largest immediate. -/
theorem witness_AddAndAdcResultAndFlags :
    takesOperand .addI .addR .addM (.addI ⟨.a, .lo⟩ 0xFF) ⟨.a, .lo⟩ withLong 0xFF withLong ∧
    takesOperand .adcI .adcR .adcM (.adcR ⟨.a, .lo⟩ ⟨.b, .long⟩) ⟨.a, .lo⟩ withLong 0x00 withLong ∧
    takesOperand .adcI .adcR .adcM (.adcM ⟨.a, .long⟩ ⟨.b, .long⟩) ⟨.a, .long⟩ withLong 0x7FFFFFFF
      withLong ∧ withLong.flags.c.toNat = 1 :=
  ⟨.inl ⟨rfl, by decide, rfl⟩, .inr (.inl ⟨_, rfl, by decide, rfl⟩), .inr (.inr ⟨_, rfl, rfl⟩),
    by decide⟩

theorem witness_SubAndSbcResultAndFlags :
    takesOperand .subI .subR .subM (.subI ⟨.a, .lo⟩ 0xFF) ⟨.a, .lo⟩ withLong 0xFF withLong ∧
    takesOperand .sbcI .sbcR .sbcM (.sbcR ⟨.a, .lo⟩ ⟨.b, .long⟩) ⟨.a, .lo⟩ withLong 0x00 withLong ∧
    takesOperand .sbcI .sbcR .sbcM (.sbcM ⟨.a, .long⟩ ⟨.b, .long⟩) ⟨.a, .long⟩ withLong 0x7FFFFFFF
      withLong :=
  ⟨.inl ⟨rfl, by decide, rfl⟩, .inr (.inl ⟨_, rfl, by decide, rfl⟩), .inr (.inr ⟨_, rfl, rfl⟩)⟩

theorem witness_CompareWritesOnlyFlags :
    takesOperand .cmpI .cmpR .cmpM (.cmpI ⟨.a, .lo⟩ 0xFF) ⟨.a, .lo⟩ withLong 0xFF withLong ∧
    takesOperand .cmpI .cmpR .cmpM (.cmpR ⟨.a, .lo⟩ ⟨.b, .long⟩) ⟨.a, .lo⟩ withLong 0x00 withLong ∧
    takesOperand .cmpI .cmpR .cmpM (.cmpM ⟨.a, .long⟩ ⟨.b, .long⟩) ⟨.a, .long⟩ withLong 0x7FFFFFFF
      withLong :=
  ⟨.inl ⟨rfl, by decide, rfl⟩, .inr (.inl ⟨_, rfl, by decide, rfl⟩), .inr (.inr ⟨_, rfl, rfl⟩)⟩

theorem witness_BitwiseResultAndFlags :
    takesOperand .andI .andR .andM (.andI ⟨.a, .lo⟩ 0xFF) ⟨.a, .lo⟩ withLong 0xFF withLong ∧
    takesOperand .orI .orR .orM (.orR ⟨.a, .lo⟩ ⟨.b, .long⟩) ⟨.a, .lo⟩ withLong 0x00 withLong ∧
    takesOperand .xorI .xorR .xorM (.xorM ⟨.a, .long⟩ ⟨.b, .long⟩) ⟨.a, .long⟩ withLong 0x7FFFFFFF
      withLong :=
  ⟨.inl ⟨rfl, by decide, rfl⟩, .inr (.inl ⟨_, rfl, by decide, rfl⟩), .inr (.inr ⟨_, rfl, rfl⟩)⟩

theorem witness_IncrementRegister :
    Reg.width ⟨.a, .lo⟩ ≠ .long ∧ Reg.width ⟨.a, .word⟩ ≠ .long := by decide

/-- The first address of RAM and the last of the address space. -/
theorem witness_IncrementAndDecrementMemory :
    0x80000000 ≤ (readReg { State.reset with b := 0x80000000 } ⟨.b, .long⟩).toNat ∧
    0x80000000 ≤ (readReg { State.reset with b := 0xFFFFFFFF } ⟨.b, .long⟩).toNat := by decide

theorem witness_MemoryFormsFaultOnBadAddresses :
    0x100000000 < (readReg { State.reset with b := 0xFFFFFFFF } ⟨.b, .long⟩).toNat +
      (Reg.width ⟨.a, .word⟩).bytes ∧
    (readReg { State.reset with b := 0x7FFFFFFF } ⟨.b, .long⟩).toNat < 0x80000000 ∧
    (7 : Byte).toNat < 8 := by decide

theorem witness_ShiftsMoveEveryBitByOne :
    (0xFF : Long).toNat < 2 ^ Width.byte.bits ∧ 0 < Width.byte.bits ∧ 7 < Width.byte.bits ∧
    (0xFFFFFFFF : Long).toNat < 2 ^ Width.long.bits ∧ 31 < Width.long.bits := by decide

theorem witness_ShiftRegisterForms :
    (Instr.rrcR ⟨.d, .hi⟩, ShiftKind.rrc) ∈
      [(Instr.slaR ⟨.d, .hi⟩, ShiftKind.sla), (.sraR ⟨.d, .hi⟩, .sra), (.srlR ⟨.d, .hi⟩, .srl),
        (.rlR ⟨.d, .hi⟩, .rl), (.rlcR ⟨.d, .hi⟩, .rlc), (.rrR ⟨.d, .hi⟩, .rr),
        (.rrcR ⟨.d, .hi⟩, .rrc)] := by decide

theorem witness_ShiftMemoryForms :
    0x80000000 ≤ (readReg { State.reset with b := 0x80000000 } ⟨.b, .long⟩).toNat ∧
    (Instr.slaM ⟨.b, .long⟩, ShiftKind.sla) ∈
      [(Instr.slaM ⟨.b, .long⟩, ShiftKind.sla), (.sraM ⟨.b, .long⟩, .sra),
        (.srlM ⟨.b, .long⟩, .srl), (.rlM ⟨.b, .long⟩, .rl), (.rlcM ⟨.b, .long⟩, .rlc),
        (.rrM ⟨.b, .long⟩, .rr), (.rrcM ⟨.b, .long⟩, .rrc)] := by decide

/-- Eight `RLC AL` and nine `RL AL`, each with a result in between that differs. -/
theorem test_rotates_come_round :
    after (execTimes (.rlcR ⟨.a, .lo⟩) 8 { State.reset with a := 0x81 }) (fun t => t.a) = some 0x81 ∧
    after (execTimes (.rlcR ⟨.a, .lo⟩) 1 { State.reset with a := 0x81 }) (fun t => t.a) = some 0x03 ∧
    after (execTimes (.rlR ⟨.a, .lo⟩) 9 { State.reset with a := 0x81 }) (fun t => (t.a, t.flags.c)) =
      some (0x81, false) ∧
    after (execTimes (.rlR ⟨.a, .lo⟩) 8 { State.reset with a := 0x81 }) (fun t => t.a) =
      some 0x40 := by decide

/-- The last bit of a register of each width, and of a byte in memory. -/
theorem witness_BitTestsTheBit :
    (7 : Byte).toNat < (Reg.width ⟨.a, .hi⟩).bits ∧ (15 : Byte).toNat < (Reg.width ⟨.b, .word⟩).bits ∧
    (31 : Byte).toNat < (Reg.width ⟨.c, .long⟩).bits ∧ (7 : Byte).toNat < 8 := by decide

theorem witness_SetAndResetRegisterBit :
    (0 : Byte).toNat < (Reg.width ⟨.a, .lo⟩).bits ∧
    (31 : Byte).toNat < (Reg.width ⟨.d, .long⟩).bits := by decide

theorem witness_SetAndResetMemoryBit :
    (7 : Byte).toNat < 8 ∧
    0x80000000 ≤ (readReg { State.reset with b := 0x80000000 } ⟨.b, .long⟩).toNat := by decide

/-- The first bit number out of range for each width. -/
theorem witness_BitNumberOutOfRangeFaults :
    (Reg.width ⟨.a, .lo⟩).bits ≤ (8 : Byte).toNat ∧ (Reg.width ⟨.a, .word⟩).bits ≤ (16 : Byte).toNat ∧
    (Reg.width ⟨.a, .long⟩).bits ≤ (32 : Byte).toNat ∧ 8 ≤ (8 : Byte).toNat := by decide

theorem witness_SwapExchangesHalves :
    0x80000000 ≤ (readReg { State.reset with b := 0x80000000 } ⟨.b, .long⟩).toNat := by decide

end Sys2Proof.Tests
end

section
/-! The general instructions that write only flags, or the accumulator with `N` and `H`: `STOP`, `HALT`,
`CPL`, `CPW`, `CPB`, `SCF`, `CCF` (spec/40_general.md R141, R142, R148 to R152). -/

namespace Sys2Proof

/-- A word of format `Z` decodes to the instruction of its op byte, with no immediate (R102, R111). -/
theorem decodeWord_wordZ {op : Byte} {i : Instr} (hf : formatOf op = some (.z i)) :
    decodeWord (wordZ op) = .ok ⟨0, fun _ => i⟩ := by
  have hop : op ≠ 0xFF := by
    rintro rfl
    cases hf
  rw [wordZ, decodeWord_opWord 0 0 hop hf]
  simp [decodeFormat]

end Sys2Proof

namespace Sys2Proof.Machine

/-! ### Frames of a change of flags -/

/-- A change of the flags keeps everything else, and every flag that it leaves as it was. -/
theorem sameExcept_setFlags {l : List Field} (s : State) (f : Flags)
    (hz : .z ∉ l → f.z = s.flags.z) (hn : .n ∉ l → f.n = s.flags.n)
    (hh : .h ∉ l → f.h = s.flags.h) (hc : .c ∉ l → f.c = s.flags.c)
    (ho : .o ∉ l → f.o = s.flags.o) (hu : .u ∉ l → f.u = s.flags.u)
    (hl : .l ∉ l → f.l = s.flags.l) (hs : .s ∉ l → f.s = s.flags.s) :
    sameExcept l s { s with flags := f } := by
  intro x hx
  cases x with
  | z => exact hz hx
  | n => exact hn hx
  | h => exact hh hx
  | c => exact hc hx
  | o => exact ho hx
  | u => exact hu hx
  | l => exact hl hx
  | s => exact hs hx
  | long r => cases r <;> rfl
  | mem => exact fun _ => rfl
  | _ => rfl

/-- `SCF` and `CCF` keep `Z`, `L`, `S` and everything that is no flag (R151, R152). -/
theorem sameExcept_carryFlags (carry : Bool) (s : State) :
    sameExcept [.n, .h, .c, .o, .u] s { s with flags := carryFlags carry s.flags } := by
  apply sameExcept_setFlags <;> simp [carryFlags]

/-- The complements keep every flag but `N` and `H` (R148). -/
theorem sameExcept_complementFlags (s : State) :
    sameExcept [.n, .h] s { s with flags := complementFlags s.flags } := by
  apply sameExcept_setFlags <;> simp [complementFlags]

/-! ### Complements -/

/-- What `CPL`, `CPW` and `CPB` do to a register of a width and to the flags (R148 to R150). -/
def complementOp (w : Width) : UnaryOp := fun a f =>
  (a ^^^ BitVec.ofNat 32 (2 ^ w.bits - 1), complementFlags f)

/-- Flipping the low `n` bits of a number of `n` bits subtracts it from the largest such number. -/
theorem xor_two_pow_sub_one {a n : Nat} (h : a < 2 ^ n) : a ^^^ (2 ^ n - 1) = 2 ^ n - 1 - a := by
  simpa only [BitVec.toNat_xor, BitVec.toNat_allOnes, BitVec.toNat_not, BitVec.toNat_ofNatLT] using
    congrArg BitVec.toNat (BitVec.xor_allOnes (x := BitVec.ofNatLT a h))

/-- The complement of a value that fits its width, as a number (R148 to R150). -/
theorem complementOp_fst (w : Width) {a : Long} (f : Flags) (h : a.toNat < 2 ^ w.bits) :
    (complementOp w a f).1 = BitVec.ofNat 32 (2 ^ w.bits - 1 - a.toNat) := by
  rw [← xor_two_pow_sub_one h, BitVec.ofNat_xor, BitVec.ofNat_toNat, BitVec.setWidth_eq]
  rfl

theorem complementOp_fst_lt (w : Width) {a : Long} (f : Flags) (h : a.toNat < 2 ^ w.bits) :
    (complementOp w a f).1.toNat < 2 ^ w.bits := by
  have hw := modulus_le w
  rw [complementOp_fst w f h, BitVec.toNat_ofNat]
  omega

/-- The complement of a register, said once: its value, the two flags, the frame (R148 to R150). -/
theorem modifyReg_complementOp_spec (s : State) (x : Reg) :
    regBecomes x (BitVec.ofNat 32 (2 ^ x.width.bits - 1 - (readReg s x).toNat)) s
        (modifyReg s x (complementOp x.width)) ∧
      (modifyReg s x (complementOp x.width)).flags = complementFlags s.flags ∧
      sameExcept [.long x.row, .n, .h] s (modifyReg s x (complementOp x.width)) := by
  have hfit := readReg_lt s x
  refine ⟨?_, rfl, ?_⟩
  · have hreg := (modifyReg_spec s x (complementOp x.width)).1
    rwa [truncTo_of_lt (complementOp_fst_lt _ _ hfit), complementOp_fst _ _ hfit] at hreg
  · have hwrite := sameExcept_writeReg s x (complementOp x.width (readReg s x) s.flags).1
    have hflags := sameExcept_complementFlags
      (writeReg s x (complementOp x.width (readReg s x) s.flags).1)
    rw [writeReg_flags] at hflags
    exact sameExcept_trans (sameExcept_mono hwrite (by simp)) (sameExcept_mono hflags (by simp))

/-! ### The instructions -/

theorem exec_stop (s : State) : exec .stop s = .next { s with flags := { s.flags with s := true } } :=
  rfl

theorem exec_halt (s : State) : exec .halt s = .next { s with flags := { s.flags with l := true } } :=
  rfl

theorem exec_cpl (s : State) : exec .cpl s = .next (modifyReg s ⟨.a, .long⟩ (complementOp .long)) :=
  rfl

theorem exec_cpw (s : State) : exec .cpw s = .next (modifyReg s ⟨.a, .word⟩ (complementOp .word)) :=
  rfl

theorem exec_cpb (s : State) : exec .cpb s = .next (modifyReg s ⟨.a, .lo⟩ (complementOp .byte)) :=
  rfl

theorem exec_scf (s : State) : exec .scf s = .next { s with flags := carryFlags true s.flags } :=
  rfl

theorem exec_ccf (s : State) :
    exec .ccf s = .next { s with flags := carryFlags (!s.flags.c) s.flags } :=
  rfl

/-- Settles O27: each instruction changes one flag of `F`. -/
theorem stopAndHaltSetTheirFlag : Obligations.StopAndHaltSetTheirFlag := by
  intro s
  refine ⟨⟨_, exec_stop s, rfl, ?_⟩, ⟨_, exec_halt s, rfl, ?_⟩, decodeWord_wordZ (op := 0x01) rfl,
    decodeWord_wordZ (op := 0x02) rfl⟩
  · apply sameExcept_setFlags <;> simp
  · apply sameExcept_setFlags <;> simp

/-- Settles O28: all three complement a part of `A` at its width. -/
theorem complementsInvertTheAccumulator : Obligations.ComplementsInvertTheAccumulator := by
  intro s i p hi
  refine ⟨decodeWord_wordZ (op := 0x08) rfl, decodeWord_wordZ (op := 0x09) rfl,
    decodeWord_wordZ (op := 0x0A) rfl, ?_⟩
  have hexec : exec i s = .next (modifyReg s ⟨.a, p⟩ (complementOp p.width)) := by
    obtain ⟨rfl, rfl⟩ | ⟨rfl, rfl⟩ | ⟨rfl, rfl⟩ := hi
    · exact exec_cpl s
    · exact exec_cpw s
    · exact exec_cpb s
  obtain ⟨hreg, hflags, hframe⟩ := modifyReg_complementOp_spec s ⟨.a, p⟩
  exact ⟨_, hexec, hreg, congrArg Flags.n hflags, congrArg Flags.h hflags, hframe⟩

/-- Settles O29: both put a carry into the flags and clear the same four. -/
theorem carryFlagInstructions : Obligations.CarryFlagInstructions := by
  intro s i carry hi
  refine ⟨decodeWord_wordZ (op := 0x0B) rfl, decodeWord_wordZ (op := 0x0C) rfl, ?_⟩
  have hexec : exec i s = .next { s with flags := carryFlags carry s.flags } := by
    obtain ⟨rfl, rfl⟩ | ⟨rfl, rfl⟩ := hi
    · exact exec_scf s
    · exact exec_ccf s
  exact ⟨_, hexec, rfl, rfl, rfl, rfl, rfl, sameExcept_carryFlags carry s⟩

end Sys2Proof.Machine
end

section
/-! `DEC X` (spec/43_arithmetic.md R205): its word, the value it leaves, its flags and its frame. -/

namespace Sys2Proof

/-- A word of format `RX` with no immediate and the second digit 0 decodes to the instruction of its op byte
on the register that the first digit names (R102, R111). -/
theorem decodeWord_opWord_rx_absent {op : Byte} {mk : Reg → Long → Instr} {i : Reg → Instr} (d : BitVec 4)
    (hf : formatOf op = some (.rx .absent mk)) (hmk : ∀ x v, mk x v = i x) :
    decodeWord (opWord op d 0) = .ok ⟨0, fun _ => i (regOfDigit d)⟩ := by
  have hop : op ≠ 0xFF := by
    rintro rfl
    cases hf
  rw [decodeWord_opWord d 0 hop hf]
  simp [decodeFormat, hmk]

end Sys2Proof

namespace Sys2Proof.Machine

theorem exec_decR (x : Reg) (s : State) : exec (.decR x) s = .next (modifyReg s x (decCore x.width)) :=
  rfl

/-- A one-operand instruction on a register changes its long and what its operation changes of the flags
(R265). -/
theorem sameExcept_modifyReg {l : List Field} {op : UnaryOp} (s : State) (x : Reg)
    (hop : ∀ t a, sameExcept l t { t with flags := (op a t.flags).2 }) :
    sameExcept (.long x.row :: l) s (modifyReg s x op) := by
  have hwrite := sameExcept_writeReg s x (op (readReg s x) s.flags).1
  have hflags := hop (writeReg s x (op (readReg s x) s.flags).1) (readReg s x)
  rw [writeReg_flags] at hflags
  exact sameExcept_trans (sameExcept_mono hwrite (by simp)) (sameExcept_mono hflags (by simp))

/-- A decrement keeps every flag but `Z`, `N` and `H` (R205). -/
theorem sameExcept_decCoreFlags (w : Width) (s : State) (a : Long) :
    sameExcept [.z, .n, .h] s { s with flags := (decCore w a s.flags).2 } := by
  apply sameExcept_setFlags <;> simp [decCore]

/-- The result of a decrement is the operand minus 1 modulo `2^w` (R205). -/
theorem decCore_fst_toNat (w : Width) (a : Long) (f : Flags) :
    ((decCore w a f).1.toNat : Int) = (a.toNat - 1) % 2 ^ w.bits := by
  have hdiff := difference_eq w a 1 false
  rw [← narrow_difference_toNat] at hdiff
  simpa [decCore] using hdiff

theorem decCore_fst_lt (w : Width) (a : Long) (f : Flags) :
    (decCore w a f).1.toNat < 2 ^ w.bits := narrow_lt _ _

/-- `Z` of a decrement says that the result is zero (R205). -/
theorem decCore_z_iff (w : Width) (a : Long) (f : Flags) :
    (decCore w a f).2.z = true ↔ (decCore w a f).1 = 0 := by
  simp only [decCore, decide_eq_true_eq]
  rw [narrow_eq_zero, Nat.mod_eq_of_lt (difference_lt w a 1 false)]

/-- `H` of a decrement says that the lower half was zero (R205). -/
theorem decCore_h_iff (w : Width) (a : Long) (f : Flags) :
    (decCore w a f).2.h = true ↔ a.toNat % 2 ^ w.half = 0 := by
  simp only [decCore, decide_eq_true_eq]

/-- The register a decrement is applied to takes its result, which fits. -/
theorem regBecomes_modifyReg_decCore (s : State) (x : Reg) :
    regBecomes x (decCore x.width (readReg s x) s.flags).1 s (modifyReg s x (decCore x.width)) := by
  have hreg := (modifyReg_spec s x (decCore x.width)).1
  rwa [truncTo_of_lt (decCore_fst_lt x.width (readReg s x) s.flags)] at hreg

/-- Settles O48: the word, the register, each flag and the frame are the lemmas above. -/
theorem decrementRegister : Obligations.DecrementRegister := by
  intro s x
  have hvalue := decCore_fst_toNat x.width (readReg s x) s.flags
  have hz := decCore_z_iff x.width (readReg s x) s.flags
  have hh := decCore_h_iff x.width (readReg s x) s.flags
  exact ⟨fun d => decodeWord_opWord_rx_absent (op := 0x32) d rfl fun _ _ => rfl, _, exec_decR x s,
    ⟨_, regBecomes_modifyReg_decCore s x, hvalue, hz⟩, rfl, hh,
    sameExcept_modifyReg s x fun t a => sameExcept_decCoreFlags x.width t a⟩

end Sys2Proof.Machine
end

section
/-! The decoder and the encoder (spec/30_encoding.md R100 to R111). `Format.Encodes` says which bytes hold
which instruction by a format of R102; the decoder reads exactly these bytes, and for every row of the opcode
map they are the encoder's. -/

namespace Sys2Proof

/-! ### What the decoder reads by a format -/

/-- The instructions that a format of R102 makes under an op byte, each with its bytes: operand digits, and an
immediate of the format's kind that fits its bytes (R100, R103, R109). -/
def Format.Encodes (op : Byte) (f : Format) (i : Instr) (bytes : List Byte) : Prop :=
  match f with
  | .z mk => i = mk ∧ bytes = opcodeBytes (wordZ op)
  | .b mk => ∃ xx, i = mk xx ∧ bytes = opcodeBytes (op ++ xx)
  | .rx k mk => ∃ (x : Reg) (v : Long), v.toNat < 256 ^ k.bytes x.width ∧ i = mk x v ∧
      bytes = instrBytes (wordRX op x) k x.width v.toNat
  | .ry k mk => ∃ (y : Reg) (v : Long), v.toNat < 256 ^ k.bytes y.width ∧ i = mk y v ∧
      bytes = instrBytes (wordRY op y) k y.width v.toNat
  | .rxy mk => ∃ x y, i = mk x y ∧ bytes = opcodeBytes (wordRXY op x y)
  | .cx k mk => ∃ (c : Cond) (v : Long), v.toNat < 256 ^ k.bytes .byte ∧ i = mk c v ∧
      bytes = instrBytes (wordCX op c) k .byte v.toNat
  | .cxy mk => ∃ c y, i = mk c y ∧ bytes = opcodeBytes (opWord op (digitOfCond c) (digitOfReg y))
  | .vx mk => ∃ d, i = mk d ∧ bytes = opcodeBytes (opWord op d 0)
  | .ax mk => ∃ (x : Reg) (v : Long), isAccumulator x = true ∧ v.toNat < 256 ^ x.width.bytes ∧
      i = mk x v ∧ bytes = instrBytes (wordRX op x) .i x.width v.toNat
  | .axy mk => ∃ x y, isAccumulator x = true ∧ i = mk x y ∧ bytes = opcodeBytes (wordRXY op x y)

theorem formatOf_ne_ff {op : Byte} {f : Format} (hf : formatOf op = some f) : op ≠ 0xFF := by
  rintro rfl
  cases hf

/-- Any word with an assigned op byte is read by its format. -/
theorem decodeWord_of_formatOf {w : Word} {f : Format} (hf : formatOf (opByte w) = some f) :
    decodeWord w = decodeFormat f w := by
  have h := decodeWord_opWord (xDigit w) (yDigit w) (formatOf_ne_ff hf) hf
  rwa [opWord_digits] at h

/-- Bytes that begin with an opcode word without immediate. -/
theorem decode_opcodeBytes {w : Word} {d : Decoded} (rest : List Byte) (hd : decodeWord w = .ok d)
    (h0 : d.immBytes = 0) : decode (opcodeBytes w ++ rest) = .ok (d.build [], rest) := by
  have h := decode_append (imm := []) rest hd h0.symm
  rwa [List.append_nil] at h

/-- A long that fits `n` bytes is read back from them (R101). -/
theorem ofNat_littleEndian_leBytes {v : Long} {n : Nat} (h : v.toNat < 256 ^ n) :
    BitVec.ofNat 32 (littleEndian (leBytes v.toNat n)) = v := by
  rw [littleEndian_leBytes, Nat.mod_eq_of_lt h, BitVec.ofNat_toNat, BitVec.setWidth_eq]

/-- Bytes that begin with an opcode word and the bytes of a value that fits: the decoder reads the value. -/
theorem decode_immediate {w : Word} {k : ImmKind} {width : Width} {v : Long} {mk : Long → Instr}
    (rest : List Byte) (hd : decodeWord w = .ok ⟨k.bytes width, fun l => mk (k.value w l)⟩)
    (hv : v.toNat < 256 ^ k.bytes width) :
    decode (instrBytes w k width v.toNat ++ rest) = .ok (mk v, rest) := by
  refine (decode_instrBytes v.toNat rest hd rfl).trans ?_
  simp only [ImmKind.value_eq, ofNat_littleEndian_leBytes hv]

@[simp] theorem opByte_append (op xx : Byte) : opByte (op ++ xx : BitVec (8 + 8)) = op :=
  BitVec.extractLsb'_append_eq_left

@[simp] theorem lowByte_append (op xx : Byte) :
    (op ++ xx : BitVec (8 + 8)).extractLsb' 0 8 = xx := BitVec.extractLsb'_append_eq_right

/-- What a format encodes under its op byte decodes, and the bytes after it are left (R111). -/
theorem decode_of_encodes {op : Byte} {f : Format} {i : Instr} {bytes : List Byte}
    (hf : formatOf op = some f) (h : f.Encodes op i bytes) (rest : List Byte) :
    decode (bytes ++ rest) = .ok (i, rest) := by
  have hw := fun x y : BitVec 4 => decodeWord_opWord x y (formatOf_ne_ff hf) hf
  cases f with
  | z mk =>
    obtain ⟨rfl, rfl⟩ := h
    exact decode_opcodeBytes rest (decodeWord_wordZ hf) rfl
  | b mk =>
    obtain ⟨xx, rfl, rfl⟩ := h
    have hd : decodeWord (op ++ xx) = .ok ⟨0, fun _ => mk xx⟩ := by
      rw [decodeWord_of_formatOf (w := op ++ xx) (by rw [opByte_append, hf]), decodeFormat,
        lowByte_append]
    exact decode_opcodeBytes rest hd rfl
  | rx k mk =>
    obtain ⟨x, v, hv, rfl, rfl⟩ := h
    exact decode_immediate (mk := mk x) rest (by rw [wordRX, hw]; simp [decodeFormat]) hv
  | ry k mk =>
    obtain ⟨y, v, hv, rfl, rfl⟩ := h
    exact decode_immediate (mk := mk y) rest (by rw [wordRY, hw]; simp [decodeFormat]) hv
  | rxy mk =>
    obtain ⟨x, y, rfl, rfl⟩ := h
    rw [wordRXY]
    refine (decode_opcodeBytes rest (hw _ _) rfl).trans ?_
    simp
  | cx k mk =>
    obtain ⟨c, v, hv, rfl, rfl⟩ := h
    exact decode_immediate (mk := mk c) rest (by rw [wordCX, hw]; simp [decodeFormat]) hv
  | cxy mk =>
    obtain ⟨c, y, rfl, rfl⟩ := h
    have hd := hw (digitOfCond c) (digitOfReg y)
    simp only [decodeFormat, xDigit_opWord, yDigit_opWord, condOfDigit_digitOfCond,
      regOfDigit_digitOfReg] at hd
    exact decode_opcodeBytes rest hd rfl
  | vx mk =>
    obtain ⟨d, rfl, rfl⟩ := h
    have hd := hw d 0
    simp only [decodeFormat, xDigit_opWord, yDigit_opWord, if_true] at hd
    exact decode_opcodeBytes rest hd rfl
  | ax mk =>
    obtain ⟨x, v, hx, hv, rfl, rfl⟩ := h
    exact decode_immediate (mk := mk x) rest (by rw [wordRX, hw]; simp [decodeFormat, hx]) hv
  | axy mk =>
    obtain ⟨x, y, hx, rfl, rfl⟩ := h
    have hd := hw (digitOfReg x) (digitOfReg y)
    simp only [decodeFormat, xDigit_opWord, yDigit_opWord, regOfDigit_digitOfReg, hx, if_true] at hd
    exact decode_opcodeBytes rest hd rfl

/-- The decoder's value of an immediate fits the bytes it was read from, and these are the value's bytes. -/
theorem ImmKind.value_spec (k : ImmKind) (w : Word) (width : Width) {l : List Byte}
    (hl : l.length = k.bytes width) :
    (k.value w l).toNat < 256 ^ k.bytes width ∧ leBytes (k.value w l).toNat (k.bytes width) = l := by
  have h4 : k.bytes width ≤ 4 := by cases k <;> cases width <;> decide
  have hlt := littleEndian_lt l
  have hle : 256 ^ k.bytes width ≤ 256 ^ 4 := Nat.pow_le_pow_right (by omega) h4
  rw [hl] at hlt
  rw [ImmKind.value_eq, BitVec.toNat_ofNat, Nat.mod_eq_of_lt (by omega)]
  exact ⟨hlt, by rw [← hl, leBytes_littleEndian]⟩

/-- A value read from the bytes after an opcode word is encoded as that word and those bytes. -/
theorem instrBytes_value (k : ImmKind) (w w' : Word) (width : Width) {l : List Byte}
    (hl : l.length = k.bytes width) :
    instrBytes w k width (k.value w' l).toNat = opcodeBytes w ++ l := by
  rw [instrBytes_eq, (k.value_spec w' width hl).2]

theorem wordRX_of_digits {w : Word} (h : yDigit w = 0) :
    wordRX (opByte w) (regOfDigit (xDigit w)) = w := by
  rw [wordRX, digitOfReg_regOfDigit, ← h, opWord_digits]

theorem wordRY_of_digits {w : Word} (h : xDigit w = 0) :
    wordRY (opByte w) (regOfDigit (yDigit w)) = w := by
  rw [wordRY, digitOfReg_regOfDigit, ← h, opWord_digits]

theorem wordRXY_of_digits (w : Word) :
    wordRXY (opByte w) (regOfDigit (xDigit w)) (regOfDigit (yDigit w)) = w := by
  rw [wordRXY, digitOfReg_regOfDigit, digitOfReg_regOfDigit, opWord_digits]

/-- What a format reads is what it encodes: an accepted word and its immediate's bytes are the bytes of the
instruction they make (R107, R111). -/
theorem encodes_of_decodeFormat {f : Format} {w : Word} {d : Decoded} {l : List Byte}
    (hd : decodeFormat f w = .ok d) (hl : l.length = d.immBytes) :
    f.Encodes (opByte w) (d.build l) (opcodeBytes w ++ l) := by
  cases f with
  | z mk =>
    simp only [decodeFormat] at hd
    split at hd
    · obtain ⟨hx, hy⟩ := ‹xDigit w = 0 ∧ yDigit w = 0›
      cases hd
      rw [List.length_eq_zero_iff.1 hl, List.append_nil]
      refine ⟨rfl, congrArg opcodeBytes ?_⟩
      rw [wordZ, ← congrArg₂ (opWord (opByte w)) hx hy, opWord_digits]
    · cases hd
  | b mk =>
    cases hd
    rw [List.length_eq_zero_iff.1 hl, List.append_nil]
    exact ⟨_, rfl, congrArg opcodeBytes (word_bytes w).symm⟩
  | rx k mk =>
    simp only [decodeFormat, ImmKind.pattern_eq] at hd
    split at hd
    · cases hd
      exact ⟨_, _, (k.value_spec w _ hl).1, rfl,
        by rw [instrBytes_value k _ w _ hl, wordRX_of_digits ‹_›]⟩
    · cases hd
  | ry k mk =>
    simp only [decodeFormat, ImmKind.pattern_eq] at hd
    split at hd
    · cases hd
      exact ⟨_, _, (k.value_spec w _ hl).1, rfl,
        by rw [instrBytes_value k _ w _ hl, wordRY_of_digits ‹_›]⟩
    · cases hd
  | rxy mk =>
    cases hd
    rw [List.length_eq_zero_iff.1 hl, List.append_nil]
    exact ⟨_, _, rfl, congrArg opcodeBytes (wordRXY_of_digits w).symm⟩
  | cx k mk =>
    simp only [decodeFormat, ImmKind.pattern_eq] at hd
    split at hd
    · split at hd
      · rename_i hy _ c hc
        cases hd
        refine ⟨c, _, (k.value_spec w _ hl).1, rfl, ?_⟩
        rw [instrBytes_value k _ w _ hl, wordCX, digitOfCond_of_condOfDigit hc, ← hy, opWord_digits]
      · cases hd
    · cases hd
  | cxy mk =>
    simp only [decodeFormat] at hd
    split at hd
    · rename_i c hc
      cases hd
      rw [List.length_eq_zero_iff.1 hl, List.append_nil]
      refine ⟨c, _, rfl, congrArg opcodeBytes ?_⟩
      rw [digitOfCond_of_condOfDigit hc, digitOfReg_regOfDigit, opWord_digits]
    · cases hd
  | vx mk =>
    simp only [decodeFormat] at hd
    split at hd
    · rename_i hy
      cases hd
      rw [List.length_eq_zero_iff.1 hl, List.append_nil]
      refine ⟨_, rfl, congrArg opcodeBytes ?_⟩
      rw [← hy, opWord_digits]
    · cases hd
  | ax mk =>
    simp only [decodeFormat, ImmKind.pattern_eq] at hd
    split at hd
    · split at hd
      · cases hd
        exact ⟨_, _, ‹_›, (ImmKind.i.value_spec w _ hl).1, rfl,
          by rw [instrBytes_value .i _ w _ hl, wordRX_of_digits ‹_›]⟩
      · cases hd
    · cases hd
  | axy mk =>
    simp only [decodeFormat] at hd
    split at hd
    · cases hd
      rw [List.length_eq_zero_iff.1 hl, List.append_nil]
      exact ⟨_, _, ‹_›, rfl, congrArg opcodeBytes (wordRXY_of_digits w).symm⟩
    · cases hd

/-- An accepted opcode word is the word of `JPS` or of a row of the opcode map (R110, R111). -/
theorem decodeWord_cases {w : Word} {d : Decoded} (h : decodeWord w = .ok d) :
    (w = 0xFFFF ∧ d = ⟨0, fun _ => .jps⟩) ∨
      ∃ f, formatOf (opByte w) = some f ∧ decodeFormat f w = .ok d := by
  unfold decodeWord at h
  split at h
  · exact .inl ⟨‹_›, (Except.ok.inj h).symm⟩
  · split at h
    · exact .inr ⟨_, ‹_›, h⟩
    · cases h

/-! ### The rows of the opcode map -/

theorem instrBytes_absent (w : Word) (width : Width) (v : Nat) :
    instrBytes w .absent width v = opcodeBytes w := by
  rw [instrBytes_eq, ImmKind.bytes_absent, leBytes, List.append_nil]

theorem immFits_iff (x : Reg) (v : Long) : immFits x v = true ↔ v.toNat < 256 ^ x.width.bytes := by
  rw [immFits, decide_eq_true_iff]
  cases x.width <;> rfl

end Sys2Proof
end

section
/-! The rows of the opcode map (spec/30_encoding.md R110): what each encodes is what the encoder gives, and
every well-formed instruction but `JPS` has its row. -/

namespace Sys2Proof

theorem byte_eq_ofNat {op : Byte} {n : Nat} (h : op.toNat = n) : op = BitVec.ofNat 8 n := by
  rw [← h, BitVec.ofNat_toNat, BitVec.setWidth_eq]

/-- A value that fits `n` bytes is not changed by narrowing it to a width that holds them. -/
theorem toNat_setWidth_of_fits {v : Long} {n m : Nat} (hm : 8 * n ≤ m) (hv : v.toNat < 256 ^ n) :
    (v.setWidth m).toNat = v.toNat := by
  have hle : 256 ^ n ≤ 2 ^ m := by
    rw [show 256 = 2 ^ 8 from rfl, ← Nat.pow_mul]
    exact Nat.pow_le_pow_right (by omega) hm
  rw [BitVec.toNat_setWidth, Nat.mod_eq_of_lt (Nat.lt_of_lt_of_le hv hle)]

/-! ### From rows to the encoder -/

theorem formatOf_z {op : Byte} {i : Instr} (hf : formatOf op = some (.z i)) :
    i.wf = true ∧ encode i = opcodeBytes (wordZ op) := by
  unfold formatOf at hf
  split at hf <;> cases hf
  all_goals
    obtain rfl := byte_eq_ofNat ‹op.toNat = _›
    exact ⟨rfl, rfl⟩

theorem formatOf_b {op : Byte} {mk : Byte → Instr} (hf : formatOf op = some (.b mk)) (xx : Byte) :
    (mk xx).wf = true ∧ encode (mk xx) = opcodeBytes (op ++ xx) := by
  unfold formatOf at hf
  split at hf <;> cases hf
  obtain rfl := byte_eq_ofNat ‹op.toNat = _›
  exact ⟨rfl, rfl⟩

theorem formatOf_rx {op : Byte} {k : ImmKind} {mk : Reg → Long → Instr}
    (hf : formatOf op = some (.rx k mk)) (x : Reg) {v : Long}
    (hv : v.toNat < 256 ^ k.bytes x.width) :
    (mk x v).wf = true ∧ encode (mk x v) = instrBytes (wordRX op x) k x.width v.toNat := by
  have h16 := toNat_setWidth_of_fits (v := v) (n := 2) (m := 16) le_rfl
  have h8 := toNat_setWidth_of_fits (v := v) (n := 1) (m := 8) le_rfl
  unfold formatOf at hf
  split at hf <;> cases hf
  all_goals
    obtain rfl := byte_eq_ofNat ‹op.toNat = _›
    simp_all [Instr.wf, encode, instrBytes_absent, immFits_iff, -BitVec.toNat_setWidth]

theorem formatOf_ry {op : Byte} {k : ImmKind} {mk : Reg → Long → Instr}
    (hf : formatOf op = some (.ry k mk)) (y : Reg) {v : Long}
    (hv : v.toNat < 256 ^ k.bytes y.width) :
    (mk y v).wf = true ∧ encode (mk y v) = instrBytes (wordRY op y) k y.width v.toNat := by
  have h16 := toNat_setWidth_of_fits (v := v) (n := 2) (m := 16) le_rfl
  have h8 := toNat_setWidth_of_fits (v := v) (n := 1) (m := 8) le_rfl
  unfold formatOf at hf
  split at hf <;> cases hf
  all_goals
    obtain rfl := byte_eq_ofNat ‹op.toNat = _›
    simp_all [Instr.wf, encode, instrBytes_absent, -BitVec.toNat_setWidth]

theorem formatOf_rxy {op : Byte} {mk : Reg → Reg → Instr} (hf : formatOf op = some (.rxy mk))
    (x y : Reg) : (mk x y).wf = true ∧ encode (mk x y) = opcodeBytes (wordRXY op x y) := by
  unfold formatOf at hf
  split at hf <;> cases hf
  all_goals
    obtain rfl := byte_eq_ofNat ‹op.toNat = _›
    exact ⟨rfl, rfl⟩

theorem formatOf_cx {op : Byte} {k : ImmKind} {mk : Cond → Long → Instr}
    (hf : formatOf op = some (.cx k mk)) (c : Cond) {v : Long}
    (hv : v.toNat < 256 ^ k.bytes .byte) :
    (mk c v).wf = true ∧ encode (mk c v) = instrBytes (wordCX op c) k .byte v.toNat := by
  have h16 := toNat_setWidth_of_fits (v := v) (n := 2) (m := 16) le_rfl
  unfold formatOf at hf
  split at hf <;> cases hf
  all_goals
    obtain rfl := byte_eq_ofNat ‹op.toNat = _›
    simp_all [Instr.wf, encode, instrBytes_absent, -BitVec.toNat_setWidth]

theorem formatOf_cxy {op : Byte} {mk : Cond → Reg → Instr} (hf : formatOf op = some (.cxy mk))
    (c : Cond) (y : Reg) :
    (mk c y).wf = true ∧
      encode (mk c y) = opcodeBytes (opWord op (digitOfCond c) (digitOfReg y)) := by
  unfold formatOf at hf
  split at hf <;> cases hf
  obtain rfl := byte_eq_ofNat ‹op.toNat = _›
  exact ⟨rfl, rfl⟩

theorem formatOf_vx {op : Byte} {mk : BitVec 4 → Instr} (hf : formatOf op = some (.vx mk))
    (d : BitVec 4) : (mk d).wf = true ∧ encode (mk d) = opcodeBytes (opWord op d 0) := by
  unfold formatOf at hf
  split at hf <;> cases hf
  obtain rfl := byte_eq_ofNat ‹op.toNat = _›
  exact ⟨rfl, rfl⟩

theorem formatOf_ax {op : Byte} {mk : Reg → Long → Instr} (hf : formatOf op = some (.ax mk))
    {x : Reg} {v : Long} (hx : isAccumulator x = true) (hv : v.toNat < 256 ^ x.width.bytes) :
    (mk x v).wf = true ∧ encode (mk x v) = instrBytes (wordRX op x) .i x.width v.toNat := by
  have hfit := (immFits_iff x v).2 hv
  unfold formatOf at hf
  split at hf <;> cases hf
  all_goals
    obtain rfl := byte_eq_ofNat ‹op.toNat = _›
    exact ⟨by rw [Instr.wf, hx, hfit, Bool.and_self], rfl⟩

theorem formatOf_axy {op : Byte} {mk : Reg → Reg → Instr} (hf : formatOf op = some (.axy mk))
    {x : Reg} (hx : isAccumulator x = true) (y : Reg) :
    (mk x y).wf = true ∧ encode (mk x y) = opcodeBytes (wordRXY op x y) := by
  unfold formatOf at hf
  split at hf <;> cases hf
  all_goals
    obtain rfl := byte_eq_ofNat ‹op.toNat = _›
    exact ⟨hx, rfl⟩

/-- Whatever a row of the opcode map encodes is well-formed, and the encoder gives the same bytes. -/
theorem wf_and_encode_of_encodes {op : Byte} {f : Format} {i : Instr} {bytes : List Byte}
    (hf : formatOf op = some f) (h : f.Encodes op i bytes) : i.wf = true ∧ encode i = bytes := by
  cases f with
  | z mk => obtain ⟨rfl, rfl⟩ := h; exact formatOf_z hf
  | b mk => obtain ⟨xx, rfl, rfl⟩ := h; exact formatOf_b hf xx
  | rx k mk => obtain ⟨x, v, hv, rfl, rfl⟩ := h; exact formatOf_rx hf x hv
  | ry k mk => obtain ⟨y, v, hv, rfl, rfl⟩ := h; exact formatOf_ry hf y hv
  | rxy mk => obtain ⟨x, y, rfl, rfl⟩ := h; exact formatOf_rxy hf x y
  | cx k mk => obtain ⟨c, v, hv, rfl, rfl⟩ := h; exact formatOf_cx hf c hv
  | cxy mk => obtain ⟨c, y, rfl, rfl⟩ := h; exact formatOf_cxy hf c y
  | vx mk => obtain ⟨d, rfl, rfl⟩ := h; exact formatOf_vx hf d
  | ax mk => obtain ⟨x, v, hx, hv, rfl, rfl⟩ := h; exact formatOf_ax hf hx hv
  | axy mk => obtain ⟨x, y, hx, rfl, rfl⟩ := h; exact formatOf_axy hf hx y

/-! ### From instructions to rows -/

theorem Format.encodes_rx_absent (op : Byte) (mk : Reg → Instr) (x : Reg) :
    (Format.rx .absent fun x _ => mk x).Encodes op (mk x) (opcodeBytes (wordRX op x)) :=
  ⟨x, 0, Nat.one_pos, rfl, (instrBytes_absent _ _ _).symm⟩

theorem Format.encodes_ry_absent (op : Byte) (mk : Reg → Instr) (y : Reg) :
    (Format.ry .absent fun y _ => mk y).Encodes op (mk y) (opcodeBytes (wordRY op y)) :=
  ⟨y, 0, Nat.one_pos, rfl, (instrBytes_absent _ _ _).symm⟩

/-- An operand of at most 32 bits as the long that the decoder reads for it. -/
theorem exists_long_of_le {n : Nat} (hn : n ≤ 32) (v : BitVec n) :
    ∃ l : Long, l.setWidth n = v ∧ l.toNat = v.toNat := by
  refine ⟨v.setWidth 32, (BitVec.setWidth_setWidth_of_le v hn).trans (BitVec.setWidth_eq v), ?_⟩
  rw [BitVec.toNat_setWidth, Nat.mod_eq_of_lt]
  exact Nat.lt_of_lt_of_le v.isLt (Nat.pow_le_pow_right (by omega) hn)

theorem Format.encodes_rx_narrow {n : Nat} (op : Byte) {k : ImmKind} (mk : Reg → BitVec n → Instr)
    (x : Reg) {v : BitVec n} (hn : n ≤ 32) (hv : v.toNat < 256 ^ k.bytes x.width) :
    (Format.rx k fun x l => mk x (l.setWidth n)).Encodes op (mk x v)
      (instrBytes (wordRX op x) k x.width v.toNat) := by
  obtain ⟨l, rfl, hl⟩ := exists_long_of_le hn v
  exact ⟨x, l, hl ▸ hv, rfl, by rw [hl]⟩

theorem Format.encodes_ry_narrow {n : Nat} (op : Byte) {k : ImmKind} (mk : BitVec n → Reg → Instr)
    (y : Reg) {v : BitVec n} (hn : n ≤ 32) (hv : v.toNat < 256 ^ k.bytes y.width) :
    (Format.ry k fun y l => mk (l.setWidth n) y).Encodes op (mk v y)
      (instrBytes (wordRY op y) k y.width v.toNat) := by
  obtain ⟨l, rfl, hl⟩ := exists_long_of_le hn v
  exact ⟨y, l, hl ▸ hv, rfl, by rw [hl]⟩

theorem Format.encodes_cx_narrow {n : Nat} (op : Byte) {k : ImmKind} (mk : Cond → BitVec n → Instr)
    (c : Cond) {v : BitVec n} (hn : n ≤ 32) (hv : v.toNat < 256 ^ k.bytes .byte) :
    (Format.cx k fun c l => mk c (l.setWidth n)).Encodes op (mk c v)
      (instrBytes (wordCX op c) k .byte v.toNat) := by
  obtain ⟨l, rfl, hl⟩ := exists_long_of_le hn v
  exact ⟨c, l, hl ▸ hv, rfl, by rw [hl]⟩

/-- An accumulator row's immediate form: its operand rule gives both premises (R103, R109). -/
theorem Format.encodes_ax {op : Byte} {mk : Reg → Long → Instr} {x : Reg} {v : Long}
    (h : (isAccumulator x && immFits x v) = true) :
    (Format.ax mk).Encodes op (mk x v) (instrBytes (wordRX op x) .i x.width v.toNat) := by
  obtain ⟨hx, hv⟩ := Bool.and_eq_true_iff.1 h
  exact ⟨x, v, hx, (immFits_iff x v).1 hv, rfl, rfl⟩

/-- Every well-formed instruction but `JPS` is what some row of the opcode map makes (R110). -/
theorem exists_encodes {i : Instr} (hwf : i.wf = true) (hj : i ≠ .jps) :
    ∃ op f, formatOf op = some f ∧ f.Encodes op i (encode i) := by
  cases i with
  | jps => exact absurd rfl hj
  | nop => exact ⟨0x00, _, rfl, rfl, rfl⟩
  | stop => exact ⟨0x01, _, rfl, rfl, rfl⟩
  | halt => exact ⟨0x02, _, rfl, rfl, rfl⟩
  | sec xx => exact ⟨0x03, _, rfl, xx, rfl, rfl⟩
  | cec => exact ⟨0x04, _, rfl, rfl, rfl⟩
  | di => exact ⟨0x05, _, rfl, rfl, rfl⟩
  | ei => exact ⟨0x06, _, rfl, rfl, rfl⟩
  | daa => exact ⟨0x07, _, rfl, rfl, rfl⟩
  | cpl => exact ⟨0x08, _, rfl, rfl, rfl⟩
  | cpw => exact ⟨0x09, _, rfl, rfl, rfl⟩
  | cpb => exact ⟨0x0A, _, rfl, rfl, rfl⟩
  | scf => exact ⟨0x0B, _, rfl, rfl, rfl⟩
  | ccf => exact ⟨0x0C, _, rfl, rfl, rfl⟩
  | ldI x imm => exact ⟨0x10, _, rfl, x, imm, (immFits_iff x imm).1 hwf, rfl, rfl⟩
  | ldA32 x addr => exact ⟨0x11, _, rfl, x, addr, addr.isLt, rfl, rfl⟩
  | ldM x y => exact ⟨0x12, _, rfl, x, y, rfl, rfl⟩
  | ldq x off => exact ⟨0x13, _, rfl, Format.encodes_rx_narrow _ .ldq x (by decide) off.isLt⟩
  | ldh x off => exact ⟨0x15, _, rfl, Format.encodes_rx_narrow _ .ldh x (by decide) off.isLt⟩
  | stA32 addr y => exact ⟨0x17, _, rfl, y, addr, addr.isLt, rfl, rfl⟩
  | stM x y => exact ⟨0x18, _, rfl, x, y, rfl, rfl⟩
  | stq off y => exact ⟨0x19, _, rfl, Format.encodes_ry_narrow _ .stq y (by decide) off.isLt⟩
  | sth off y => exact ⟨0x1B, _, rfl, Format.encodes_ry_narrow _ .sth y (by decide) off.isLt⟩
  | mv x y => exact ⟨0x1D, _, rfl, x, y, rfl, rfl⟩
  | push x => exact ⟨0x1E, _, rfl, Format.encodes_ry_absent _ _ x⟩
  | pop x => exact ⟨0x1F, _, rfl, Format.encodes_rx_absent _ _ x⟩
  | jmpA32 c addr => exact ⟨0x20, _, rfl, c, addr, addr.isLt, rfl, rfl⟩
  | jmpR c y => exact ⟨0x21, _, rfl, c, y, rfl, rfl⟩
  | jpb c off => exact ⟨0x22, _, rfl, Format.encodes_cx_narrow _ .jpb c (by decide) off.isLt⟩
  | call c addr => exact ⟨0x23, _, rfl, c, addr, addr.isLt, rfl, rfl⟩
  | rst v => exact ⟨0x24, _, rfl, v, rfl, rfl⟩
  | ret c => exact ⟨0x25, _, rfl, c, 0, Nat.one_pos, rfl, (instrBytes_absent _ _ _).symm⟩
  | reti => exact ⟨0x26, _, rfl, rfl, rfl⟩
  | incR x => exact ⟨0x30, _, rfl, Format.encodes_rx_absent _ _ x⟩
  | incM y => exact ⟨0x31, _, rfl, Format.encodes_ry_absent _ _ y⟩
  | decR x => exact ⟨0x32, _, rfl, Format.encodes_rx_absent _ _ x⟩
  | decM y => exact ⟨0x33, _, rfl, Format.encodes_ry_absent _ _ y⟩
  | addI x imm => exact ⟨0x34, _, rfl, Format.encodes_ax hwf⟩
  | addR x y => exact ⟨0x35, _, rfl, x, y, hwf, rfl, rfl⟩
  | addM x y => exact ⟨0x36, _, rfl, x, y, hwf, rfl, rfl⟩
  | adcI x imm => exact ⟨0x37, _, rfl, Format.encodes_ax hwf⟩
  | adcR x y => exact ⟨0x38, _, rfl, x, y, hwf, rfl, rfl⟩
  | adcM x y => exact ⟨0x39, _, rfl, x, y, hwf, rfl, rfl⟩
  | subI x imm => exact ⟨0x3A, _, rfl, Format.encodes_ax hwf⟩
  | subR x y => exact ⟨0x3B, _, rfl, x, y, hwf, rfl, rfl⟩
  | subM x y => exact ⟨0x3C, _, rfl, x, y, hwf, rfl, rfl⟩
  | sbcI x imm => exact ⟨0x3D, _, rfl, Format.encodes_ax hwf⟩
  | sbcR x y => exact ⟨0x3E, _, rfl, x, y, hwf, rfl, rfl⟩
  | sbcM x y => exact ⟨0x3F, _, rfl, x, y, hwf, rfl, rfl⟩
  | andI x imm => exact ⟨0x40, _, rfl, Format.encodes_ax hwf⟩
  | andR x y => exact ⟨0x41, _, rfl, x, y, hwf, rfl, rfl⟩
  | andM x y => exact ⟨0x42, _, rfl, x, y, hwf, rfl, rfl⟩
  | orI x imm => exact ⟨0x43, _, rfl, Format.encodes_ax hwf⟩
  | orR x y => exact ⟨0x44, _, rfl, x, y, hwf, rfl, rfl⟩
  | orM x y => exact ⟨0x45, _, rfl, x, y, hwf, rfl, rfl⟩
  | xorI x imm => exact ⟨0x46, _, rfl, Format.encodes_ax hwf⟩
  | xorR x y => exact ⟨0x47, _, rfl, x, y, hwf, rfl, rfl⟩
  | xorM x y => exact ⟨0x48, _, rfl, x, y, hwf, rfl, rfl⟩
  | cmpI x imm => exact ⟨0x49, _, rfl, Format.encodes_ax hwf⟩
  | cmpR x y => exact ⟨0x4A, _, rfl, x, y, hwf, rfl, rfl⟩
  | cmpM x y => exact ⟨0x4B, _, rfl, x, y, hwf, rfl, rfl⟩
  | slaR x => exact ⟨0x50, _, rfl, Format.encodes_rx_absent _ _ x⟩
  | slaM x => exact ⟨0x51, _, rfl, Format.encodes_ry_absent _ _ x⟩
  | sraR x => exact ⟨0x52, _, rfl, Format.encodes_rx_absent _ _ x⟩
  | sraM x => exact ⟨0x53, _, rfl, Format.encodes_ry_absent _ _ x⟩
  | srlR x => exact ⟨0x54, _, rfl, Format.encodes_rx_absent _ _ x⟩
  | srlM x => exact ⟨0x55, _, rfl, Format.encodes_ry_absent _ _ x⟩
  | rlR x => exact ⟨0x56, _, rfl, Format.encodes_rx_absent _ _ x⟩
  | rlM x => exact ⟨0x57, _, rfl, Format.encodes_ry_absent _ _ x⟩
  | rlcR x => exact ⟨0x58, _, rfl, Format.encodes_rx_absent _ _ x⟩
  | rlcM x => exact ⟨0x59, _, rfl, Format.encodes_ry_absent _ _ x⟩
  | rrR x => exact ⟨0x5A, _, rfl, Format.encodes_rx_absent _ _ x⟩
  | rrM x => exact ⟨0x5B, _, rfl, Format.encodes_ry_absent _ _ x⟩
  | rrcR x => exact ⟨0x5C, _, rfl, Format.encodes_rx_absent _ _ x⟩
  | rrcM x => exact ⟨0x5D, _, rfl, Format.encodes_ry_absent _ _ x⟩
  | bitR b y => exact ⟨0x60, _, rfl, Format.encodes_ry_narrow _ .bitR y (by decide) b.isLt⟩
  | bitM b y => exact ⟨0x61, _, rfl, Format.encodes_ry_narrow _ .bitM y (by decide) b.isLt⟩
  | setR b y => exact ⟨0x62, _, rfl, Format.encodes_ry_narrow _ .setR y (by decide) b.isLt⟩
  | setM b y => exact ⟨0x63, _, rfl, Format.encodes_ry_narrow _ .setM y (by decide) b.isLt⟩
  | resR b y => exact ⟨0x64, _, rfl, Format.encodes_ry_narrow _ .resR y (by decide) b.isLt⟩
  | resM b y => exact ⟨0x65, _, rfl, Format.encodes_ry_narrow _ .resM y (by decide) b.isLt⟩
  | swapR x => exact ⟨0x66, _, rfl, Format.encodes_rx_absent _ _ x⟩
  | swapM x => exact ⟨0x67, _, rfl, Format.encodes_ry_absent _ _ x⟩

/-! ### Round trips -/

/-- The word of `JPS` decodes to it. -/
theorem decodeWord_jps : decodeWord 0xFFFF = .ok ⟨0, fun _ => .jps⟩ := rfl

/-- Settles O1: `JPS` is a word of its own; any other instruction has its row of the opcode map. -/
theorem decodeOfEncodeIsTheInstruction : Obligations.DecodeOfEncodeIsTheInstruction := by
  intro i rest hwf
  by_cases hj : i = .jps
  · rw [hj]
    exact decode_opcodeBytes rest decodeWord_jps rfl
  · obtain ⟨op, f, hf, he⟩ := exists_encodes hwf hj
    exact decode_of_encodes hf he rest

/-- Settles O2: what the decoder reads by a row of the opcode map is what that row encodes. -/
theorem decodedBytesAreTheEncoding : Obligations.DecodedBytesAreTheEncoding := by
  intro bytes rest i h
  obtain ⟨lo, hi, l, d, rfl, hd, hlen, rfl, rfl⟩ := decode_cases h
  have hbytes : lo :: hi :: l = opcodeBytes (hi ++ lo) ++ l.take d.immBytes ++ l.drop d.immBytes := by
    rw [List.append_assoc, List.take_append_drop, opcodeBytes, leBytes_word]
    rfl
  rw [hbytes]
  obtain ⟨hw, rfl⟩ | ⟨f, hf, hd⟩ := decodeWord_cases hd
  · rw [hw]
    exact ⟨rfl, by simp [encode]⟩
  · have he := encodes_of_decodeFormat hd (List.length_take_of_le hlen)
    obtain ⟨hwf, henc⟩ := wf_and_encode_of_encodes hf he
    exact ⟨hwf, by rw [henc]⟩

/-- Settles O3: each list of bytes is the encoding of a well-formed instruction. -/
theorem exampleWordsDecode : Obligations.ExampleWordsDecode := by
  have h : ∀ {i : Instr} {l : List Byte}, i.wf = true → encode i = l → decode l = .ok (i, []) := by
    rintro i _ hwf rfl
    simpa using decodeOfEncodeIsTheInstruction i [] hwf
  exact ⟨h rfl rfl, h rfl rfl, h rfl rfl, h rfl rfl, h rfl rfl, h rfl rfl, h rfl rfl, h rfl rfl,
    h rfl rfl, h rfl rfl, h rfl rfl, h rfl rfl, h rfl rfl, h rfl rfl, h rfl rfl, h rfl rfl,
    h rfl rfl, h rfl rfl, h rfl rfl⟩

end Sys2Proof
end

section
/-! Why the decoder rejects a word (spec/30_encoding.md R106 to R109): the checks of each format, and the op
bytes that have them. -/

namespace Sys2Proof

/-! ### The checks of a format -/

/-- Whether the pattern of a format has a literal `0` for the first digit (R102). -/
def Format.zeroX : Format → Bool
  | .z _ => true
  | .ry _ _ => true
  | _ => false

/-- Whether the pattern of a format has a literal `0` for the second digit (R102). -/
def Format.zeroY : Format → Bool
  | .z _ => true
  | .rx _ _ => true
  | .cx _ _ => true
  | .vx _ => true
  | .ax _ => true
  | _ => false

/-- Whether the first digit of a format is a condition number (R106). -/
def Format.takesCond : Format → Bool
  | .cx _ _ => true
  | .cxy _ => true
  | _ => false

/-- Whether the first digit of a format must be an accumulator register (R109). -/
def Format.takesAccumulator : Format → Bool
  | .ax _ => true
  | .axy _ => true
  | _ => false

theorem decodeFormat_ne_illegalOpcode (f : Format) (w : Word) :
    decodeFormat f w ≠ .error .illegalOpcode := by
  unfold decodeFormat
  repeat' split
  all_goals exact fun h => by cases h

theorem decodeFormat_eq_reservedField (f : Format) (w : Word) :
    decodeFormat f w = .error .reservedField ↔
      (f.zeroX = true ∧ xDigit w ≠ 0) ∨ (f.zeroY = true ∧ yDigit w ≠ 0) := by
  cases f <;> simp only [decodeFormat, ImmKind.pattern_eq, Format.zeroX, Format.zeroY] <;>
    repeat' split
  all_goals simp_all
  all_goals tauto

theorem decodeFormat_eq_badCondition (f : Format) (w : Word) :
    decodeFormat f w = .error .badCondition ↔
      f.takesCond = true ∧ (f.zeroY = true → yDigit w = 0) ∧ 7 ≤ (xDigit w).toNat := by
  rw [← condOfDigit_eq_none]
  cases f <;>
    simp only [decodeFormat, ImmKind.pattern_eq, Format.takesCond, Format.zeroY] <;> repeat' split
  all_goals simp_all

theorem decodeFormat_eq_nonAccumulator (f : Format) (w : Word) :
    decodeFormat f w = .error .nonAccumulator ↔
      f.takesAccumulator = true ∧ (f.zeroY = true → yDigit w = 0) ∧ 4 ≤ (xDigit w).toNat := by
  have hx : 4 ≤ (xDigit w).toNat ↔ isAccumulator (regOfDigit (xDigit w)) = false := by
    rw [isAccumulator_regOfDigit, decide_eq_false_iff_not, Nat.not_lt]
  rw [hx]
  cases f <;>
    simp only [decodeFormat, ImmKind.pattern_eq, Format.takesAccumulator, Format.zeroY] <;>
    repeat' split
  all_goals simp_all

/-- A word is rejected for want of a row or by the checks of its row (R111). -/
theorem decodeWord_eq_error {w : Word} {r : Reject} :
    decodeWord w = .error r ↔
      (w ≠ 0xFFFF ∧ formatOf (opByte w) = none ∧ r = .illegalOpcode) ∨
        ∃ f, formatOf (opByte w) = some f ∧ decodeFormat f w = .error r := by
  cases hf : formatOf (opByte w) with
  | some f => simp [decodeWord_of_formatOf hf]
  | none =>
    by_cases hw : w = 0xFFFF#16
    · simp [decodeWord, hw]
    · rw [decodeWord, if_neg hw, hf]
      refine ⟨fun h => .inl ⟨hw, rfl, (Except.error.inj h).symm⟩, ?_⟩
      rintro (⟨-, -, rfl⟩ | ⟨f, hf, -⟩)
      · rfl
      · cases hf

/-! ### The op bytes with each check -/

theorem formatOf_zeroX (op : Byte) : (formatOf op).any Format.zeroX = true ↔
    op ∈ [0x00, 0x01, 0x02, 0x04, 0x05, 0x06, 0x07, 0x08, 0x09, 0x0A, 0x0B, 0x0C, 0x26] ∨
      op ∈ [0x17, 0x19, 0x1B, 0x1E, 0x31, 0x33, 0x51, 0x53, 0x55, 0x57, 0x59, 0x5B, 0x5D, 0x60,
        0x61, 0x62, 0x63, 0x64, 0x65, 0x67] := by
  revert op; decide

theorem formatOf_zeroY (op : Byte) : (formatOf op).any Format.zeroY = true ↔
    op ∈ [0x00, 0x01, 0x02, 0x04, 0x05, 0x06, 0x07, 0x08, 0x09, 0x0A, 0x0B, 0x0C, 0x26] ∨
      op ∈ [0x10, 0x11, 0x13, 0x15, 0x1F, 0x20, 0x22, 0x23, 0x24, 0x25, 0x30, 0x32, 0x34, 0x37,
        0x3A, 0x3D, 0x40, 0x43, 0x46, 0x49, 0x50, 0x52, 0x54, 0x56, 0x58, 0x5A, 0x5C, 0x66] := by
  revert op; decide

theorem formatOf_takesCond (op : Byte) :
    ((formatOf op).any (fun f => f.takesCond && !f.zeroY) = true ↔ op = 0x21) ∧
    ((formatOf op).any (fun f => f.takesCond && f.zeroY) = true ↔
      op ∈ [0x20, 0x22, 0x23, 0x25]) := by
  revert op; decide

theorem formatOf_takesAccumulator (op : Byte) :
    ((formatOf op).any (fun f => f.takesAccumulator && f.zeroY) = true ↔
      op ∈ [0x34, 0x37, 0x3A, 0x3D, 0x40, 0x43, 0x46, 0x49]) ∧
    ((formatOf op).any (fun f => f.takesAccumulator && !f.zeroY) = true ↔
      op ∈ [0x35, 0x36, 0x38, 0x39, 0x3B, 0x3C, 0x3E, 0x3F, 0x41, 0x42, 0x44, 0x45, 0x47, 0x48,
        0x4A, 0x4B]) := by
  revert op; decide

theorem formatOf_isNone (op : Byte) : (formatOf op).isNone = true ↔
    ((0x0D ≤ op.toNat ∧ op.toNat ≤ 0x0F) ∨ op = 0x14 ∨ op = 0x16 ∨ op = 0x1A ∨ op = 0x1C ∨
      (0x27 ≤ op.toNat ∧ op.toNat ≤ 0x2F) ∨ (0x4C ≤ op.toNat ∧ op.toNat ≤ 0x4F) ∨
      (0x5E ≤ op.toNat ∧ op.toNat ≤ 0x5F) ∨ (0x68 ≤ op.toNat ∧ op.toNat ≤ 0xFE) ∨
      op = 0xFF) := by
  revert op; decide

/-! ### Rejected words -/

/-- A word that its row rejects by a check: the row exists and the check fails. -/
theorem decodeWord_opWord_eq_error {op : Byte} {x y : BitVec 4} {r : Reject}
    (hr : r ≠ .illegalOpcode) :
    decodeWord (opWord op x y) = .error r ↔
      ∃ f, formatOf op = some f ∧ decodeFormat f (opWord op x y) = .error r := by
  simp [decodeWord_eq_error, hr]

/-- Settles O4: only a word without a row is illegal. -/
theorem unassignedWordsAreIllegal : Obligations.UnassignedWordsAreIllegal := by
  intro w
  have hff : w = 0xFFFF → opByte w = 0xFF := by rintro rfl; rfl
  rw [decodeWord_eq_error]
  simp only [decodeFormat_ne_illegalOpcode, and_false, exists_false, or_false, and_true,
    ← Option.isNone_iff_eq_none, formatOf_isNone]
  by_cases hw : w = 0xFFFF
  · rw [hff hw]
    simp [hw]
  · simp only [ne_eq, hw, not_false_eq_true, true_and, and_true]

/-- Settles O5: the row of the op byte checks its literal digits. -/
theorem nonzeroPatternDigitsAreReserved : Obligations.NonzeroPatternDigitsAreReserved := by
  intro op x y
  rw [decodeWord_opWord_eq_error (by decide)]
  have hx := formatOf_zeroX op
  have hy := formatOf_zeroY op
  cases hf : formatOf op with
  | none =>
    simp only [hf, Option.any_none, Bool.false_eq_true, false_iff, not_or] at hx hy
    simp only [reduceCtorEq, false_and, exists_false, hx, hy, or_false]
  | some f =>
    simp only [hf, Option.any_some] at hx hy
    simp only [Option.some.injEq, exists_eq_left', decodeFormat_eq_reservedField, xDigit_opWord,
      yDigit_opWord, hx, hy]
    tauto

/-- Settles O6: the row of the op byte checks its condition or its accumulator, after the literal digit. -/
theorem badConditionsAndNonAccumulatorsAreRejected :
    Obligations.BadConditionsAndNonAccumulatorsAreRejected := by
  intro op x y
  rw [decodeWord_opWord_eq_error (by decide), decodeWord_opWord_eq_error (by decide)]
  obtain ⟨hc, hcy⟩ := formatOf_takesCond op
  obtain ⟨hay, ha⟩ := formatOf_takesAccumulator op
  rw [← hc, ← hcy, ← hay, ← ha]
  cases hf : formatOf op with
  | none => simp
  | some f =>
    simp only [Option.some.injEq, exists_eq_left', decodeFormat_eq_badCondition,
      decodeFormat_eq_nonAccumulator, xDigit_opWord, yDigit_opWord, Option.any_some,
      Bool.and_eq_true, Bool.not_eq_true']
    cases f.zeroY <;> simp [and_assoc]

end Sys2Proof
end

section
/-! Registers and data accesses (spec/10_state.md R24, spec/20_memory.md R61, R62, R64, R74). -/

namespace Sys2Proof.Machine

/-- An update of anything but the general registers, the flags and the internal registers keeps the parts that
it writes back as they were. -/
theorem sameExcept_update {l : List Field} (s : State) {ime : Bool} {ec : Byte} {pc : Long}
    {sp rp : Word} {mem : Memory} {irq : List (List InterruptNumber)}
    {platform : List PlatformEvent} {draws : Nat} (hime : .ime ∉ l → ime = s.ime)
    (hec : .ec ∉ l → ec = s.ec) (hpc : .pc ∉ l → pc = s.pc) (hsp : .sp ∉ l → sp = s.sp)
    (hrp : .rp ∉ l → rp = s.rp) (hmem : .mem ∉ l → mem = s.mem) (hirq : .irq ∉ l → irq = s.irq)
    (hplatform : .platform ∉ l → platform = s.platform) (hdraws : .draws ∉ l → draws = s.draws) :
    sameExcept l s { s with
      ime := ime, ec := ec, pc := pc, sp := sp, rp := rp, mem := mem, irq := irq
      platform := platform, draws := draws } := by
  intro x hx
  cases x with
  | ime => exact hime hx
  | ec => exact hec hx
  | pc => exact hpc hx
  | sp => exact hsp hx
  | rp => exact hrp hx
  | mem => exact fun a => readByte_congr (hmem hx) a
  | irq => exact hirq hx
  | platform => exact hplatform hx
  | draws => exact hdraws hx
  | long r => cases r <;> rfl
  | _ => rfl

/-- Settles O22: a write gives the register the truncated value and keeps all other bits. -/
theorem registerWriteChangesOnlyItsBits : Obligations.RegisterWriteChangesOnlyItsBits := by
  intro s r v
  rw [← truncTo_eq_ofNat]
  exact regBecomes_writeReg s r v

/-- A read inside the address space: the value, what the platform sees, the frame (R62, R76). -/
theorem memRead_spec (s : State) {addr : Long} {n : Nat} (hn : 0 < n)
    (h : addr.toNat + n ≤ addrLimit) :
    ∃ v t, memRead s addr n = .ok (v, t) ∧ valueRead addr.toNat n v s t ∧
      sameExcept [.platform] s t :=
  ⟨_, _, memRead_of_le s h, valueRead_valueSeen s _ hn, sameExcept_notePlatformRead s _⟩

/-- A write inside RAM: the bytes, what the platform sees, the frame (R62, R76). -/
theorem memWrite_spec (s : State) {addr : Long} {n : Nat} (v : Long) (hn : 0 < n)
    (h : addr.toNat + n ≤ addrLimit) (hr : romLimit ≤ addr.toNat) :
    ∃ t, memWrite s addr n v = .ok t ∧ valueStored addr.toNat n v s t ∧
      sameExcept [.mem, .platform] s t :=
  ⟨_, memWrite_of_le s h hr, valueStored_writeBytes s _ v hn, sameExcept_stored s _ _ _⟩

/-- Settles O23: an access inside the address space answers, any other wraps. -/
theorem memReadIsLittleEndianOrWraps : Obligations.MemReadIsLittleEndianOrWraps := by
  intro s addr n hn
  exact ⟨memRead_spec s (by omega), memRead_of_lt s⟩

/-- Settles O24: the two checks of a write, and what it stores when it passes them. -/
theorem memWriteIsLittleEndianOrFaults : Obligations.MemWriteIsLittleEndianOrFaults := by
  intro s addr n v hn
  exact ⟨memWrite_spec s v (by omega), memWrite_wrap s, memWrite_rom s⟩

/-- Settles O25: below the hardware-register page the bytes stored are the bytes read. -/
theorem readAfterWriteGivesTheValue : Obligations.ReadAfterWriteGivesTheValue := by
  intro s t addr n v _ hpage hwrite
  obtain ⟨-, hrom, -⟩ := memWrite_cases hwrite
  obtain rfl : writeBytes s addr.toNat (leBytes v.toNat n) = t := by
    rw [memWrite_below_page s hpage hrom] at hwrite
    exact Except.ok.inj hwrite
  have hbytes := readBytes_writeBytes s addr.toNat (leBytes v.toNat n) (by simpa using hpage)
  rw [leBytes_length] at hbytes
  rw [memRead_below_page _ hpage, hbytes, littleEndian_leBytes, Nat.pow_mul]

end Sys2Proof.Machine
end

section
/-! One step of the CPU (spec/60_exceptions.md R301, R303, R307, R310, R311, spec/20_memory.md R84): what the
fetch answers, what the prologue decides, and the state after reset (spec/10_state.md R44). -/

namespace Sys2Proof.Machine

/-! ### Fetch -/

/-- The opcode word at `PC` (R84, R101). -/
def wordAt (s : State) : Word := readByte s (s.pc.toNat + 1) ++ readByte s s.pc.toNat

/-- The state after the fetch of an instruction with `n` immediate bytes (R35 to R39, R84). -/
def fetchedState (s : State) (n : Nat) : State :=
  drawInternals { s with ia := s.pc, ci := wordAt s, pc := s.pc + 2 + BitVec.ofNat 32 n }

theorem fetchOpcode_error {s : State} {e : Fault} (h : fetchFault s.pc.toNat 2 = some e) :
    fetchOpcode s = .error e := by
  rw [fetchOpcode, fetch, fetchBytes_of_fault (s := { s with ia := s.pc }) h]

theorem fetchInstr_opcode_error {s : State} {e : Fault} (h : fetchFault s.pc.toNat 2 = some e) :
    fetchInstr s = .error e := by
  rw [fetchInstr, fetchOpcode_error h]

theorem fetchInstr_rejected {s : State} {r : Reject} (h : fetchFault s.pc.toNat 2 = none)
    (hd : decodeWord (wordAt s) = .error r) : fetchInstr s = .error (rejectFault r) := by
  rw [wordAt] at hd
  rw [fetchInstr, fetchOpcode_of_none h]
  simp only [hd]

theorem fetchInstr_immediate_error {s : State} {d : Decoded} {e : Fault}
    (h : fetchFault s.pc.toNat 2 = none) (hd : decodeWord (wordAt s) = .ok d)
    (hi : fetchFault (s.pc + 2).toNat d.immBytes = some e) : fetchInstr s = .error e := by
  rw [wordAt] at hd
  rw [fetchInstr, fetchOpcode_of_none h]
  simp only [hd]
  rw [fetchBytes_of_fault hi]

theorem fetchInstr_ok {s : State} {d : Decoded} (h : fetchFault s.pc.toNat 2 = none)
    (hd : decodeWord (wordAt s) = .ok d) (hi : fetchFault (s.pc + 2).toNat d.immBytes = none) :
    fetchInstr s = .ok (d.build (readBytes s (s.pc + 2).toNat d.immBytes),
      fetchedState s d.immBytes) := by
  rw [wordAt] at hd
  rw [fetchInstr, fetchOpcode_of_none h]
  simp only [hd]
  rw [fetchBytes_of_none hi]
  rfl

/-- A run of executable bytes inside the address space is fetched without fault (R84). -/
theorem fetchFault_of_executable {a n : Nat} (h : ∀ k, k < n → executable (a + k) = true) :
    fetchFault a n = none := by
  refine fetchFault_eq_none.2 fun k hk => ⟨?_, h k hk⟩
  have := (executable_iff _).1 (h k hk)
  simp only [addrLimit]
  omega

/-- The first byte of a fetch that may not be executed comes before any byte past the address space, so the
fault has its name (R84). -/
theorem fetchFault_at_not_executable {a n k : Nat} (hk : k < n) (ha : a + k < addrLimit)
    (hx : executable (a + k) = false) : fetchFault a n = some .fetchNotExecutable := by
  induction n generalizing a k with
  | zero => omega
  | succ n ih =>
    rw [fetchFault, if_neg (by omega)]
    split
    · rename_i h0
      cases k with
      | zero => exact absurd (hx.symm.trans h0) Bool.false_ne_true
      | succ k =>
        have hak : a + 1 + k = a + (k + 1) := by omega
        exact ih (Nat.lt_of_succ_lt_succ hk) (hak ▸ ha) (hak ▸ hx)
    · rfl

theorem pc_add_two {pc : Long} (h : pc.toNat + 2 ≤ 0xFFFFFFFF) : (pc + 2).toNat = pc.toNat + 2 := by
  have h2 : (2 : Long).toNat = 2 := rfl
  rw [BitVec.toNat_add, h2]
  omega

/-! ### What a step does once its prologue has decided -/

theorem prologue_of_runsInstruction {s : State} (h : runsInstruction s) :
    prologue s = .run (fetchState s) := by
  obtain ⟨hs, hl, hi⟩ := h
  exact prologue_run hs hl hi

/-- With `IME` set the lowest pending interrupt is taken (R307, R311). -/
theorem prologue_interrupt {s : State} {n : InterruptNumber} (hs : s.flags.s = false)
    (hi : s.ime = true) (hn : n ∈ pendingNow s) (hle : ∀ m ∈ pendingNow s, n ≤ m) :
    prologue s = .interrupt n (fetchState s) := by
  have hne : pendingNow s ≠ [] := List.ne_nil_of_mem hn
  simp [prologue, hs, hne, hi, lowestPending_eq_some.2 ⟨hn, hle⟩, afterSample, fetchState]

theorem step_of_wait {s t : State} (h : prologue s = .wait t) : step s = .next t := by
  rw [step, h]

theorem step_of_interrupt {s t : State} {n : InterruptNumber} (h : prologue s = .interrupt n t) :
    step s = settle (takeInterrupt n t) := by
  rw [step, h]

theorem step_of_fetch_ok {s s' : State} {i : Instr} (h : runsInstruction s)
    (hf : fetchInstr (fetchState s) = .ok (i, s')) : step s = exec i s' := by
  rw [step, prologue_of_runsInstruction h]
  simp only [hf]

theorem step_of_fetch_error {s : State} {e : Fault} (h : runsInstruction s)
    (hf : fetchInstr (fetchState s) = .error e) : step s = .fault e := by
  rw [step, prologue_of_runsInstruction h]
  simp only [hf]

/-! ### The statements -/

/-- The address of a byte that may be executed, in numbers (R63, R64). -/
theorem executable_of_ranges {a : Nat} (h : a < 0x80000000 ∨ (0xC0000000 ≤ a ∧ a ≤ 0xFFFCFFFF)) :
    executable a = true := (executable_iff a).2 h

/-- The opcode word at `PC` can be fetched when its two bytes stand in ROM or in XRAM. -/
theorem fetchFault_opcode {s : State} (h : s.pc.toNat + 1 < 0x80000000 ∨
    (0xC0000000 ≤ s.pc.toNat ∧ s.pc.toNat + 1 ≤ 0xFFFCFFFF)) : fetchFault s.pc.toNat 2 = none :=
  fetchFault_of_executable fun _ _ => executable_of_ranges (by omega)

theorem readBytes_two (s : State) (a : Nat) :
    readBytes s a 2 = [readByte s a, readByte s (a + 1)] := rfl

/-- Settles O7: the bytes that decode are the opcode word and its immediate, and both can be fetched. -/
theorem stepRunsTheDecodedInstruction : Obligations.StepRunsTheDecodedInstruction := by
  intro s i n hrun _ hdec hexec
  obtain ⟨lo, hi, l, d, hbytes, hd, hlen, hrest, rfl⟩ := decode_cases hdec
  have hl : l.length = d.immBytes := by
    have := List.drop_eq_nil_iff.1 hrest.symm
    omega
  obtain rfl : n = 2 + d.immBytes := by
    have := congrArg List.length hbytes
    simp only [readBytes_length, List.length_cons] at this
    omega
  rw [readBytes_append, readBytes_two] at hbytes
  obtain ⟨rfl, rfl, rfl⟩ : readByte s s.pc.toNat = lo ∧ readByte s (s.pc.toNat + 1) = hi ∧
      readBytes s (s.pc.toNat + 2) d.immBytes = l := by simpa using hbytes
  have hx := fun k (hk : k < 2 + d.immBytes) => executable_of_ranges (hexec k hk)
  have hpc : (s.pc + 2).toNat = s.pc.toNat + 2 := pc_add_two (by
    have := hexec 1 (by omega)
    omega)
  have hop : fetchFault s.pc.toNat 2 = none := fetchFault_of_executable fun k hk => hx k (by omega)
  have himm : fetchFault (s.pc + 2).toNat d.immBytes = none := by
    rw [hpc]
    exact fetchFault_of_executable fun k hk => by
      rw [Nat.add_assoc]
      exact hx (2 + k) (by omega)
  rw [step_of_fetch_ok hrun (fetchInstr_ok (s := fetchState s) hop hd himm)]
  have hi : d.build (readBytes (fetchState s) ((fetchState s).pc + 2).toNat d.immBytes) =
      d.build (List.take d.immBytes (readBytes s (s.pc.toNat + 2) d.immBytes)) := by
    rw [List.take_of_length_le hl.le, ← hpc]
    rfl
  rw [hi]
  congr 1
  simp only [fetchedState, drawInternals, BitVec.ofNat_add, BitVec.add_assoc]
  rfl

/-- Settles O8: the word is fetched, and decoding answers the reason. -/
theorem stepFaultsOnRejectedWords : Obligations.StepFaultsOnRejectedWords := by
  intro s r hrun hpc hd
  rw [step_of_fetch_error hrun (fetchInstr_rejected (s := fetchState s) (fetchFault_opcode hpc) hd)]
  cases r <;> rfl

/-- Settles O9: the byte that may not be executed is one of the opcode word or of its immediate. -/
theorem fetchOutsideExecutableMemoryFaults : Obligations.FetchOutsideExecutableMemoryFaults := by
  intro s k hrun hbad
  have hx : executable (s.pc.toNat + k) = false := by
    rw [← Bool.not_eq_true, executable_iff]
    exact hbad
  refine ⟨fun hk hlt => ?_, fun d hpc hd h2 hk => ?_⟩
  · exact step_of_fetch_error hrun
      (fetchInstr_opcode_error (s := fetchState s) (fetchFault_at_not_executable hk hlt hx))
  · have hle := decodeWord_immBytes_le hd
    have hadd : (s.pc + 2).toNat = s.pc.toNat + 2 := pc_add_two (by omega)
    have himm : fetchFault (s.pc + 2).toNat d.immBytes = some .fetchNotExecutable := by
      have hak : s.pc.toNat + 2 + (k - 2) = s.pc.toNat + k := by omega
      rw [hadd]
      exact fetchFault_at_not_executable (k := k - 2) (by omega) (by simp only [addrLimit]; omega)
        (hak ▸ hx)
    exact step_of_fetch_error hrun
      (fetchInstr_immediate_error (s := fetchState s) (fetchFault_opcode hpc) hd himm)

/-- Settles O10: the prologue asks for the stop first. -/
theorem stoppedCpuChangesNothing : Obligations.StoppedCpuChangesNothing := by
  intro s hs
  exact step_of_wait (by rw [prologue, if_pos hs])

/-- Settles O11: the prologue samples and waits. -/
theorem haltedCpuWaits : Obligations.HaltedCpuWaits := by
  intro s hs hl hp
  exact step_of_wait (by simp [prologue, hs, hl, hp, afterSample])

/-- With an interrupt pending the prologue does not ask for the halt (R310). -/
theorem prologue_of_pending {s : State} (hs : s.flags.s = false) (hp : pendingNow s ≠ []) :
    prologue { s with flags := { s.flags with l := false } } = prologue s := by
  rcases prologue_cases s with ⟨hs', -⟩ | ⟨-, -, hp', -⟩ | ⟨-, hi, n, hn, hle, h⟩ | ⟨-, -, hi, h⟩
  · exact absurd (hs.symm.trans hs') Bool.false_ne_true
  · exact absurd hp' hp
  · rw [h]
    exact prologue_interrupt hs hi hn hle
  · rw [h]
    exact prologue_run hs (fun hl => absurd hl Bool.false_ne_true) hi

/-- Settles O12: the two prologues decide alike. -/
theorem pendingInterruptLiftsTheHalt : Obligations.PendingInterruptLiftsTheHalt := by
  intro s _ hp hs
  rw [step, step, prologue_of_pending hs hp]

theorem interruptVector_toNat (n : InterruptNumber) :
    (interruptVector n).toNat = 0x2000 + 0x100 * n.val := by
  have := interruptNumber_lt n
  simp only [interruptVector, intStride_eq, intBase]
  bv_omega

/-- A call with room on the call stack: where it goes, what it stores, the frame (R71, R184, R185, R307). -/
theorem callTo_spec (s : State) (target : Long) (h4 : 4 ≤ s.rp.toNat) :
    ∃ t, callTo s target = .ok t ∧ t.pc = target ∧ t.rp.toNat = s.rp.toNat - 4 ∧
      (∀ k, k < 4 →
        readByte t (0xFFFE0000 + (s.rp.toNat - 4) + k) = s.pc.extractLsb' (8 * k) 8) ∧
      sameMemoryOutside (0xFFFE0000 + (s.rp.toNat - 4)) 4 s t ∧
      sameExcept [.pc, .rp, .mem] s t := by
  have hrp := s.rp.isLt
  refine ⟨_, callTo_of_le s target h4, rfl, ?_, fun k hk => ?_, fun k hk => ?_, ?_⟩
  · simp only [writeBytes_rp, word_sub_four h4]
  · exact readByte_pushed _ s.pc (by simp only [hwregStart]; omega) hk
  · exact readByte_writeBytes_outside _ (by simpa using hk)
  · rw [writeBytes_eq]
    apply sameExcept_update <;> simp

/-- An entry with room on the call stack is a call of the vector with `IME` clear, of which the platform is
told (R307). -/
theorem takeInterrupt_spec (n : InterruptNumber) (s : State) (h4 : 4 ≤ s.rp.toNat) :
    ∃ t, takeInterrupt n s = .ok t ∧ t.ime = false ∧ t.rp.toNat = s.rp.toNat - 4 ∧
      (∀ k, k < 4 →
        readByte t (0xFFFE0000 + (s.rp.toNat - 4) + k) = s.pc.extractLsb' (8 * k) 8) ∧
      sameMemoryOutside (0xFFFE0000 + (s.rp.toNat - 4)) 4 s t ∧
      t.pc = interruptVector n ∧ t.platform = .ack n :: s.platform ∧
      sameExcept [.ime, .rp, .mem, .pc, .platform] s t := by
  obtain ⟨t, ht, hpc, hrp, hpush, hout, hframe⟩ :=
    callTo_spec { s with ime := false } (interruptVector n) h4
  have hime : sameExcept [.ime] s { s with ime := false } := by
    apply sameExcept_update <;> simp
  have htell : sameExcept [.platform] t (tellPlatform t (.ack n)) := by
    apply sameExcept_update <;> simp
  have hplat : t.platform = s.platform := hframe .platform (by decide)
  refine ⟨tellPlatform t (.ack n), by rw [takeInterrupt, ht], hframe .ime (by decide), hrp, hpush, hout,
    hpc, congrArg (_ :: ·) hplat, ?_⟩
  exact sameExcept_trans (sameExcept_mono hime (by simp))
    (sameExcept_trans (sameExcept_mono hframe (by simp)) (sameExcept_mono htell (by simp)))

/-- Settles O13: the prologue chooses the lowest pending interrupt, and its entry is a push of `PC`. -/
theorem interruptEntrySavesPcAndJumps : Obligations.InterruptEntrySavesPcAndJumps := by
  intro s n hs hi hn hle
  have hstep := step_of_interrupt (prologue_interrupt hs hi hn hle)
  refine ⟨fun h4 => ?_, fun hlt => ?_⟩
  · obtain ⟨t, ht, hime, hrp, hpush, hout, hpc, hplat, hframe⟩ :=
      takeInterrupt_spec n (fetchState s) h4
    have hawake : sameExcept [.l, .irq] s (fetchState s) := by
      have hirq : sameExcept [.irq] s { s with irq := s.irq.tail } := by
        apply sameExcept_update <;> simp
      have hl : sameExcept [.l] { s with irq := s.irq.tail } (fetchState s) := by
        apply sameExcept_setFlags <;> simp
      exact sameExcept_trans (sameExcept_mono hirq (by simp)) (sameExcept_mono hl (by simp))
    refine ⟨t, by rw [hstep, ht, settle_ok], hime, hrp, hpush, hout, ?_, hplat, ?_, ?_, ?_⟩
    · rw [hpc, interruptVector_toNat]
    · exact hframe .l (by decide)
    · exact hframe .irq (by decide)
    · exact sameExcept_trans (sameExcept_mono hawake (by simp)) (sameExcept_mono hframe (by simp))
  · rw [hstep, takeInterrupt, callTo_of_lt { fetchState s with ime := false } _ hlt, settle_error]

/-- Settles O14: the reset state's fields, and memory in which nothing is stored. -/
theorem resetGivesTheInitialValues : Obligations.ResetGivesTheInitialValues := by
  refine ⟨rfl, rfl, rfl, rfl, rfl, rfl, rfl, rfl, rfl, rfl, rfl, rfl, rfl, rfl, rfl,
    fun a ha => ?_, fun a ha _ => ?_⟩
  · exact if_pos ha
  · exact if_neg (Nat.not_lt.2 ha)

/-- Settles O15: memory is empty and both stack pointers are `0xFFFF`. -/
theorem resetMeetsTheInvariant : Obligations.ResetMeetsTheInvariant :=
  ⟨reset_mem_wf, rfl, rfl⟩

end Sys2Proof.Machine
end

section
/-! What every step keeps (spec/20_memory.md R62, R64, R69 to R71): the canonical form of memory, ROM, and the
two stack pointers modulo 4. The control transfers are first put into equations that need no case split. -/

namespace Sys2Proof.Machine

/-! ### Control transfers -/

/-- A conditional jump, in one record update. -/
theorem jump_eq (b : Bool) (s : State) (target : Long) :
    (if b = true then { s with pc := target } else s) =
      { s with pc := if b = true then target else s.pc } := by
  split <;> rfl

theorem exec_jmpA32 (c : Cond) (a : Long) (s : State) : exec (.jmpA32 c a) s =
    .next { s with pc := if condHolds c s.flags = true then a else s.pc } :=
  congrArg _ (jump_eq _ s a)

theorem exec_jmpR (c : Cond) (y : Reg) (s : State) : exec (.jmpR c y) s =
    .next { s with pc := if condHolds c s.flags = true then readReg s y else s.pc } :=
  congrArg _ (jump_eq _ s _)

theorem exec_jpb (c : Cond) (off : Word) (s : State) : exec (.jpb c off) s =
    .next { s with pc := if condHolds c s.flags = true then s.pc + off.signExtend 32 else s.pc } :=
  congrArg _ (jump_eq _ s _)

theorem exec_call (c : Cond) (a : Long) (s : State) : exec (.call c a) s =
    settle (if condHolds c s.flags = true then callTo s a else .ok s) := by
  rw [apply_ite settle]
  rfl

theorem exec_ret (c : Cond) (s : State) : exec (.ret c) s =
    settle (if condHolds c s.flags = true then returnFromCall s else .ok s) := by
  rw [apply_ite settle]
  rfl

theorem exec_reti (s : State) : exec .reti s = settle (returnFromCall { s with ime := true }) := rfl

/-- Everything a conditional call or return can do: what the taken one does, or nothing (R180a). -/
theorem ite_ok_cases {b : Bool} {r : Except Fault State} {s t : State}
    (h : (if b = true then r else .ok s) = .ok t) : (b = true ∧ r = .ok t) ∨ t = s := by
  split at h
  · exact .inl ⟨‹_›, h⟩
  · exact .inr (Except.ok.inj h).symm

/-- Everything a pop into a register can do (R171). -/
theorem exec_pop_cases {x : Reg} {s t : State} (h : exec (.pop x) s = .next t) :
    ∃ v s', popData s = .ok (v, s') ∧ t = writeReg s' x v := by
  have h := settle_eq_next.1 h
  split at h
  · cases h
  · exact ⟨_, _, ‹_›, (Except.ok.inj h).symm⟩

/-- `INC [Y]` works on a byte, so nothing is drawn (R204). -/
theorem exec_incM (y : Reg) (s : State) : exec (.incM y) s =
    settle (modifyMem s (readReg s y) (incCore .byte (Config.incLongH s.draws))) := by
  change settle (match modifyMem s (readReg s y) (incCore .byte (Config.incLongH s.draws)) with
    | .error e => .error e
    | .ok s' => .ok s') = _
  cases modifyMem s (readReg s y) (incCore .byte (Config.incLongH s.draws)) <;> rfl

/-- Everything `BIT X, [Y]` can do (R282). -/
theorem exec_bitM_cases {b : Byte} {y : Reg} {s t : State} (h : exec (.bitM b y) s = .next t) :
    b.toNat < 8 ∧ ∃ v s', memRead s (readReg s y) 1 = .ok (v, s') ∧
      t = { s' with flags := bitFlags b v s'.flags } := by
  obtain ⟨hb, h⟩ := withBit_cases (settle_eq_next.1 h)
  split at h
  · cases h
  · exact ⟨hb, _, _, ‹_›, (Except.ok.inj h).symm⟩

/-! ### Changes that keep ROM and the invariant -/

/-- `t` may follow `s`: memory stays in canonical form, ROM is the same, and each stack pointer has moved by a
multiple of 4. -/
structure SafeChange (s t : State) : Prop where
  mem_wf : Memory.wf s.mem → Memory.wf t.mem
  rom : ∀ a, a < romLimit → readByte t a = readByte s a
  sp : t.sp.toNat % 4 = s.sp.toNat % 4
  rp : t.rp.toNat % 4 = s.rp.toNat % 4

namespace SafeChange

variable {s t u : State}

theorem of_same (hm : t.mem = s.mem) (hsp : t.sp = s.sp) (hrp : t.rp = s.rp) : SafeChange s t where
  mem_wf h := hm ▸ h
  rom a _ := readByte_congr hm a
  sp := by rw [hsp]
  rp := by rw [hrp]

theorem refl (s : State) : SafeChange s s := of_same rfl rfl rfl

theorem trans (h1 : SafeChange s t) (h2 : SafeChange t u) : SafeChange s u where
  mem_wf h := h2.mem_wf (h1.mem_wf h)
  rom a ha := (h2.rom a ha).trans (h1.rom a ha)
  sp := h2.sp.trans h1.sp
  rp := h2.rp.trans h1.rp

/-- An instruction that always completes and touches neither memory nor a stack pointer. -/
theorem of_next (h : (.next u : Result) = .next t) (hm : u.mem = s.mem) (hsp : u.sp = s.sp)
    (hrp : u.rp = s.rp) : SafeChange s t := by
  cases h
  exact of_same hm hsp hrp

/-- Bytes stored above ROM. -/
theorem writeBytes (s : State) {a : Nat} (l : List Byte) (ha : romLimit ≤ a) :
    SafeChange s (writeBytes s a l) where
  mem_wf h := writeBytes_wf h a l
  rom b hb := readByte_writeBytes_outside s (.inl (by omega))
  sp := by rw [writeBytes_sp]
  rp := by rw [writeBytes_rp]

theorem memRead {addr v : Long} {n : Nat} (h : memRead s addr n = .ok (v, t)) : SafeChange s t := by
  obtain ⟨-, rfl, -⟩ := memRead_cases h
  exact of_same (by simp) (by simp) (by simp)

theorem memWrite {addr v : Long} {n : Nat} (h : memWrite s addr n v = .ok t) : SafeChange s t := by
  obtain ⟨-, hr, rfl⟩ := memWrite_cases h
  exact (of_same (by simp) (by simp) (by simp)).trans (writeBytes _ _ hr)

theorem word_add_four_mod (p : Word) : (p + 4).toNat % 4 = p.toNat % 4 := by
  have h4 : (4 : Word).toNat = 4 := rfl
  rw [BitVec.toNat_add, h4]
  omega

theorem word_sub_four_mod {p : Word} (h : 4 ≤ p.toNat) : (p - 4).toNat % 4 = p.toNat % 4 := by
  rw [word_sub_four h]
  omega

theorem pushData {v : Long} (h : pushData s v = .ok t) : SafeChange s t := by
  obtain ⟨h4, rfl⟩ := pushData_cases h
  have hpush : SafeChange s { s with sp := s.sp - 4 } :=
    ⟨id, fun _ _ => rfl, word_sub_four_mod h4, rfl⟩
  exact hpush.trans (writeBytes _ _ (by simp only [romLimit]; omega))

theorem popData {v : Long} (h : popData s = .ok (v, t)) : SafeChange s t := by
  obtain ⟨-, rfl, -⟩ := popData_cases h
  exact ⟨id, fun _ _ => rfl, word_add_four_mod s.sp, rfl⟩

theorem callTo {a : Long} (h : callTo s a = .ok t) : SafeChange s t := by
  obtain ⟨h4, rfl⟩ := callTo_cases h
  have hpush : SafeChange s { s with rp := s.rp - 4 } :=
    ⟨id, fun _ _ => rfl, rfl, word_sub_four_mod h4⟩
  exact (hpush.trans (writeBytes _ _ (by simp only [romLimit]; omega))).trans (of_same rfl rfl rfl)

theorem takeInterrupt {n : InterruptNumber} (h : takeInterrupt n s = .ok t) : SafeChange s t := by
  obtain ⟨h4, rfl⟩ := takeInterrupt_cases h
  have hpush : SafeChange s { s with rp := s.rp - 4, ime := false } :=
    ⟨id, fun _ _ => rfl, rfl, word_sub_four_mod h4⟩
  exact (hpush.trans (writeBytes _ _ (by simp only [romLimit]; omega))).trans (of_same rfl rfl rfl)

theorem returnFromCall (h : returnFromCall s = .ok t) : SafeChange s t := by
  rw [returnFromCall_eq] at h
  cases h
  split
  · exact of_same (by simp) (by simp) (by simp)
  · exact ⟨id, fun _ _ => rfl, rfl, word_add_four_mod s.rp⟩

theorem load {x : Reg} {addr : Long} (h : load s x addr = .ok t) : SafeChange s t := by
  obtain ⟨v, s', hr, rfl⟩ := load_cases h
  exact (memRead hr).trans (of_same (by simp) (by simp) (by simp))

theorem withMemoryOperand {x y : Reg} {k : State → Reg → Long → State}
    (hk : ∀ s b, SafeChange s (k s x b)) (h : withMemoryOperand s x y k = .ok t) :
    SafeChange s t := by
  obtain ⟨v, s', hr, rfl⟩ := withMemoryOperand_cases h
  exact (memRead hr).trans (hk s' v)

theorem accumulate (op : BinaryOp) (s : State) (x : Reg) (b : Long) :
    SafeChange s (accumulate op s x b) := of_same (by simp) (by simp) (by simp)

theorem compare (s : State) (x : Reg) (b : Long) : SafeChange s (Machine.compare s x b) :=
  of_same (by simp) (by simp) (by simp)

theorem modifyMem {addr : Long} {op : UnaryOp} (h : modifyMem s addr op = .ok t) :
    SafeChange s t := by
  obtain ⟨v, s', s'', hr, hw, rfl⟩ := modifyMem_cases h
  exact ((memRead hr).trans (memWrite hw)).trans (of_same rfl rfl rfl)

end SafeChange

/-- Whatever instruction completes, ROM and the invariant are kept. -/
theorem exec_safeChange {i : Instr} {s t : State} (h : exec i s = .next t) : SafeChange s t := by
  cases i with
  | nop | stop | halt | sec _ | cec | di | ei | scf | ccf | jps => exact .of_next h rfl rfl rfl
  | daa | cpl | cpw | cpb | ldI _ _ | mv _ _ =>
    exact .of_next h (by simp) (by simp) (by simp)
  | ldA32 _ _ | ldM _ _ | ldq _ _ | ldh _ _ => exact .load (settle_eq_next.1 h)
  | stA32 _ _ | stM _ _ | stq _ _ | sth _ _ => exact .memWrite (settle_eq_next.1 h)
  | push _ => exact .pushData (settle_eq_next.1 h)
  | pop _ =>
    obtain ⟨v, s', hpop, rfl⟩ := exec_pop_cases h
    exact (SafeChange.popData hpop).trans (.of_same (by simp) (by simp) (by simp))
  | jmpA32 c a => exact .of_next ((exec_jmpA32 c a s).symm.trans h) rfl rfl rfl
  | jmpR c y => exact .of_next ((exec_jmpR c y s).symm.trans h) rfl rfl rfl
  | jpb c off => exact .of_next ((exec_jpb c off s).symm.trans h) rfl rfl rfl
  | call c a =>
    rw [exec_call] at h
    obtain ⟨-, h⟩ | rfl := ite_ok_cases (settle_eq_next.1 h)
    · exact .callTo h
    · exact .refl t
  | rst _ => exact .callTo (settle_eq_next.1 h)
  | ret c =>
    rw [exec_ret] at h
    obtain ⟨-, h⟩ | rfl := ite_ok_cases (settle_eq_next.1 h)
    · exact .returnFromCall h
    · exact .refl t
  | reti =>
    have hime : SafeChange s { s with ime := true } := .of_same rfl rfl rfl
    exact hime.trans (.returnFromCall (settle_eq_next.1 h))
  | incR _ | decR _ | slaR _ | sraR _ | srlR _ | rlR _ | rlcR _ | rrR _ | rrcR _ | swapR _ =>
    exact .of_next h (by simp) (by simp) (by simp)
  | incM y => exact .modifyMem (settle_eq_next.1 ((exec_incM y s).symm.trans h))
  | decM _ | slaM _ | sraM _ | srlM _ | rlM _ | rlcM _ | rrM _ | rrcM _ | swapM _ =>
    exact .modifyMem (settle_eq_next.1 h)
  | addI _ _ | addR _ _ | adcI _ _ | adcR _ _ | subI _ _ | subR _ _ | sbcI _ _ | sbcR _ _
  | andI _ _ | andR _ _ | orI _ _ | orR _ _ | xorI _ _ | xorR _ _ | cmpI _ _ | cmpR _ _ =>
    exact .of_next h (by simp) (by simp) (by simp)
  | addM _ _ | adcM _ _ | subM _ _ | sbcM _ _ | andM _ _ | orM _ _ | xorM _ _ =>
    exact .withMemoryOperand (fun s b => .accumulate _ s _ b) (settle_eq_next.1 h)
  | cmpM _ _ => exact .withMemoryOperand (fun s b => .compare s _ b) (settle_eq_next.1 h)
  | bitR _ _ =>
    cases (withBit_cases (settle_eq_next.1 h)).2
    exact .of_same rfl rfl rfl
  | bitM _ _ =>
    obtain ⟨-, v, s', hr, rfl⟩ := exec_bitM_cases h
    exact (SafeChange.memRead hr).trans (.of_same rfl rfl rfl)
  | setR _ _ | resR _ _ =>
    cases (withBit_cases (settle_eq_next.1 h)).2
    exact .of_same (by simp) (by simp) (by simp)
  | setM _ _ | resM _ _ => exact .modifyMem (withBit_cases (settle_eq_next.1 h)).2

/-- Whatever a step does, ROM and the invariant are kept. -/
theorem step_safeChange {s t : State} (h : step s = .next t) : SafeChange s t := by
  have hawake : SafeChange s (fetchState s) := .of_same rfl rfl rfl
  rcases step_cases h with ⟨-, rfl⟩ | ⟨-, -, -, rfl⟩ | ⟨-, -, n, -, h⟩ | ⟨-, i, s', hf, h⟩
  · exact .refl t
  · exact .of_same rfl rfl rfl
  · exact hawake.trans (.takeInterrupt h)
  · have hfetch : SafeChange (fetchState s) s' := by
      obtain ⟨d, -, -, -, -, rfl⟩ := fetchInstr_cases hf
      exact .of_same rfl rfl rfl
    exact (hawake.trans hfetch).trans (exec_safeChange h)

/-- Settles O16. -/
theorem stepKeepsTheInvariant : Obligations.StepKeepsTheInvariant := by
  intro s t ⟨hmem, hsp, hrp⟩ h
  have hsafe := step_safeChange h
  exact ⟨hsafe.mem_wf hmem, hsafe.sp.trans hsp, hsafe.rp.trans hrp⟩

/-- Settles O17: every write of the model lies above ROM. -/
theorem romNeverChanges : Obligations.RomNeverChanges :=
  fun _ _ a h ha => (step_safeChange h).rom a ha

end Sys2Proof.Machine
end

section
/-! The flags (spec/10_state.md R45): what each instruction does to them is what its flag string says. From it,
which instructions set `S` and `L` (R28, R302). -/

namespace Sys2Proof.Machine

/-! ### Operations that keep every flag -/

theorem memRead_flags {s t : State} {addr v : Long} {n : Nat} (h : memRead s addr n = .ok (v, t)) :
    t.flags = s.flags := by
  obtain ⟨-, rfl, -⟩ := memRead_cases h
  exact notePlatformRead_flags s _

theorem memWrite_flags {s t : State} {addr v : Long} {n : Nat} (h : memWrite s addr n v = .ok t) :
    t.flags = s.flags := by
  rw [memWrite_frame h]

theorem load_flags {s t : State} {x : Reg} {addr : Long} (h : load s x addr = .ok t) :
    t.flags = s.flags := by
  obtain ⟨v, s', hr, rfl⟩ := load_cases h
  rw [writeReg_flags, memRead_flags hr]

theorem pushData_flags {s t : State} {v : Long} (h : pushData s v = .ok t) : t.flags = s.flags := by
  obtain ⟨-, rfl⟩ := pushData_cases h
  exact writeBytes_flags _ _ _

theorem exec_pop_flags {x : Reg} {s t : State} (h : exec (.pop x) s = .next t) :
    t.flags = s.flags := by
  obtain ⟨v, s', hpop, rfl⟩ := exec_pop_cases h
  obtain ⟨-, rfl, -⟩ := popData_cases hpop
  exact writeReg_flags _ x v

theorem callTo_flags {s t : State} {a : Long} (h : callTo s a = .ok t) : t.flags = s.flags := by
  obtain ⟨-, rfl⟩ := callTo_cases h
  exact writeBytes_flags _ _ _

theorem takeInterrupt_flags {n : InterruptNumber} {s t : State} (h : takeInterrupt n s = .ok t) :
    t.flags = s.flags := by
  obtain ⟨-, rfl⟩ := takeInterrupt_cases h
  exact writeBytes_flags _ _ _

/-! ### Operations whose flags are those of a result -/

theorem withMemoryOperand_flags {s t : State} {x y : Reg} {k : State → Reg → Long → State}
    (h : withMemoryOperand s x y k = .ok t) : ∃ s' b, s'.flags = s.flags ∧ t = k s' x b := by
  obtain ⟨v, s', hr, rfl⟩ := withMemoryOperand_cases h
  exact ⟨s', v, memRead_flags hr, rfl⟩

theorem modifyMem_flags {s t : State} {addr : Long} {op : UnaryOp} (h : modifyMem s addr op = .ok t) :
    ∃ v, t.flags = (op v s.flags).2 := by
  obtain ⟨v, s', s'', -, -, rfl⟩ := modifyMem_cases h
  exact ⟨v, rfl⟩

/-- A return keeps every flag but `S` (R186, R187). -/
theorem returnFromCall_flags {s t : State} (h : returnFromCall s = .ok t) :
    t.flags = { s.flags with s := t.flags.s } := by
  rw [returnFromCall_eq] at h
  cases h
  split <;> rfl

/-! ### What results do to the flags -/

section Allows

variable (w : Width) (a b : Long) (cin : Bool) (f : Flags)

theorem keep_allows {f g : Flags} (h : g = f) :
    FlagString.allows ⟨.keep, .keep, .keep, .keep, .keep, .keep, .keep, .keep⟩ f g := by
  rw [h]
  exact ⟨rfl, rfl, rfl, rfl, rfl, rfl, rfl, rfl⟩

theorem addCore_allows : FlagString.allows
    ⟨.result, .clear, .result, .result, .result, .clear, .keep, .keep⟩ f (addCore w a b cin f).2 :=
  ⟨trivial, rfl, trivial, trivial, trivial, rfl, rfl, rfl⟩

theorem subCore_allows : FlagString.allows
    ⟨.result, .set, .result, .result, .clear, .result, .keep, .keep⟩ f (subCore w a b cin f).2 :=
  ⟨trivial, rfl, trivial, trivial, rfl, trivial, rfl, rfl⟩

theorem incCore_allows : FlagString.allows
    ⟨.result, .clear, .result, .keep, .keep, .keep, .keep, .keep⟩ f (incCore w cin a f).2 :=
  ⟨trivial, rfl, trivial, rfl, rfl, rfl, rfl, rfl⟩

theorem decCore_allows : FlagString.allows
    ⟨.result, .set, .result, .keep, .keep, .keep, .keep, .keep⟩ f (decCore w a f).2 :=
  ⟨trivial, rfl, trivial, rfl, rfl, rfl, rfl, rfl⟩

theorem logicCore_and_allows : FlagString.allows
    ⟨.result, .clear, .set, .clear, .clear, .clear, .keep, .keep⟩ f (logicCore .and a b f).2 :=
  ⟨trivial, rfl, rfl, rfl, rfl, rfl, rfl, rfl⟩

theorem logicCore_or_allows : FlagString.allows
    ⟨.result, .clear, .clear, .clear, .clear, .clear, .keep, .keep⟩ f (logicCore .or a b f).2 :=
  ⟨trivial, rfl, rfl, rfl, rfl, rfl, rfl, rfl⟩

theorem logicCore_xor_allows : FlagString.allows
    ⟨.result, .clear, .clear, .clear, .clear, .clear, .keep, .keep⟩ f (logicCore .xor a b f).2 :=
  ⟨trivial, rfl, rfl, rfl, rfl, rfl, rfl, rfl⟩

theorem shiftCore_allows (k : ShiftKind) : FlagString.allows
    ⟨.result, .clear, .clear, .result, .clear, .clear, .keep, .keep⟩ f (shiftCore k w a f).2 :=
  ⟨trivial, rfl, rfl, trivial, rfl, rfl, rfl, rfl⟩

theorem swapCore_allows : FlagString.allows
    ⟨.result, .clear, .clear, .clear, .clear, .clear, .keep, .keep⟩ f (swapCore w a f).2 :=
  ⟨trivial, rfl, rfl, rfl, rfl, rfl, rfl, rfl⟩

theorem bitFlags_allows (k : Byte) : FlagString.allows
    ⟨.result, .clear, .set, .keep, .keep, .keep, .keep, .keep⟩ f (bitFlags k a f) :=
  ⟨trivial, rfl, rfl, rfl, rfl, rfl, rfl, rfl⟩

theorem setCore_allows (k : Byte) : FlagString.allows
    ⟨.keep, .clear, .clear, .set, .keep, .keep, .keep, .keep⟩ f (setCore k a f).2 :=
  ⟨rfl, rfl, rfl, rfl, rfl, rfl, rfl, rfl⟩

end Allows

theorem return_allows {f g : Flags} (h : g = { f with s := g.s }) :
    FlagString.allows ⟨.keep, .keep, .keep, .keep, .keep, .keep, .keep, .result⟩ f g := by
  rw [h]
  exact ⟨rfl, rfl, rfl, rfl, rfl, rfl, rfl, trivial⟩

theorem modifyMem_allows {e : FlagString} {s t : State} {addr : Long} {op : UnaryOp}
    (hop : ∀ v f, e.allows f (op v f).2) (h : modifyMem s addr op = .ok t) :
    e.allows s.flags t.flags := by
  obtain ⟨v, hv⟩ := modifyMem_flags h
  rw [hv]
  exact hop v s.flags

theorem withMemoryOperand_allows {e : FlagString} {s t : State} {x y : Reg}
    {k : State → Reg → Long → State} (h : withMemoryOperand s x y k = .ok t)
    (hk : ∀ s b, e.allows s.flags (k s x b).flags) : e.allows s.flags t.flags := by
  obtain ⟨s', b, hf, rfl⟩ := withMemoryOperand_flags h
  rw [← hf]
  exact hk s' b

/-- An instruction that always completes, by the flags it leaves. -/
theorem next_allows {e : FlagString} {s t u : State} (h : (.next u : Result) = .next t)
    (he : e.allows s.flags u.flags) : e.allows s.flags t.flags := by
  cases h
  exact he

/-- Settles O20: each family writes the flags of its result, or none. -/
theorem flagsChangeAsTheFlagStringsSay : Obligations.FlagsChangeAsTheFlagStringsSay := by
  intro i s t h
  cases i with
  | nop | sec _ | cec | di | ei | jps => exact next_allows h (keep_allows rfl)
  | stop | halt => exact next_allows h ⟨rfl, rfl, rfl, rfl, rfl, rfl, rfl, rfl⟩
  | daa => exact next_allows h ⟨trivial, rfl, rfl, trivial, trivial, trivial, rfl, rfl⟩
  | cpl | cpw | cpb | scf => exact next_allows h ⟨rfl, rfl, rfl, rfl, rfl, rfl, rfl, rfl⟩
  | ccf => exact next_allows h ⟨rfl, rfl, rfl, trivial, rfl, rfl, rfl, rfl⟩
  | ldI _ _ | mv _ _ => exact next_allows h (keep_allows (by simp))
  | ldA32 _ _ | ldM _ _ | ldq _ _ | ldh _ _ => exact keep_allows (load_flags (settle_eq_next.1 h))
  | stA32 _ _ | stM _ _ | stq _ _ | sth _ _ =>
    exact keep_allows (memWrite_flags (settle_eq_next.1 h))
  | push _ => exact keep_allows (pushData_flags (settle_eq_next.1 h))
  | pop _ => exact keep_allows (exec_pop_flags h)
  | jmpA32 c a => exact next_allows ((exec_jmpA32 c a s).symm.trans h) (keep_allows rfl)
  | jmpR c y => exact next_allows ((exec_jmpR c y s).symm.trans h) (keep_allows rfl)
  | jpb c off => exact next_allows ((exec_jpb c off s).symm.trans h) (keep_allows rfl)
  | call c a =>
    rw [exec_call] at h
    obtain ⟨-, h⟩ | rfl := ite_ok_cases (settle_eq_next.1 h)
    · exact keep_allows (callTo_flags h)
    · exact keep_allows rfl
  | rst _ => exact keep_allows (callTo_flags (settle_eq_next.1 h))
  | ret c =>
    rw [exec_ret] at h
    obtain ⟨-, h⟩ | rfl := ite_ok_cases (settle_eq_next.1 h)
    · exact return_allows (returnFromCall_flags h)
    · exact return_allows rfl
  | reti =>
    have hs := returnFromCall_flags (s := { s with ime := true }) (settle_eq_next.1 h)
    exact return_allows hs
  | incR _ => exact next_allows h (by rw [drawnIfLong_flags]; exact incCore_allows _ _ _ _)
  | incM y =>
    exact modifyMem_allows (fun v f => incCore_allows .byte v _ f)
      (settle_eq_next.1 ((exec_incM y s).symm.trans h))
  | decR _ => exact next_allows h (decCore_allows _ _ _)
  | decM _ => exact modifyMem_allows (decCore_allows _) (settle_eq_next.1 h)
  | addI _ _ | addR _ _ | adcI _ _ | adcR _ _ => exact next_allows h (addCore_allows _ _ _ _ _)
  | addM _ _ | adcM _ _ =>
    exact withMemoryOperand_allows (settle_eq_next.1 h) fun s b => addCore_allows _ _ b _ s.flags
  | subI _ _ | subR _ _ | sbcI _ _ | sbcR _ _ | cmpI _ _ | cmpR _ _ =>
    exact next_allows h (subCore_allows _ _ _ _ _)
  | subM _ _ | sbcM _ _ | cmpM _ _ =>
    exact withMemoryOperand_allows (settle_eq_next.1 h) fun s b => subCore_allows _ _ b _ s.flags
  | andI _ _ | andR _ _ => exact next_allows h (logicCore_and_allows _ _ _)
  | andM _ _ =>
    exact withMemoryOperand_allows (settle_eq_next.1 h) fun s b => logicCore_and_allows _ b s.flags
  | orI _ _ | orR _ _ => exact next_allows h (logicCore_or_allows _ _ _)
  | orM _ _ =>
    exact withMemoryOperand_allows (settle_eq_next.1 h) fun s b => logicCore_or_allows _ b s.flags
  | xorI _ _ | xorR _ _ => exact next_allows h (logicCore_xor_allows _ _ _)
  | xorM _ _ =>
    exact withMemoryOperand_allows (settle_eq_next.1 h) fun s b => logicCore_xor_allows _ b s.flags
  | slaR _ | sraR _ | srlR _ | rlR _ | rlcR _ | rrR _ | rrcR _ =>
    exact next_allows h (shiftCore_allows _ _ _ _)
  | slaM _ | sraM _ | srlM _ | rlM _ | rlcM _ | rrM _ | rrcM _ =>
    exact modifyMem_allows (fun v f => shiftCore_allows _ v f _) (settle_eq_next.1 h)
  | bitR _ _ =>
    cases (withBit_cases (settle_eq_next.1 h)).2
    exact bitFlags_allows _ _ _
  | bitM _ _ =>
    obtain ⟨-, v, s', hr, rfl⟩ := exec_bitM_cases h
    rw [← memRead_flags hr]
    exact bitFlags_allows _ _ _
  | setR b y =>
    cases (withBit_cases (settle_eq_next.1 h)).2
    exact setCore_allows (readReg s y) s.flags b
  | setM _ _ =>
    exact modifyMem_allows (fun v f => setCore_allows v f _) (withBit_cases (settle_eq_next.1 h)).2
  | resR _ _ =>
    cases (withBit_cases (settle_eq_next.1 h)).2
    exact keep_allows rfl
  | resM _ _ =>
    exact modifyMem_allows (fun v f => keep_allows rfl) (withBit_cases (settle_eq_next.1 h)).2
  | swapR _ => exact next_allows h (swapCore_allows _ _ _)
  | swapM _ => exact modifyMem_allows (swapCore_allows _) (settle_eq_next.1 h)

/-! ### `S` and `L` -/

/-- The fetch of an instruction leaves the state of `fetchedState`. -/
theorem fetchInstr_state {s t : State} {i : Instr} (h : fetchInstr s = .ok (i, t)) :
    ∃ n, t = fetchedState s n := by
  obtain ⟨d, -, -, -, -, rfl⟩ := fetchInstr_cases h
  exact ⟨d.immBytes, rfl⟩

theorem flagString_s (i : Instr) :
    (flagString i).s = .keep ∨ i = .stop ∨ i = .reti ∨ ∃ c, i = .ret c := by
  cases i <;> simp [flagString]

theorem flagString_l (i : Instr) : (flagString i).l = .keep ∨ i = .halt := by
  cases i <;> simp [flagString]

theorem exec_keeps_s {i : Instr} {s t : State} (h : exec i s = .next t)
    (hi : (flagString i).s = .keep) : t.flags.s = s.flags.s := by
  obtain ⟨-, -, -, -, -, -, -, hs⟩ := flagsChangeAsTheFlagStringsSay i s t h
  rwa [hi] at hs

theorem exec_keeps_l {i : Instr} {s t : State} (h : exec i s = .next t)
    (hi : (flagString i).l = .keep) : t.flags.l = s.flags.l := by
  obtain ⟨-, -, -, -, -, -, hl, -⟩ := flagsChangeAsTheFlagStringsSay i s t h
  rwa [hi] at hl

/-- A return that leaves `S` set found the call stack empty, and cleared `EC` (R186, R187). -/
theorem returnFromCall_stops {s t : State} (h : returnFromCall s = .ok t) (hs : s.flags.s = false)
    (ht : t.flags.s = true) : s.rp = 0xFFFF ∧ t.ec = 0x00 := by
  rw [returnFromCall_eq] at h
  cases h
  split at ht
  · rw [if_pos ‹_›]
    exact ⟨‹_›, rfl⟩
  · exact absurd (hs.symm.trans ht) Bool.false_ne_true

/-- Everything a step from a running CPU can do, when it changes more than the sample: an interrupt entry or
an instruction, from the state in which `L` is clear. -/
theorem step_awake_cases {s t : State} (h : step s = .next t) (hs : s.flags.s = false)
    (hl : s.flags.l = true → pendingNow s ≠ []) :
    (∃ n, takeInterrupt n (fetchState s) = .ok t) ∨
      ∃ i k, fetchInstr (fetchState s) = .ok (i, fetchedState (fetchState s) k) ∧
        exec i (fetchedState (fetchState s) k) = .next t := by
  rcases step_cases h with ⟨hs', -⟩ | ⟨-, hl', hp, -⟩ | ⟨-, -, n, -, h⟩ | ⟨-, i, s', hf, h⟩
  · exact absurd (hs.symm.trans hs') Bool.false_ne_true
  · exact absurd hp (hl hl')
  · exact .inl ⟨n, h⟩
  · obtain ⟨k, rfl⟩ := fetchInstr_state hf
    exact .inr ⟨i, k, hf, h⟩

/-- Settles O18: by its flag string only `STOP`, `RET` and `RETI` may set `S`. -/
theorem stopFlagOnlySetByStopCauses : Obligations.StopFlagOnlySetByStopCauses := by
  intro s t h hs ht
  have hne : ¬ t.flags.s = s.flags.s := by rw [hs, ht]; decide
  have hl : s.flags.l = true → pendingNow s ≠ [] := by
    intro hl hp
    rw [haltedCpuWaits s hs hl hp] at h
    cases h
    exact hne rfl
  obtain ⟨n, h⟩ | ⟨i, k, hf, h⟩ := step_awake_cases h hs hl
  · exact absurd (congrArg Flags.s (takeInterrupt_flags h)) hne
  · refine ⟨i, _, hf, ?_⟩
    have hcond : ∀ c, condHolds c (fetchedState (fetchState s) k).flags = condHolds c s.flags := by
      intro c
      cases c <;> rfl
    obtain hi | rfl | rfl | ⟨c, rfl⟩ := flagString_s i
    · exact absurd (exec_keeps_s h hi) hne
    · cases h
      exact .inl ⟨rfl, rfl⟩
    · obtain ⟨hrp, hec⟩ := returnFromCall_stops (settle_eq_next.1 ((exec_reti _).symm.trans h)) hs ht
      exact .inr ⟨.inl rfl, hrp, hec⟩
    · rw [exec_ret] at h
      obtain ⟨hc, h⟩ | rfl := ite_ok_cases (settle_eq_next.1 h)
      · obtain ⟨hrp, hec⟩ := returnFromCall_stops h hs ht
        exact .inr ⟨.inr ⟨c, rfl, (hcond c).symm.trans hc⟩, hrp, hec⟩
      · exact absurd rfl hne

/-- Settles O19: by its flag string only `HALT` may set `L`. -/
theorem haltFlagOnlySetByHalt : Obligations.HaltFlagOnlySetByHalt := by
  intro s t h hl ht
  have hne : ¬ t.flags.l = false := by rw [ht]; decide
  have hs : s.flags.s = false := by
    rw [← Bool.not_eq_true]
    intro hs
    rw [stoppedCpuChangesNothing s hs] at h
    cases h
    exact hne hl
  obtain ⟨n, h⟩ | ⟨i, k, hf, h⟩ :=
    step_awake_cases h hs fun h' => absurd (hl.symm.trans h') Bool.false_ne_true
  · exact absurd (congrArg Flags.l (takeInterrupt_flags h)) hne
  · obtain hi | rfl := flagString_l i
    · exact absurd (exec_keeps_l h hi) hne
    · exact ⟨_, hf⟩

end Sys2Proof.Machine
end

section
/-! Nothing reads `EC`, `IA`, `MA`, `MD`, `CI` or `DA` (spec/10_state.md R31, R35 to R39): every operation
commutes with a change of these registers, or overwrites them. -/

namespace Sys2Proof.Machine

/-- What `DAA` does to `AL` and the flags (R147). -/
def daaOp : UnaryOp := fun a f =>
  ((daaCore (a.setWidth 8) f).1.setWidth 32, (daaCore (a.setWidth 8) f).2)

theorem exec_daa (s : State) : exec .daa s = .next (modifyReg s ⟨.a, .lo⟩ daaOp) := rfl

/-! ### A change of the internal registers -/

/-- Values of the six registers that nothing reads. -/
structure Internals where
  ec : Byte
  ia : Long
  ma : Long
  md : Long
  ci : Word
  da : Bool

/-- The state with these values in the six registers. -/
def setInternals (k : Internals) (s : State) : State :=
  { s with ec := k.ec, ia := k.ia, ma := k.ma, md := k.md, ci := k.ci, da := k.da }

/-- Two answers that differ in the six registers at most: two such states, or the same fault. -/
def alike (r r' : Result) : Prop :=
  match r, r' with
  | .next t, .next t' => ∃ k, t' = setInternals k t
  | .fault e, .fault e' => e = e'
  | _, _ => False

section Alike

variable {k : Internals} {s : State}

theorem alike_next {t t' : State} (h : t' = setInternals k t) : alike (.next t) (.next t') := ⟨k, h⟩

/-- Operations that commute with a change of the six registers answer alike. -/
theorem alike_settle {r r' : Except Fault State} (h : r' = r.map (setInternals k)) :
    alike (settle r) (settle r') := by
  subst h
  cases r with
  | ok t => exact ⟨k, rfl⟩
  | error e => exact rfl

/-- A check of something that both states share. -/
theorem alike_ite {b : Bool} {r₁ r₂ r₁' r₂' : Except Fault State}
    (h₁ : alike (settle r₁) (settle r₁')) (h₂ : alike (settle r₂) (settle r₂')) :
    alike (settle (if b = true then r₁ else r₂)) (settle (if b = true then r₁' else r₂')) := by
  split
  · exact h₁
  · exact h₂

end Alike

/-! ### The operations commute -/

section Commute

variable (k : Internals) (s : State)

theorem setLong_setInternals (r : Row) (v : Long) :
    (setInternals k s).setLong r v = setInternals k (s.setLong r v) := by
  cases r <;> rfl

theorem writeReg_setInternals (x : Reg) (v : Long) :
    writeReg (setInternals k s) x v = setInternals k (writeReg s x v) :=
  setLong_setInternals k s x.row _

theorem notePlatformRead_setInternals (l : List Nat) :
    notePlatformRead (setInternals k s) l = setInternals k (notePlatformRead s l) := by
  unfold notePlatformRead
  split <;> rfl

theorem notePlatformWrite_setInternals (l : List Host.Cell) :
    notePlatformWrite (setInternals k s) l = setInternals k (notePlatformWrite s l) := by
  unfold notePlatformWrite
  split <;> rfl

theorem writeByte_setInternals (a : Nat) (v : Byte) :
    writeByte (setInternals k s) a v = setInternals k (writeByte s a v) := by
  unfold writeByte
  split <;> rfl

theorem writeBytes_setInternals (a : Nat) (l : List Byte) :
    writeBytes (setInternals k s) a l = setInternals k (writeBytes s a l) := by
  induction l generalizing s a with
  | nil => rfl
  | cons v rest ih => rw [writeBytes, writeByte_setInternals, ih, writeBytes]

theorem memRead_setInternals (addr : Long) (n : Nat) : memRead (setInternals k s) addr n =
    (memRead s addr n).map fun p => (p.1, setInternals k p.2) := by
  unfold memRead
  split
  · rfl
  · simp only [notePlatformRead_setInternals]
    rfl

theorem memWrite_setInternals (addr : Long) (n : Nat) (v : Long) :
    memWrite (setInternals k s) addr n v = (memWrite s addr n v).map (setInternals k) := by
  unfold memWrite
  split
  · rfl
  · split
    · rfl
    · rw [notePlatformWrite_setInternals, writeBytes_setInternals]
      rfl

theorem load_setInternals (x : Reg) (addr : Long) :
    load (setInternals k s) x addr = (load s x addr).map (setInternals k) := by
  rw [load, load, memRead_setInternals]
  cases memRead s addr x.width.bytes with
  | error e => rfl
  | ok p => exact congrArg Except.ok (writeReg_setInternals k p.2 x p.1)

theorem pushData_setInternals (v : Long) :
    pushData (setInternals k s) v = (pushData s v).map (setInternals k) := by
  rw [pushData, pushData, apply_ite (Except.map (setInternals k)), ← memWrite_setInternals]
  rfl

theorem popData_setInternals : popData (setInternals k s) =
    (popData s).map fun p => (p.1, setInternals k p.2) := by
  by_cases h : s.sp = emptyPointer
  · rw [popData, popData, if_pos h, if_pos (show (setInternals k s).sp = emptyPointer from h)]
    rfl
  · rw [popData_of_ne s h, popData_of_ne (setInternals k s) h]
    rfl

theorem callTo_setInternals (a : Long) :
    callTo (setInternals k s) a = (callTo s a).map (setInternals k) := by
  by_cases h : 4 ≤ s.rp.toNat
  · have hw := writeBytes_setInternals k { s with rp := s.rp - 4 }
      (0xFFFE0000 + (s.rp.toNat - 4)) (leBytes s.pc.toNat 4)
    rw [callTo_of_le s a h, callTo_of_le (setInternals k s) a h]
    exact congrArg (fun t : State => Except.ok { t with pc := a }) hw
  · have hlt : s.rp.toNat < 4 := Nat.lt_of_not_le h
    rw [callTo_of_lt s a hlt, callTo_of_lt (setInternals k s) a hlt]
    rfl

theorem takeInterrupt_setInternals (n : InterruptNumber) :
    takeInterrupt n (setInternals k s) = (takeInterrupt n s).map (setInternals k) := by
  have h := callTo_setInternals k { s with ime := false } (interruptVector n)
  unfold takeInterrupt
  rw [show { setInternals k s with ime := false } = setInternals k { s with ime := false } from rfl, h]
  cases callTo { s with ime := false } (interruptVector n) <;> rfl

theorem accumulate_setInternals (op : BinaryOp) (x : Reg) (b : Long) :
    accumulate op (setInternals k s) x b = setInternals k (accumulate op s x b) :=
  congrArg (fun t : State => { t with flags := (op x.width (readReg s x) b s.flags).2 })
    (writeReg_setInternals k s x (op x.width (readReg s x) b s.flags).1)

theorem modifyReg_setInternals (x : Reg) (op : UnaryOp) :
    modifyReg (setInternals k s) x op = setInternals k (modifyReg s x op) :=
  congrArg (fun t : State => { t with flags := (op (readReg s x) s.flags).2 })
    (writeReg_setInternals k s x (op (readReg s x) s.flags).1)

theorem drawnIfLong_setInternals (w : Width) :
    drawnIfLong w (setInternals k s) = setInternals k (drawnIfLong w s) := by
  cases w <;> rfl

theorem withMemoryOperand_setInternals {x y : Reg} {op : State → Reg → Long → State}
    (hop : ∀ s b, op (setInternals k s) x b = setInternals k (op s x b)) :
    withMemoryOperand (setInternals k s) x y op =
      (withMemoryOperand s x y op).map (setInternals k) := by
  unfold withMemoryOperand
  rw [show pointer (setInternals k s) y = pointer s y from rfl, memRead_setInternals]
  cases memRead s (pointer s y) x.width.bytes with
  | error e => rfl
  | ok p => exact congrArg Except.ok (hop p.2 p.1)

theorem modifyMem_setInternals (addr : Long) (op : UnaryOp) :
    modifyMem (setInternals k s) addr op = (modifyMem s addr op).map (setInternals k) := by
  unfold modifyMem
  rw [memRead_setInternals]
  cases memRead s addr memopWidth.bytes with
  | error e => rfl
  | ok p =>
    have h := memWrite_setInternals k p.2 addr memopWidth.bytes (op p.1 p.2.flags).1
    simp only [Except.map] at h ⊢
    rw [show (setInternals k p.2).flags = p.2.flags from rfl, h]
    cases memWrite p.2 addr memopWidth.bytes (op p.1 p.2.flags).1 <;> rfl

theorem withBit_map {b : Byte} {w : Width} {r r' : Except Fault State}
    (h : r' = r.map (setInternals k)) : withBit b w r' = (withBit b w r).map (setInternals k) := by
  unfold withBit
  split
  · rfl
  · exact h

/-- A return overwrites `EC` when it stops the CPU, and reads none of the six registers. -/
theorem alike_returnFromCall :
    alike (settle (returnFromCall s)) (settle (returnFromCall (setInternals k s))) := by
  by_cases h : s.rp = emptyPointer
  · rw [returnFromCall_eq, returnFromCall_eq, if_pos h,
      if_pos (show (setInternals k s).rp = emptyPointer from h)]
    exact alike_next (k := { k with ec := 0x00 }) rfl
  · rw [returnFromCall_eq, returnFromCall_eq, if_neg h,
      if_neg (show ¬ (setInternals k s).rp = emptyPointer from h)]
    exact alike_next (k := k) rfl

/-- No instruction reads the six registers; `SEC`, `CEC` and a return on the empty call stack write `EC`. -/
theorem alike_exec (i : Instr) : alike (exec i s) (exec i (setInternals k s)) := by
  cases i with
  | nop | stop | halt | di | ei | scf | ccf | jps => exact alike_next (k := k) rfl
  | sec xx => exact alike_next (k := { k with ec := xx }) rfl
  | cec => exact alike_next (k := { k with ec := 0x00 }) rfl
  | daa => exact alike_next (modifyReg_setInternals k s ⟨.a, .lo⟩ daaOp)
  | cpl => exact alike_next (modifyReg_setInternals k s ⟨.a, .long⟩ (complementOp .long))
  | cpw => exact alike_next (modifyReg_setInternals k s ⟨.a, .word⟩ (complementOp .word))
  | cpb => exact alike_next (modifyReg_setInternals k s ⟨.a, .lo⟩ (complementOp .byte))
  | ldI _ _ | mv _ _ => exact alike_next (writeReg_setInternals k s _ _)
  | ldA32 _ _ | ldM _ _ | ldq _ _ | ldh _ _ => exact alike_settle (load_setInternals k s _ _)
  | stA32 _ _ | stM _ _ | stq _ _ | sth _ _ => exact alike_settle (memWrite_setInternals k s _ _ _)
  | push _ => exact alike_settle (pushData_setInternals k s _)
  | pop x =>
    refine alike_settle (k := k) ?_
    rw [popData_setInternals]
    cases popData s with
    | error e => rfl
    | ok p => exact congrArg Except.ok (writeReg_setInternals k p.2 x p.1)
  | jmpA32 c a =>
    rw [exec_jmpA32, exec_jmpA32]
    exact alike_next (k := k) rfl
  | jmpR c y =>
    rw [exec_jmpR, exec_jmpR]
    exact alike_next (k := k) rfl
  | jpb c off =>
    rw [exec_jpb, exec_jpb]
    exact alike_next (k := k) rfl
  | call c a =>
    rw [exec_call, exec_call]
    exact alike_ite (alike_settle (callTo_setInternals k s a)) ⟨k, rfl⟩
  | rst _ => exact alike_settle (callTo_setInternals k s _)
  | ret c =>
    rw [exec_ret, exec_ret]
    exact alike_ite (alike_returnFromCall k s) ⟨k, rfl⟩
  | reti => exact alike_returnFromCall k { s with ime := true }
  | incR x =>
    refine alike_next (k := k) ?_
    rw [modifyReg_setInternals, drawnIfLong_setInternals]
    rfl
  | decR _ | slaR _ | sraR _ | srlR _ | rlR _ | rlcR _ | rrR _ | rrcR _ | swapR _ =>
    exact alike_next (modifyReg_setInternals k s _ _)
  | incM y =>
    rw [exec_incM, exec_incM]
    exact alike_settle (modifyMem_setInternals k s _ _)
  | decM _ | slaM _ | sraM _ | srlM _ | rlM _ | rlcM _ | rrM _ | rrcM _ | swapM _ =>
    exact alike_settle (modifyMem_setInternals k s _ _)
  | addI _ _ | addR _ _ | adcI _ _ | adcR _ _ | subI _ _ | subR _ _ | sbcI _ _ | sbcR _ _
  | andI _ _ | andR _ _ | orI _ _ | orR _ _ | xorI _ _ | xorR _ _ =>
    exact alike_next (accumulate_setInternals k s _ _ _)
  | addM _ _ | adcM _ _ | subM _ _ | sbcM _ _ | andM _ _ | orM _ _ | xorM _ _ =>
    exact alike_settle (withMemoryOperand_setInternals k s
      fun s b => accumulate_setInternals k s _ _ b)
  | cmpI _ _ | cmpR _ _ => exact alike_next (k := k) rfl
  | cmpM _ _ => exact alike_settle (withMemoryOperand_setInternals k s fun _ _ => rfl)
  | bitR _ _ => exact alike_settle (withBit_map k rfl)
  | bitM b y =>
    refine alike_settle (withBit_map k ?_)
    rw [show pointer (setInternals k s) y = pointer s y from rfl, memRead_setInternals]
    cases memRead s (pointer s y) memopWidth.bytes <;> rfl
  | setR _ _ | resR _ _ =>
    exact alike_settle (withBit_map k (congrArg Except.ok (modifyReg_setInternals k s _ _)))
  | setM _ _ | resM _ _ => exact alike_settle (withBit_map k (modifyMem_setInternals k s _ _))

/-- The fetch overwrites `IA`, `CI`, `MA`, `MD` and `DA`, and reads none of the six registers. -/
theorem fetchInstr_setInternals : (∃ e, fetchInstr s = .error e ∧
      fetchInstr (setInternals k s) = .error e) ∨
    ∃ i t k', fetchInstr s = .ok (i, t) ∧ fetchInstr (setInternals k s) = .ok (i, setInternals k' t) := by
  cases hop : fetchFault s.pc.toNat 2 with
  | some e =>
    exact .inl ⟨e, fetchInstr_opcode_error hop, fetchInstr_opcode_error (s := setInternals k s) hop⟩
  | none =>
    cases hd : decodeWord (wordAt s) with
    | error r =>
      exact .inl ⟨_, fetchInstr_rejected hop hd, fetchInstr_rejected (s := setInternals k s) hop hd⟩
    | ok d =>
      cases hi : fetchFault (s.pc + 2).toNat d.immBytes with
      | some e =>
        exact .inl ⟨e, fetchInstr_immediate_error hop hd hi,
          fetchInstr_immediate_error (s := setInternals k s) hop hd hi⟩
      | none =>
        exact .inr ⟨_, _, ⟨k.ec, s.pc, Config.maDraw s.draws, Config.mdDraw s.draws, wordAt s,
          Config.daDraw s.draws⟩, fetchInstr_ok hop hd hi,
          fetchInstr_ok (s := setInternals k s) hop hd hi⟩

/-- The prologue decides alike, and hands on states that differ in the six registers only. -/
theorem alike_step : alike (step s) (step (setInternals k s)) := by
  rcases prologue_cases s with ⟨hs, -⟩ | ⟨hs, hl, hp, -⟩ | ⟨hs, hi, n, hn, hle, -⟩ | ⟨hs, hl, hi, -⟩
  · rw [stoppedCpuChangesNothing s hs, stoppedCpuChangesNothing (setInternals k s) hs]
    exact alike_next (k := k) rfl
  · rw [haltedCpuWaits s hs hl hp, haltedCpuWaits (setInternals k s) hs hl hp]
    exact alike_next (k := k) rfl
  · rw [step_of_interrupt (prologue_interrupt hs hi hn hle),
      step_of_interrupt (prologue_interrupt (s := setInternals k s) hs hi hn hle)]
    exact alike_settle (takeInterrupt_setInternals k (fetchState s) n)
  · have hrun : runsInstruction s := ⟨hs, hl, hi⟩
    have hrun' : runsInstruction (setInternals k s) := ⟨hs, hl, hi⟩
    obtain ⟨e, hf, hf'⟩ | ⟨i, t, k', hf, hf'⟩ := fetchInstr_setInternals k (fetchState s)
    · rw [step_of_fetch_error hrun hf, step_of_fetch_error hrun' hf']
      exact rfl
    · rw [step_of_fetch_ok hrun hf, step_of_fetch_ok hrun' hf']
      exact alike_exec k' t i

end Commute

/-- Settles O21: the two answers of the step are alike. -/
theorem nothingReadsTheInternalRegisters : Obligations.NothingReadsTheInternalRegisters := by
  rintro s _ ⟨ec, ia, ma, md, ci, da, rfl⟩
  have h : alike (step s) (step (setInternals ⟨ec, ia, ma, md, ci, da⟩ s)) := alike_step _ s
  change match step s, step (setInternals ⟨ec, ia, ma, md, ci, da⟩ s) with
    | .next t, .next t' => _
    | .fault e, .fault e' => _
    | _, _ => _
  generalize step s = r, step (setInternals ⟨ec, ia, ma, md, ci, da⟩ s) = r' at h
  cases r <;> cases r' <;> try exact h
  obtain ⟨k, hk⟩ := h
  exact ⟨k.ec, k.ia, k.ma, k.md, k.ci, k.da, hk⟩

end Sys2Proof.Machine
end

section
/-! The general instructions that write `EC`, `IME` or `AL` (spec/40_general.md R140, R143 to R147) and the
data transfers (spec/41_data_transfer.md R160 to R173). -/

namespace Sys2Proof.Machine

/-! ### General instructions -/

/-- Settles O26. -/
theorem nopSecCecDiEiEffects : Obligations.NopSecCecDiEiEffects := by
  intro s xx
  have hsec : encode (.sec xx) = [xx, 0x03] := leBytes_word 0x03 xx
  exact ⟨rfl, rfl, rfl, rfl, rfl, rfl, hsec, rfl, rfl, rfl⟩

/-- `AL` is the low byte of `A` (R21). -/
theorem readReg_al (s : State) : (readReg s ⟨.a, .lo⟩).setWidth 8 = s.a.extractLsb' 0 8 :=
  (BitVec.setWidth_setWidth_of_le _ (by decide)).trans (BitVec.setWidth_eq _)

theorem setWidth_byte_lt (r : Byte) : (r.setWidth 32 : Long).toNat < 2 ^ 8 := by
  have := r.isLt
  rw [BitVec.toNat_setWidth]
  omega

/-- Settles O30: `DAA` puts its adjustment into `AL` and ties the flags to it. -/
theorem daaTiesFlagsToTheAdjustment : Obligations.DaaTiesFlagsToTheAdjustment := by
  intro s r wrapped hadj
  have hop : daaOp (readReg s ⟨.a, .lo⟩) s.flags = (r.setWidth 32, { s.flags with
      z := decide (r = 0), h := false, c := wrapped, o := !s.flags.n && wrapped
      u := s.flags.n && wrapped }) := by
    simp only [daaOp, daaCore, readReg_al, hadj]
  have hreg := (modifyReg_spec s ⟨.a, .lo⟩ daaOp).1
  rw [hop, truncTo_of_lt (setWidth_byte_lt r)] at hreg
  refine ⟨_, exec_daa s, hreg, ?_, rfl, ?_, ?_, ?_, ?_⟩
  · simp [hop]
  · simp [hop]
  · simp [hop]
  · simp [hop]
  · exact sameExcept_modifyReg s ⟨.a, .lo⟩ fun t a => by
      apply sameExcept_setFlags <;> simp [daaOp, daaCore]

/-! ### Moves -/

/-- Settles O31: both write `X` and nothing else. -/
theorem loadImmediateAndMove : Obligations.LoadImmediateAndMove := by
  intro s x y imm himm
  refine ⟨⟨_, rfl, ?_, sameExcept_writeReg s x imm⟩, ⟨_, rfl, ?_, sameExcept_writeReg s x _⟩⟩
  · exact regBecomes_writeReg_of_lt s x (of_decide_eq_true himm)
  · rw [← truncTo_eq_ofNat]
    exact regBecomes_writeReg s x (readReg s y)

/-! ### Loads and stores -/

theorem qramAddr_toNat (off : Word) : (qramAddr off).toNat = 0xFFFF0000 + off.toNat := by
  have := off.isLt
  simp only [qramAddr, qramBase]
  bv_omega

theorem hwregAddr_toNat (off : Byte) : (hwregAddr off).toNat = 0xFFFFFF00 + off.toNat := by
  have := off.isLt
  simp only [hwregAddr, hwregBase]
  bv_omega

/-- `valueRead` looks at nothing of the second state but what the platform has seen. -/
theorem valueRead_congr {a n : Nat} {v : Long} {s t t' : State} (ht : t'.platform = t.platform)
    (h : valueRead a n v s t) : valueRead a n v s t' := by
  rw [valueRead, ht]
  exact h

/-- The long registers that a frame without them keeps. -/
theorem sameExcept_long {l : List Field} {s t : State} (h : sameExcept l s t) {r : Row}
    (hr : .long r ∉ l) : t.long r = s.long r := h (.long r) hr

/-- A load inside the address space: the value read, the register, the frame (R161 to R164). -/
theorem load_spec (s : State) (x : Reg) {addr : Long} (h : addr.toNat + x.width.bytes ≤ addrLimit) :
    ∃ t v, load s x addr = .ok t ∧ valueRead addr.toNat x.width.bytes v s t ∧ regBecomes x v s t ∧
      sameExcept [.long x.row, .platform] s t := by
  obtain ⟨v, t, hr, hval, hframe⟩ := memRead_spec s (width_bytes_pos x.width) h
  have hlt : v.toNat < 2 ^ x.width.bits := by
    rw [width_bits_eq]
    exact memRead_lt hr
  refine ⟨writeReg t x v, v, by rw [load, hr], valueRead_congr (writeReg_platform t x v) hval, ?_, ?_⟩
  · exact regBecomes_congr (fun r => (sameExcept_long hframe (by simp)).symm) (fun _ => rfl)
      (regBecomes_writeReg_of_lt t x hlt)
  · exact sameExcept_trans (sameExcept_mono hframe (by simp))
      (sameExcept_mono (sameExcept_writeReg t x v) (by simp))

/-- Settles O32: the four loads differ in their address only. -/
theorem loadsReadTheirAddress : Obligations.LoadsReadTheirAddress := by
  intro s i x addr hi
  obtain ⟨a, hexec, rfl⟩ : ∃ a : Long, exec i s = settle (load s x a) ∧ addr = a.toNat := by
    obtain ⟨a, rfl, rfl⟩ | ⟨y, rfl, rfl⟩ | ⟨off, rfl, rfl⟩ | ⟨off, rfl, rfl⟩ := hi
    · exact ⟨a, rfl, rfl⟩
    · exact ⟨readReg s y, rfl, rfl⟩
    · exact ⟨qramAddr off, rfl, (qramAddr_toNat off).symm⟩
    · exact ⟨hwregAddr off, rfl, (hwregAddr_toNat off).symm⟩
  rw [hexec]
  refine ⟨fun h => ?_, fun h => ?_⟩
  · obtain ⟨t, v, ht, hval, hreg, hframe⟩ := load_spec s x h
    exact ⟨t, v, by rw [ht, settle_ok], hval, hreg, hframe⟩
  · rw [load, memRead_of_lt s h, settle_error]

/-- Settles O33: the four stores differ in their address only. -/
theorem storesWriteTheirAddress : Obligations.StoresWriteTheirAddress := by
  intro s i y addr hi
  obtain ⟨a, hexec, rfl⟩ : ∃ a : Long,
      exec i s = settle (memWrite s a y.width.bytes (readReg s y)) ∧ addr = a.toNat := by
    obtain ⟨a, rfl, rfl⟩ | ⟨x, rfl, rfl⟩ | ⟨off, rfl, rfl⟩ | ⟨off, rfl, rfl⟩ := hi
    · exact ⟨a, rfl, rfl⟩
    · exact ⟨readReg s x, rfl, rfl⟩
    · exact ⟨qramAddr off, rfl, (qramAddr_toNat off).symm⟩
    · exact ⟨hwregAddr off, rfl, (hwregAddr_toNat off).symm⟩
  rw [hexec]
  refine ⟨fun h hr => ?_, fun h => ?_, fun h hr => ?_⟩
  · obtain ⟨t, ht, hstored, hframe⟩ := memWrite_spec s (readReg s y) (width_bytes_pos y.width) h hr
    exact ⟨t, by rw [ht, settle_ok], hstored, hframe⟩
  · rw [memWrite_wrap s h, settle_error]
  · rw [memWrite_rom s h hr, settle_error]

/-! ### The general stack -/

theorem sameExcept_writeBytes (s : State) (a : Nat) (l : List Byte) :
    sameExcept [.mem] s (writeBytes s a l) := by
  rw [writeBytes_eq]
  apply sameExcept_update <;> simp

theorem sameExcept_setSp (s : State) (p : Word) : sameExcept [.sp] s { s with sp := p } := by
  apply sameExcept_update <;> simp

/-- A long that has been pushed is read back (R70, R71). -/
theorem longAt_writeBytes (s : State) {a : Nat} (v : Long) (ha : a + 4 ≤ hwregStart) :
    BitVec.ofNat 32 (littleEndian (readBytes (writeBytes s a (leBytes v.toNat 4)) a 4)) = v := by
  have h := readBytes_writeBytes s a (leBytes v.toNat 4) (by simpa using ha)
  rw [leBytes_length] at h
  rw [h, ofNat_littleEndian_leBytes v.isLt]

/-- Settles O34: a push is a store below the top. -/
theorem pushStoresALongBelowTheTop : Obligations.PushStoresALongBelowTheTop := by
  intro s x
  have hsp := s.sp.isLt
  refine ⟨fun h4 => ?_, fun hlt => ?_⟩
  · refine ⟨_, congrArg settle (pushData_of_le s (readReg s x) h4), ?_, fun k hk => ?_,
      fun k hk => ?_, ?_⟩
    · simp only [writeBytes_sp, word_sub_four h4]
    · exact readByte_pushed _ _ (by simp only [hwregStart]; omega) hk
    · exact readByte_writeBytes_outside _ (by simpa using hk)
    · exact sameExcept_trans (sameExcept_mono (sameExcept_setSp s (s.sp - 4)) (by simp))
        (sameExcept_mono (sameExcept_writeBytes _ _ _) (by simp))
  · exact congrArg settle (if_pos hlt : pushData s (readReg s x) = _)

/-- A pop of a general stack that is not empty, into a register (R171). -/
theorem exec_pop_of_ne {s : State} (x : Reg) (h : s.sp ≠ emptyPointer) :
    exec (.pop x) s = .next (writeReg { s with sp := s.sp + 4 } x
      (BitVec.ofNat 32 (littleEndian (readBytes s (0xFFFD0000 + s.sp.toNat) 4)))) := by
  change settle (match popData s with
    | .error e => .error e
    | .ok (v, s') => .ok (writeReg s' x v)) = _
  rw [popData_of_ne s h]
  rfl

/-- Settles O35: a pop is a read of the top and a write of the register. -/
theorem popLoadsTheTopLong : Obligations.PopLoadsTheTopLong := by
  intro s x
  refine ⟨fun hne => ?_, fun he => ?_⟩
  · have hlt : littleEndian (readBytes s (0xFFFD0000 + s.sp.toNat) 4) < 2 ^ 32 := by
      simpa using littleEndian_lt (readBytes s (0xFFFD0000 + s.sp.toNat) 4)
    refine ⟨_, exec_pop_of_ne x hne, ?_, ?_, ?_⟩
    · exact writeReg_sp _ x _
    · have hreg := regBecomes_writeReg { s with sp := s.sp + 4 } x
        (BitVec.ofNat 32 (littleEndian (readBytes s (0xFFFD0000 + s.sp.toNat) 4)))
      rw [truncTo_eq_ofNat, BitVec.toNat_ofNat, Nat.mod_eq_of_lt hlt] at hreg
      exact regBecomes_congr (fun r => by cases r <;> rfl) (fun _ => rfl) hreg
    · exact sameExcept_trans (sameExcept_mono (sameExcept_setSp s (s.sp + 4)) (by simp))
        (sameExcept_mono (sameExcept_writeReg _ x _) (by simp))
  · change settle (match popData s with
      | .error e => .error e
      | .ok (v, s') => .ok (writeReg s' x v)) = _
    rw [popData, if_pos (show s.sp = emptyPointer from he)]
    rfl

theorem writeReg_same {s : State} {x : Reg} {v : Long} (h : readReg s x = v) : writeReg s x v = s := by
  rw [← h, writeReg_readReg]

/-- Settles O36: the long that the pop reads is the one that the push stored. -/
theorem pushThenPopRestores : Obligations.PushThenPopRestores := by
  intro s t x hpush
  obtain ⟨h4, rfl⟩ := pushData_cases (settle_eq_next.1 hpush)
  have hlt := s.sp.isLt
  have hsp := word_sub_four h4
  have hne : s.sp - 4 ≠ emptyPointer := fun h => by
    rw [h] at hsp
    simp only [emptyPointer] at hsp
    bv_omega
  refine ⟨_, exec_pop_of_ne x (by rwa [writeBytes_sp]), ?_⟩
  simp only [writeBytes_sp, hsp]
  rw [longAt_writeBytes _ _ (by simp only [hwregStart]; omega), BitVec.sub_add_cancel,
    writeReg_same (readReg_congr (by cases x.row <;> simp [State.long])), writeBytes_eq]
  apply sameExcept_update <;> simp

end Sys2Proof.Machine
end

section
/-! The control transfers (spec/42_control_transfer.md R180 to R188). -/

namespace Sys2Proof.Machine

/-! ### Conditions and jumps -/

/-- Settles O37. -/
theorem conditionsReadTheirFlag : Obligations.ConditionsReadTheirFlag := by
  intro f
  have hnot : ∀ b : Bool, (!b) = true ↔ b = false := fun b => by rw [Bool.not_eq_true']
  exact ⟨rfl, Iff.rfl, hnot f.c, Iff.rfl, hnot f.z, Iff.rfl, Iff.rfl⟩

/-- Settles O38. -/
theorem falseConditionDoesNothing : Obligations.FalseConditionDoesNothing := by
  intro s c a y off hc
  rw [exec_jmpA32, exec_jmpR, exec_jpb, exec_call, exec_ret, hc]
  exact ⟨rfl, rfl, rfl, rfl, rfl⟩

theorem sameExcept_setPc (s : State) (pc : Long) : sameExcept [.pc] s { s with pc := pc } := by
  apply sameExcept_update <;> simp

/-- An address plus a signed offset, over the integers (R183). -/
theorem add_signExtend_toNat (pc : Long) (off : Word) :
    ((pc + off.signExtend 32).toNat : Int) = (pc.toNat + off.toInt) % 2 ^ 32 := by
  have hoff : ((off.signExtend 32).toNat : Int) = off.toInt % 2 ^ 32 := by
    rw [BitVec.signExtend, BitVec.toNat_ofInt, Int.toNat_of_nonneg (Int.emod_nonneg _ (by decide))]
    rfl
  rw [BitVec.toNat_add]
  push_cast
  rw [hoff]
  exact Int.add_emod_emod _ _ _

/-- Settles O39. -/
theorem jumpsMoveOnlyPc : Obligations.JumpsMoveOnlyPc := by
  intro s c a y off
  refine ⟨fun hc => ?_, rfl⟩
  rw [exec_jmpA32, exec_jmpR, exec_jpb, hc]
  exact ⟨rfl, rfl, _, rfl, add_signExtend_toNat s.pc off, sameExcept_setPc s _⟩

/-! ### Calls -/

theorem restartVector_toNat (v : BitVec 4) : (restartVector v).toNat = 0x1000 + 0x100 * v.toNat := by
  have := v.isLt
  simp only [restartVector, rstBase, rstStride]
  bv_omega

/-- Settles O40: `CALL` and `RST` differ in their target only. -/
theorem callsPushTheReturnAddress : Obligations.CallsPushTheReturnAddress := by
  intro s i target hi
  obtain ⟨a, hexec, rfl⟩ : ∃ a : Long, exec i s = settle (callTo s a) ∧ target = a.toNat := by
    obtain ⟨c, a, rfl, hc, rfl⟩ | ⟨v, rfl, rfl⟩ := hi
    · exact ⟨a, by rw [exec_call, if_pos hc], rfl⟩
    · exact ⟨restartVector v, rfl, (restartVector_toNat v).symm⟩
  rw [hexec]
  refine ⟨fun h4 => ?_, fun hlt => ?_⟩
  · obtain ⟨t, ht, hpc, hrp, hpush, hout, hframe⟩ := callTo_spec s a h4
    exact ⟨t, by rw [ht, settle_ok], congrArg BitVec.toNat hpc, hrp, hpush, hout, hframe⟩
  · rw [callTo_of_lt s a hlt, settle_error]

/-! ### Returns -/

theorem returnFromCall_of_ne {s : State} (h : s.rp ≠ 0xFFFF) : returnFromCall s = .ok
    { s with
      rp := s.rp + 4
      pc := BitVec.ofNat 32 (littleEndian (readBytes s (0xFFFE0000 + s.rp.toNat) 4)) } :=
  (returnFromCall_eq s).trans (congrArg Except.ok (if_neg h))

theorem returnFromCall_of_empty {s : State} (h : s.rp = 0xFFFF) :
    returnFromCall s = .ok (stopWith s 0x00) :=
  (returnFromCall_eq s).trans (congrArg Except.ok (if_pos h))

/-- Settles O41. -/
theorem returnsPopTheReturnAddress : Obligations.ReturnsPopTheReturnAddress := by
  intro s hne
  refine ⟨fun c hc => ?_, ?_⟩
  · rw [exec_ret, if_pos hc, returnFromCall_of_ne hne, settle_ok]
  · exact congrArg settle (returnFromCall_of_ne (s := { s with ime := true }) hne)

theorem sameExcept_stopWith (s : State) (ec : Byte) : sameExcept [.s, .ec] s (stopWith s ec) := by
  have hec : sameExcept [.ec] s { s with ec := ec } := by
    apply sameExcept_update <;> simp
  have hs : sameExcept [.s] { s with ec := ec } (stopWith s ec) := by
    apply sameExcept_setFlags <;> simp
  exact sameExcept_trans (sameExcept_mono hec (by simp)) (sameExcept_mono hs (by simp))

/-- Settles O42. -/
theorem returnOnEmptyCallStackStops : Obligations.ReturnOnEmptyCallStackStops := by
  intro s he
  refine ⟨fun c hc => ⟨stopWith s 0x00, ?_, rfl, rfl, sameExcept_stopWith s _⟩,
    ⟨stopWith { s with ime := true } 0x00, ?_, rfl, rfl, rfl, ?_⟩⟩
  · rw [exec_ret, if_pos hc, returnFromCall_of_empty he, settle_ok]
  · exact congrArg settle (returnFromCall_of_empty (s := { s with ime := true }) he)
  · have hime : sameExcept [.ime] s { s with ime := true } := by
      apply sameExcept_update <;> simp
    exact sameExcept_trans (sameExcept_mono hime (by simp))
      (sameExcept_mono (sameExcept_stopWith { s with ime := true } 0x00) (by simp))

/-- Settles O43: the long that the return reads is the one that the call stored. -/
theorem callThenReturnComesBack : Obligations.CallThenReturnComesBack := by
  intro s t c c' a hc hcall hc'
  rw [exec_call, if_pos hc] at hcall
  obtain ⟨h4, rfl⟩ := callTo_cases (settle_eq_next.1 hcall)
  have hlt := s.rp.isLt
  have hrp := word_sub_four h4
  have hne : s.rp - 4 ≠ 0xFFFF := fun h => by
    rw [h] at hrp
    bv_omega
  rw [exec_ret, if_pos hc', returnFromCall_of_ne (by simpa using hne)]
  refine ⟨_, rfl, ?_⟩
  have hpc := longAt_writeBytes { s with rp := s.rp - 4 } (a := 0xFFFE0000 + (s.rp.toNat - 4)) s.pc
    (by simp only [hwregStart]; omega)
  simp only [writeBytes_rp, hrp]
  rw [sameExcept_iff]
  simp
  exact ⟨fun r => by cases r <;> rfl, hpc⟩

end Sys2Proof.Machine
end

section
/-! The two-operand instructions (spec/43_arithmetic.md R200 to R202, R207 to R218, spec/44_bitwise_compare.md
R230 to R242): one lemma for the three forms of the second operand, then one per operation. -/

namespace Sys2Proof.Machine

/-! ### The three forms -/

/-- The `X, I`, `X, Y` and `X, [Y]` forms of an instruction, with what it does with its operand (R202). -/
structure TwoOperand (mkI : Reg → Long → Instr) (mkR mkM : Reg → Reg → Instr)
    (k : State → Reg → Long → State) : Prop where
  imm : ∀ s x b, exec (mkI x b) s = .next (k s x b)
  reg : ∀ s x y, exec (mkR x y) s = .next (k s x (registerOperand s x y))
  mem : ∀ s x y, exec (mkM x y) s = settle (withMemoryOperand s x y k)

theorem twoOperand_add : TwoOperand .addI .addR .addM (accumulate addOp) :=
  ⟨fun _ _ _ => rfl, fun _ _ _ => rfl, fun _ _ _ => rfl⟩

theorem twoOperand_adc : TwoOperand .adcI .adcR .adcM (accumulate adcOp) :=
  ⟨fun _ _ _ => rfl, fun _ _ _ => rfl, fun _ _ _ => rfl⟩

theorem twoOperand_sub : TwoOperand .subI .subR .subM (accumulate subOp) :=
  ⟨fun _ _ _ => rfl, fun _ _ _ => rfl, fun _ _ _ => rfl⟩

theorem twoOperand_sbc : TwoOperand .sbcI .sbcR .sbcM (accumulate sbcOp) :=
  ⟨fun _ _ _ => rfl, fun _ _ _ => rfl, fun _ _ _ => rfl⟩

theorem twoOperand_and : TwoOperand .andI .andR .andM (accumulate andOp) :=
  ⟨fun _ _ _ => rfl, fun _ _ _ => rfl, fun _ _ _ => rfl⟩

theorem twoOperand_or : TwoOperand .orI .orR .orM (accumulate orOp) :=
  ⟨fun _ _ _ => rfl, fun _ _ _ => rfl, fun _ _ _ => rfl⟩

theorem twoOperand_xor : TwoOperand .xorI .xorR .xorM (accumulate xorOp) :=
  ⟨fun _ _ _ => rfl, fun _ _ _ => rfl, fun _ _ _ => rfl⟩

theorem twoOperand_cmp : TwoOperand .cmpI .cmpR .cmpM Machine.compare :=
  ⟨fun _ _ _ => rfl, fun _ _ _ => rfl, fun _ _ _ => rfl⟩

/-- A frame need not list `L` and `S` where they are the same. -/
theorem sameExcept_of_keeps_l_s {l : List Field} {s t : State} (h : sameExcept (.l :: .s :: l) s t)
    (hl : t.flags.l = s.flags.l) (hs : t.flags.s = s.flags.s) : sameExcept l s t := by
  intro f hf
  by_cases hfl : f = .l
  · exact hfl ▸ hl
  · by_cases hfs : f = .s
    · exact hfs ▸ hs
    · exact h f (by simp only [List.mem_cons, not_or]; exact ⟨hfl, hfs, hf⟩)

section Forms

variable {mkI : Reg → Long → Instr} {mkR mkM : Reg → Reg → Instr} {i : Instr} {x : Reg}
  {s s1 : State} {b : Long}

/-- Whatever its form, the operand fits the width of `X`, and reading it changes nothing but what the platform
has seen (R202). -/
theorem takesOperand_spec (h : takesOperand mkI mkR mkM i x s b s1) :
    b.toNat < 2 ^ x.width.bits ∧ s1 = { s with platform := s1.platform } := by
  obtain ⟨-, hfit, rfl⟩ | ⟨y, -, hb, rfl⟩ | ⟨y, -, hr⟩ := h
  · exact ⟨of_decide_eq_true hfit, rfl⟩
  · exact ⟨hb ▸ Nat.mod_lt _ (by positivity), rfl⟩
  · refine ⟨by rw [width_bits_eq]; exact memRead_lt hr, ?_⟩
    obtain ⟨-, rfl, -⟩ := memRead_cases hr
    exact notePlatformRead_eq s _

/-- Whatever its form, the instruction works on the operand in the state in which it has been read. -/
theorem exec_of_takesOperand {k : State → Reg → Long → State} (hform : TwoOperand mkI mkR mkM k)
    (h : takesOperand mkI mkR mkM i x s b s1) : exec i s = .next (k s1 x b) := by
  obtain ⟨rfl, -, rfl⟩ | ⟨y, rfl, hb, rfl⟩ | ⟨y, rfl, hr⟩ := h
  · exact hform.imm s1 x b
  · have hb : registerOperand s1 x y = b :=
      BitVec.eq_of_toNat_eq ((truncTo_toNat _ _).trans hb.symm)
    rw [hform.reg, hb]
  · rw [hform.mem, withMemoryOperand, show pointer s y = readReg s y from rfl, hr, settle_ok]

/-- A two-operand instruction with a result: the register, the flags, what the platform saw, the frame. -/
theorem exec_accumulate_spec {op : BinaryOp} (hform : TwoOperand mkI mkR mkM (accumulate op))
    (h : takesOperand mkI mkR mkM i x s b s1)
    (hfit : (op x.width (readReg s x) b s.flags).1.toNat < 2 ^ x.width.bits)
    (hl : (op x.width (readReg s x) b s.flags).2.l = s.flags.l)
    (hs : (op x.width (readReg s x) b s.flags).2.s = s.flags.s) :
    ∃ t, exec i s = .next t ∧ regBecomes x (op x.width (readReg s x) b s.flags).1 s t ∧
      t.flags = (op x.width (readReg s x) b s.flags).2 ∧ t.platform = s1.platform ∧
      sameExcept (.long x.row :: .platform :: arithmeticFlags) s t := by
  have hs1 := (takesOperand_spec h).2
  have hlong : ∀ r, s1.long r = s.long r := fun r => by rw [hs1]; cases r <;> rfl
  have hflags : s1.flags = s.flags := by rw [hs1]
  have hx : readReg s1 x = readReg s x := readReg_congr (hlong x.row)
  have hread : sameExcept [.platform] s s1 := by
    rw [hs1]
    apply sameExcept_update <;> simp
  obtain ⟨hreg, hframe⟩ := accumulate_spec op s1 x b
  rw [hx, hflags, truncTo_of_lt hfit] at hreg
  have hf : (accumulate op s1 x b).flags = (op x.width (readReg s x) b s.flags).2 := by
    rw [accumulate_flags, hx, hflags]
  have hsame : sameExcept (.l :: .s :: .long x.row :: .platform :: arithmeticFlags) s
      (accumulate op s1 x b) :=
    sameExcept_trans (sameExcept_mono hread (by simp))
      (sameExcept_mono hframe (by simp [arithmeticFlags]))
  refine ⟨_, exec_of_takesOperand hform h,
    regBecomes_congr (fun r => (hlong r).symm) (fun _ => rfl) hreg, hf, by simp,
    sameExcept_of_keeps_l_s hsame ?_ ?_⟩
  · rw [hf, hl]
  · rw [hf, hs]

end Forms

/-! ### Addition and subtraction -/

/-- Settles O44: both are `AddCore`, with their carry-in. -/
theorem addAndAdcResultAndFlags : Obligations.AddAndAdcResultAndFlags := by
  intro s s1 i x b cin hx hi
  obtain ⟨c, rfl, t, hexec, hreg, hflags, hplat, hframe⟩ : ∃ c : Bool, cin = c.toNat ∧
      ∃ t, exec i s = .next t ∧ regBecomes x (addCore x.width (readReg s x) b c s.flags).1 s t ∧
        t.flags = (addCore x.width (readReg s x) b c s.flags).2 ∧ t.platform = s1.platform ∧
        sameExcept (.long x.row :: .platform :: arithmeticFlags) s t := by
    obtain ⟨h, rfl⟩ | ⟨h, rfl⟩ := hi
    · exact ⟨false, rfl, exec_accumulate_spec twoOperand_add h (narrow_lt _ _) rfl rfl⟩
    · exact ⟨s.flags.c, rfl, exec_accumulate_spec twoOperand_adc h (narrow_lt _ _) rfl rfl⟩
  rw [hx] at hframe
  refine ⟨t, hexec, hreg, ?_, ?_, ?_, ?_, ?_, ?_, hplat, hframe⟩ <;> rw [hflags]
  · exact decide_eq_true_iff
  · rfl
  · exact decide_eq_true_iff
  · exact decide_eq_true_iff
  · rfl
  · rfl

/-- Settles O45: both are `SubCore`, with their borrow-in. -/
theorem subAndSbcResultAndFlags : Obligations.SubAndSbcResultAndFlags := by
  intro s s1 i x b cin hx hi
  obtain ⟨c, rfl, t, hexec, hreg, hflags, hplat, hframe⟩ : ∃ c : Bool, cin = c.toNat ∧
      ∃ t, exec i s = .next t ∧ regBecomes x (subCore x.width (readReg s x) b c s.flags).1 s t ∧
        t.flags = (subCore x.width (readReg s x) b c s.flags).2 ∧ t.platform = s1.platform ∧
        sameExcept (.long x.row :: .platform :: arithmeticFlags) s t := by
    obtain ⟨h, rfl⟩ | ⟨h, rfl⟩ := hi
    · exact ⟨false, rfl, exec_accumulate_spec twoOperand_sub h (narrow_lt _ _) rfl rfl⟩
    · exact ⟨s.flags.c, rfl, exec_accumulate_spec twoOperand_sbc h (narrow_lt _ _) rfl rfl⟩
  rw [hx] at hframe
  refine ⟨t, hexec, ⟨_, hreg, ?_, ?_⟩, ?_, ?_, ?_, ?_, ?_, hplat, hframe⟩
  · exact (congrArg Nat.cast (narrow_difference_toNat _ _ _ _)).trans (difference_eq _ _ _ _)
  · rw [hflags, subCore, narrow_eq_zero, Nat.mod_eq_of_lt (difference_lt _ _ _ _)]
    exact decide_eq_true_iff
  all_goals rw [hflags]
  · rfl
  · exact decide_eq_true_iff
  · exact decide_eq_true_iff
  · rfl
  · rfl

/-! ### Comparison -/

/-- The difference of two values of a width is zero exactly if they are equal. -/
theorem difference_eq_zero {w : Width} {a b : Long} (ha : a.toNat < 2 ^ w.bits)
    (hb : b.toNat < 2 ^ w.bits) : difference w a b false = 0 ↔ a = b := by
  rw [← BitVec.toNat_inj, difference, Bool.toNat_false, modulus]
  cases w <;> simp only [Width.bits] at * <;> omega

/-- Settles O46: a comparison is a subtraction whose result is not written. -/
theorem compareWritesOnlyFlags : Obligations.CompareWritesOnlyFlags := by
  intro s s1 i x b _ h
  obtain ⟨hb, hs1⟩ := takesOperand_spec h
  have hx : readReg s1 x = readReg s x :=
    readReg_congr (by rw [hs1]; cases x.row <;> rfl)
  have hflags : (Machine.compare s1 x b).flags = (subCore x.width (readReg s x) b false s.flags).2 := by
    rw [compare_flags, hx, hs1]
  refine ⟨_, exec_of_takesOperand twoOperand_cmp h, ?_, ?_, ?_, ?_, ?_, ?_, rfl, ?_⟩
  · rw [hflags]
    exact decide_eq_true_iff.trans (difference_eq_zero (readReg_lt s x) hb)
  · rfl
  · rw [hflags]
    exact decide_eq_true_iff
  · rw [hflags]
    exact decide_eq_true_iff
  · rfl
  · rfl
  · rw [hs1, sameExcept_iff]
    simp [arithmeticFlags, subCore]
    exact ⟨fun r => by cases r <;> rfl, fun _ => rfl⟩

/-! ### Bitwise operations -/

/-- Settles O51: the three are `LogicCore` of their kind. -/
theorem bitwiseResultAndFlags : Obligations.BitwiseResultAndFlags := by
  intro s s1 i x b r half hx hi
  obtain ⟨k, rfl, rfl, t, hexec, hreg, hflags, hplat, hframe⟩ : ∃ k : LogicKind,
      r = logicResult k (readReg s x) b ∧ half = decide (k = .and) ∧
      ∃ t, exec i s = .next t ∧ regBecomes x (logicCore k (readReg s x) b s.flags).1 s t ∧
        t.flags = (logicCore k (readReg s x) b s.flags).2 ∧ t.platform = s1.platform ∧
        sameExcept (.long x.row :: .platform :: arithmeticFlags) s t := by
    have hfit : ∀ {mkI mkR mkM} (k : LogicKind), takesOperand mkI mkR mkM i x s b s1 →
        (logicResult k (readReg s x) b).toNat < 2 ^ x.width.bits :=
      fun k h => logicResult_lt k (readReg_lt s x) (takesOperand_spec h).1
    obtain ⟨h, rfl, rfl⟩ | ⟨h, rfl, rfl⟩ | ⟨h, rfl, rfl⟩ := hi
    · exact ⟨.and, rfl, rfl, exec_accumulate_spec twoOperand_and h (hfit .and h) rfl rfl⟩
    · exact ⟨.or, rfl, rfl, exec_accumulate_spec twoOperand_or h (hfit .or h) rfl rfl⟩
    · exact ⟨.xor, rfl, rfl, exec_accumulate_spec twoOperand_xor h (hfit .xor h) rfl rfl⟩
  rw [hx] at hframe
  refine ⟨t, hexec, hreg, ?_, ?_, ?_, ?_, ?_, ?_, hplat, hframe⟩ <;> rw [hflags]
  · exact decide_eq_true_iff
  all_goals rfl

end Sys2Proof.Machine
end

section
/-! The one-operand instructions on a register: `INC`, the shifts and rotates, `BIT`, `SET`, `RES`, `SWAP`
(spec/43_arithmetic.md R203, spec/45_shift_rotate.md R250 to R265, spec/46_bit_check.md R280 to R287). -/

namespace Sys2Proof.Machine

/-- A one-operand instruction on a register whose result fits: the register takes the result (R265). -/
theorem regBecomes_modifyReg {s : State} {x : Reg} {op : UnaryOp}
    (h : (op (readReg s x) s.flags).1.toNat < 2 ^ x.width.bits) :
    regBecomes x (op (readReg s x) s.flags).1 s (modifyReg s x op) := by
  have hreg := (modifyReg_spec s x op).1
  rwa [truncTo_of_lt h] at hreg

/-! ### Increment -/

theorem sameExcept_incCoreFlags (w : Width) (freeH : Bool) (s : State) (a : Long) :
    sameExcept [.z, .n, .h] s { s with flags := (incCore w freeH a s.flags).2 } := by
  apply sameExcept_setFlags <;> simp [incCore]

theorem sameExcept_drawnIfLong (w : Width) (s : State) : sameExcept [.draws] s (drawnIfLong w s) := by
  cases w with
  | long => apply sameExcept_update <;> simp
  | _ => exact sameExcept_refl _ s

/-- `H` of an increment, where the spec gives it, says that the lower half wrapped (R203). -/
theorem incCore_h_iff {w : Width} (hw : w ≠ .long) (freeH : Bool) (a : Long) (f : Flags) :
    (incCore w freeH a f).2.h = true ↔ a.toNat % 2 ^ w.half = 2 ^ w.half - 1 := by
  cases w with
  | byte => exact decide_eq_true_iff
  | word => exact decide_eq_true_iff
  | long => exact absurd rfl hw

/-- Settles O47: an increment, and a draw if the register is a long. -/
theorem incrementRegister : Obligations.IncrementRegister := by
  intro s x
  have hreg := regBecomes_modifyReg (s := s) (x := x)
    (op := incCore x.width (Config.incLongH s.draws)) (narrow_lt _ _)
  refine ⟨_, rfl, regBecomes_congr (fun _ => rfl) (fun r => by simp) hreg, ?_, ?_, fun hw => ?_, ?_⟩
  · rw [drawnIfLong_flags]
    exact decide_eq_true_iff
  · rw [drawnIfLong_flags]
    rfl
  · rw [drawnIfLong_flags]
    exact incCore_h_iff hw _ _ _
  · exact sameExcept_trans
      (sameExcept_mono (sameExcept_modifyReg s x fun t a => sameExcept_incCoreFlags _ _ t a)
        (by simp))
      (sameExcept_mono (sameExcept_drawnIfLong x.width _) (by simp))

/-! ### Bits of shifted numbers -/

/-- A number moved up by one place: bit 0 is the bit that enters. -/
theorem testBit_shifted_up (x : Nat) (c : Bool) (k : Nat) :
    (2 * x + c.toNat).testBit k = if k = 0 then c else x.testBit (k - 1) := by
  cases k with
  | zero => cases c <;> simp [Nat.testBit_zero]
  | succ k =>
    have h : (2 * x + c.toNat) / 2 = x := by
      have := c.toNat_lt
      omega
    simp [Nat.testBit_succ, h]

/-- A number moved down by one place: bit `n` is the bit that enters. -/
theorem testBit_shifted_down {x n : Nat} (hx : x < 2 ^ (n + 1)) (c : Bool) (k : Nat) (hk : k ≤ n) :
    (x / 2 + c.toNat * 2 ^ n).testBit k = if k = n then c else x.testBit (k + 1) := by
  have hlt : x / 2 < 2 ^ n := by
    rw [Nat.pow_succ] at hx
    omega
  rw [Nat.add_comm, Nat.mul_comm, Nat.testBit_two_pow_mul_add _ hlt]
  by_cases h : k = n
  · cases c <;> simp [h]
  · rw [if_pos (by omega), if_neg h, Nat.testBit_succ]

section Shifts

variable {w : Width} {a : Long} {f : Flags} {k : Nat}

theorem bits_pos (w : Width) : 0 < w.bits := by cases w <;> decide

/-- The four shifts and rotates to the left, by the bit that enters (R250). -/
theorem testBit_left (c : Bool) (hk : k < w.bits) :
    ((a.toNat * 2) % modulus w + c.toNat).testBit k = if k = 0 then c else a.getLsbD (k - 1) := by
  have hm : modulus w = 2 * 2 ^ (w.bits - 1) := by
    rw [← Nat.pow_succ', Nat.succ_eq_add_one, Nat.sub_add_cancel (bits_pos w)]
  rw [Nat.mul_comm, hm, Nat.mul_mod_mul_left, testBit_shifted_up]
  by_cases h : k = 0
  · rw [if_pos h, if_pos h]
  · rw [if_neg h, if_neg h, Nat.testBit_mod_two_pow, decide_eq_true (by omega), Bool.true_and]
    rfl

/-- The four shifts and rotates to the right, by the bit that enters (R250). -/
theorem testBit_right (ha : a.toNat < 2 ^ w.bits) (c : Bool) (hk : k < w.bits) :
    (a.toNat / 2 + c.toNat * 2 ^ (w.bits - 1)).testBit k =
      if k = w.bits - 1 then c else a.getLsbD (k + 1) := by
  rw [← Nat.sub_add_cancel (bits_pos w)] at ha
  exact testBit_shifted_down ha c k (by omega)

/-- Settles O52: each kind moves every bit up or down by one, and differs in the bit that enters. -/
theorem shiftsMoveEveryBitByOne : Obligations.ShiftsMoveEveryBitByOne := by
  intro w a f k ha hk
  simp only [shiftCore_getLsbD _ a f hk, shiftNumber]
  refine ⟨?_, testBit_left _ hk, testBit_left _ hk, ?_, testBit_right ha _ hk, testBit_right ha _ hk,
    testBit_right ha _ hk, fun kind hkind => ?_, fun kind hkind => ?_⟩
  · have h := testBit_left (a := a) false hk
    rw [Bool.toNat_false, Nat.add_zero] at h
    rw [h]
    by_cases h0 : k = 0 <;> simp [h0]
  · have h := testBit_right ha false hk
    rw [Bool.toNat_false, Nat.zero_mul, Nat.add_zero] at h
    rw [h]
    by_cases h0 : k = w.bits - 1 <;> simp [h0]
  · fin_cases hkind <;> rfl
  · fin_cases hkind <;> rfl

end Shifts

/-! ### Shifts and rotates of a register -/

theorem sameExcept_shiftCoreFlags (k : ShiftKind) (w : Width) (s : State) (a : Long) :
    sameExcept arithmeticFlags s { s with flags := (shiftCore k w a s.flags).2 } := by
  apply sameExcept_setFlags <;> simp [shiftCore, arithmeticFlags]

/-- The seven register forms are `ShiftCore` of their kind. -/
theorem exec_shiftR {i : Instr} {x : Reg} {kind : ShiftKind}
    (h : (i, kind) ∈ [(Instr.slaR x, ShiftKind.sla), (.sraR x, .sra), (.srlR x, .srl), (.rlR x, .rl),
      (.rlcR x, .rlc), (.rrR x, .rr), (.rrcR x, .rrc)]) (s : State) :
    exec i s = .next (modifyReg s x (shiftCore kind x.width)) := by
  simp only [List.mem_cons, Prod.mk.injEq, List.not_mem_nil, or_false] at h
  obtain ⟨rfl, rfl⟩ | ⟨rfl, rfl⟩ | ⟨rfl, rfl⟩ | ⟨rfl, rfl⟩ | ⟨rfl, rfl⟩ | ⟨rfl, rfl⟩ | ⟨rfl, rfl⟩ := h
  all_goals rfl

/-- Settles O53. -/
theorem shiftRegisterForms : Obligations.ShiftRegisterForms := by
  intro s x i kind hi
  have hreg := regBecomes_modifyReg (s := s) (x := x) (op := shiftCore kind x.width)
    (shiftCore_lt _ _ _ _)
  refine ⟨_, exec_shiftR hi s, hreg, rfl, ?_, rfl, rfl, rfl, rfl,
    sameExcept_modifyReg s x fun t a => sameExcept_shiftCoreFlags kind _ t a⟩
  rw [hreg.1]
  exact decide_eq_true_iff

/-! ### Rotates come round -/

/-- A ring of `m` bits that moves by one place at a time is as it was after `m` times. -/
theorem ring_comes_round {m : Nat} {r : Nat → Nat → Bool}
    (h : ∀ n k, k < m → r (n + 1) k = if k = 0 then r n (m - 1) else r n (k - 1)) {k : Nat}
    (hk : k < m) : r m k = r 0 k := by
  have hring : ∀ n ≤ m, ∀ k < m, r n k = r 0 ((k + (m - n)) % m) := by
    intro n
    induction n with
    | zero =>
      intro _ k hk
      rw [Nat.sub_zero, Nat.add_mod_right, Nat.mod_eq_of_lt hk]
    | succ n ih =>
      intro hn k hk
      rw [h n k hk]
      by_cases h0 : k = 0
      · have hidx : m - 1 + (m - n) = 0 + (m - (n + 1)) + m := by omega
        rw [if_pos h0, ih (by omega) (m - 1) (by omega), h0, hidx, Nat.add_mod_right]
      · have hidx : k - 1 + (m - n) = k + (m - (n + 1)) := by omega
        rw [if_neg h0, ih (by omega) (k - 1) (by omega), hidx]
  rw [hring m le_rfl k hk, Nat.sub_self, Nat.add_zero, Nat.mod_eq_of_lt hk]

/-- A shift or rotate as a function of the register's value and the flags, to be iterated. -/
def shiftPair (kind : ShiftKind) (w : Width) (p : Long × Flags) : Long × Flags :=
  shiftCore kind w p.1 p.2

/-- Two values that fit a width are equal when their bits below it are. -/
theorem eq_of_low_bits {w : Width} {a b : Long} (ha : a.toNat < 2 ^ w.bits)
    (hb : b.toNat < 2 ^ w.bits) (h : ∀ k < w.bits, a.getLsbD k = b.getLsbD k) : a = b := by
  refine BitVec.eq_of_getLsbD_eq fun k _ => ?_
  by_cases hk : k < w.bits
  · exact h k hk
  · have hle : 2 ^ w.bits ≤ 2 ^ k := Nat.pow_le_pow_right (by decide) (Nat.le_of_not_lt hk)
    exact (Nat.testBit_lt_two_pow (Nat.lt_of_lt_of_le ha hle)).trans
      (Nat.testBit_lt_two_pow (Nat.lt_of_lt_of_le hb hle)).symm

section Iterate

variable (kind : ShiftKind) (w : Width) {p : Long × Flags}

theorem shiftPair_iterate_lt (hp : p.1.toNat < 2 ^ w.bits) (n : Nat) :
    ((shiftPair kind w)^[n] p).1.toNat < 2 ^ w.bits := by
  cases n with
  | zero => exact hp
  | succ n =>
    rw [Function.iterate_succ_apply']
    exact shiftCore_lt _ _ _ _

theorem shiftPair_iterate_l_s (p : Long × Flags) (n : Nat) :
    ((shiftPair kind w)^[n] p).2.l = p.2.l ∧ ((shiftPair kind w)^[n] p).2.s = p.2.s := by
  induction n with
  | zero => exact ⟨rfl, rfl⟩
  | succ n ih =>
    rw [Function.iterate_succ_apply']
    exact ih

/-- The bits of a value are a ring for `RLC` (R259). -/
theorem rlc_comes_round (hp : p.1.toNat < 2 ^ w.bits) :
    ((shiftPair .rlc w)^[w.bits] p).1 = p.1 := by
  have hlt := shiftPair_iterate_lt .rlc w hp
  have hstep : ∀ n k, k < w.bits → ((shiftPair .rlc w)^[n + 1] p).1.getLsbD k =
      if k = 0 then ((shiftPair .rlc w)^[n] p).1.getLsbD (w.bits - 1)
      else ((shiftPair .rlc w)^[n] p).1.getLsbD (k - 1) := by
    intro n k hk
    obtain ⟨-, -, hrlc, -⟩ := shiftsMoveEveryBitByOne w _ ((shiftPair .rlc w)^[n] p).2 k (hlt n) hk
    rw [Function.iterate_succ_apply']
    exact hrlc
  exact eq_of_low_bits (hlt _) hp fun k hk =>
    ring_comes_round (r := fun n => ((shiftPair .rlc w)^[n] p).1.getLsbD) hstep hk

/-- The bits of a value with the flag `C` above them. -/
def withCarry (w : Width) (p : Long × Flags) (k : Nat) : Bool :=
  if k = w.bits then p.2.c else p.1.getLsbD k

theorem withCarry_bits (w : Width) (p : Long × Flags) : withCarry w p w.bits = p.2.c := if_pos rfl

theorem withCarry_of_lt {w : Width} (p : Long × Flags) {k : Nat} (h : k < w.bits) :
    withCarry w p k = p.1.getLsbD k := if_neg (Nat.ne_of_lt h)

/-- `RL` moves the bits of a value and the flag `C` by one place in their ring (R257). -/
theorem withCarry_rl (hp : p.1.toNat < 2 ^ w.bits) {k : Nat} (hk : k < w.bits + 1) :
    withCarry w (shiftPair .rl w p) k =
      if k = 0 then withCarry w p w.bits else withCarry w p (k - 1) := by
  have hpos := bits_pos w
  rw [withCarry_bits]
  obtain rfl | hk := Nat.eq_or_lt_of_le (Nat.le_of_lt_succ hk)
  · rw [withCarry_bits, if_neg (Nat.ne_of_gt hpos), withCarry_of_lt p (by omega)]
    rfl
  · obtain ⟨-, hrl, -⟩ := shiftsMoveEveryBitByOne w p.1 p.2 k hp hk
    rw [withCarry_of_lt _ hk, withCarry_of_lt p (by omega)]
    exact hrl

/-- The bits of a value and the flag `C` are a ring for `RL` (R257). -/
theorem rl_comes_round (hp : p.1.toNat < 2 ^ w.bits) :
    ((shiftPair .rl w)^[w.bits + 1] p).1 = p.1 ∧ ((shiftPair .rl w)^[w.bits + 1] p).2.c = p.2.c := by
  have hlt := shiftPair_iterate_lt .rl w hp
  have hstep : ∀ n k, k < w.bits + 1 → withCarry w ((shiftPair .rl w)^[n + 1] p) k =
      if k = 0 then withCarry w ((shiftPair .rl w)^[n] p) (w.bits + 1 - 1)
      else withCarry w ((shiftPair .rl w)^[n] p) (k - 1) := by
    intro n k hk
    rw [Function.iterate_succ_apply']
    exact withCarry_rl w (hlt n) hk
  have hround : ∀ k < w.bits + 1, withCarry w ((shiftPair .rl w)^[w.bits + 1] p) k =
      withCarry w p k := fun k hk =>
    ring_comes_round (r := fun n => withCarry w ((shiftPair .rl w)^[n] p)) hstep hk
  refine ⟨eq_of_low_bits (hlt _) hp fun k hk => ?_, ?_⟩
  · rw [← withCarry_of_lt _ hk, hround k (by omega), withCarry_of_lt p hk]
  · rw [← withCarry_bits w, hround w.bits (by omega), withCarry_bits]

end Iterate

/-- A shift or rotate of a register, executed `n` times: the pair is iterated (R265). -/
theorem execTimes_shiftR {i : Instr} {x : Reg} {kind : ShiftKind}
    (hi : ∀ s, exec i s = .next (modifyReg s x (shiftCore kind x.width))) (n : Nat) (s : State) :
    execTimes i n s = .next
      { writeReg s x ((shiftPair kind x.width)^[n] (readReg s x, s.flags)).1 with
        flags := ((shiftPair kind x.width)^[n] (readReg s x, s.flags)).2 } :=
  execTimes_modifyReg hi (fun a f => truncTo_of_lt (shiftCore_lt kind x.width a f)) n s

/-- Settles O55: the register comes round, for `RL` with the carry. -/
theorem rotatesComeRound : Obligations.RotatesComeRound := by
  intro s x
  have hfit := readReg_lt s x
  refine ⟨⟨_, execTimes_shiftR (kind := .rlc) (fun _ => rfl) _ s, ?_⟩,
    ⟨_, execTimes_shiftR (kind := .rl) (fun _ => rfl) _ s, ?_⟩⟩
  · obtain ⟨hl, hs⟩ := shiftPair_iterate_l_s .rlc x.width (readReg s x, s.flags) x.width.bits
    rw [rlc_comes_round x.width hfit, writeReg_readReg]
    apply sameExcept_setFlags <;> simp [arithmeticFlags, hl, hs]
  · obtain ⟨hl, hs⟩ := shiftPair_iterate_l_s .rl x.width (readReg s x, s.flags) (x.width.bits + 1)
    obtain ⟨hvalue, hcarry⟩ := rl_comes_round x.width (p := (readReg s x, s.flags)) hfit
    generalize (shiftPair .rl x.width)^[x.width.bits + 1] (readReg s x, s.flags) = q at *
    rw [hvalue, writeReg_readReg]
    apply sameExcept_setFlags <;> simp [hl, hs, hcarry]

end Sys2Proof.Machine
end

section
/-! `SET`, `RES` and `SWAP` as operations on a value (spec/46_bit_check.md R280 to R288), and their register
forms. -/

namespace Sys2Proof.Machine

/-! ### Bits of results -/

theorem testBit_of_bits_le {w : Width} {a : Long} (ha : a.toNat < 2 ^ w.bits) {k : Nat}
    (hk : w.bits ≤ k) : a.getLsbD k = false :=
  Nat.testBit_lt_two_pow (Nat.lt_of_lt_of_le ha (Nat.pow_le_pow_right (by decide) hk))

/-- `SET` sets its bit and no other (R283). -/
theorem setCore_getLsbD {b : Byte} (hb : b.toNat < 32) (a : Long) (f : Flags) (k : Nat) :
    (setCore b a f).1.getLsbD k = (decide (k = b.toNat) || a.getLsbD k) := by
  rw [setCore, BitVec.getLsbD_or, BitVec.getLsbD_ofNat, Nat.testBit_two_pow, Bool.or_comm]
  by_cases h : k = b.toNat
  · simp [h, hb]
  · simp [h, Ne.symm h]

/-- `RES` clears its bit and no other (R285). -/
theorem resCore_getLsbD {w : Width} {b : Byte} {a : Long} (hb : b.toNat < w.bits)
    (ha : a.toNat < 2 ^ w.bits) (f : Flags) (k : Nat) :
    (resCore w b a f).1.getLsbD k = (decide (k ≠ b.toNat) && a.getLsbD k) := by
  have hpow : 2 ^ b.toNat < 2 ^ w.bits := Nat.pow_lt_pow_right (by decide) hb
  have hw := bits_le w
  rw [resCore, BitVec.getLsbD_and, Bool.and_comm]
  by_cases hk : k < w.bits
  · rw [BitVec.getLsbD_ofNat, modulus, Nat.sub_sub, Nat.add_comm 1,
      Nat.testBit_two_pow_sub_succ hpow, Nat.testBit_two_pow]
    simp [hk, show k < 32 by omega, eq_comm]
  · simp [testBit_of_bits_le ha (Nat.le_of_not_lt hk)]

theorem setCore_lt {w : Width} {b : Byte} {a : Long} (hb : b.toNat < w.bits)
    (ha : a.toNat < 2 ^ w.bits) (f : Flags) : (setCore b a f).1.toNat < 2 ^ w.bits := by
  have hpow : 2 ^ b.toNat < 2 ^ w.bits := Nat.pow_lt_pow_right (by decide) hb
  have hw := modulus_le w
  rw [setCore, BitVec.toNat_or, BitVec.toNat_ofNat, Nat.mod_eq_of_lt (by omega)]
  exact Nat.or_lt_two_pow ha hpow

theorem resCore_lt (w : Width) (b : Byte) {a : Long} (ha : a.toNat < 2 ^ w.bits) (f : Flags) :
    (resCore w b a f).1.toNat < 2 ^ w.bits := by
  rw [resCore, BitVec.toNat_and]
  exact Nat.lt_of_le_of_lt Nat.and_le_left ha

/-- The two halves exchanged fit the width (R287). -/
theorem swapNumber_lt {w : Width} {a : Long} (ha : a.toNat < 2 ^ w.bits) :
    swapNumber w a < modulus w := by
  cases w <;> simp only [swapNumber, Width.bits, Width.half, modulus, halfModulus] at * <;> omega

/-- An exchange of halves gives zero for zero alone (R287). -/
theorem swapCore_z_iff {w : Width} {a : Long} (ha : a.toNat < 2 ^ w.bits) (f : Flags) :
    (swapCore w a f).2.z = true ↔ a = 0 := by
  rw [swapCore, decide_eq_true_iff, narrow_eq_zero, Nat.mod_eq_of_lt (swapNumber_lt ha),
    ← BitVec.toNat_inj, show (0 : Long).toNat = 0 from rfl]
  cases w <;> simp only [swapNumber, Width.bits, Width.half, halfModulus] at * <;> omega

/-! ### Frames of the flags -/

theorem sameExcept_setCoreFlags (b : Byte) (s : State) (a : Long) :
    sameExcept [.n, .h, .c] s { s with flags := (setCore b a s.flags).2 } := by
  apply sameExcept_setFlags <;> simp [setCore]

theorem sameExcept_resCoreFlags (w : Width) (b : Byte) (s : State) (a : Long) :
    sameExcept [] s { s with flags := (resCore w b a s.flags).2 } := sameExcept_refl [] s

theorem sameExcept_swapCoreFlags (w : Width) (s : State) (a : Long) :
    sameExcept arithmeticFlags s { s with flags := (swapCore w a s.flags).2 } := by
  apply sameExcept_setFlags <;> simp [swapCore, arithmeticFlags]

theorem sameExcept_bitFlags (b : Byte) (s : State) (a : Long) :
    sameExcept [.z, .n, .h] s { s with flags := bitFlags b a s.flags } := by
  apply sameExcept_setFlags <;> simp [bitFlags]

/-! ### Bit numbers -/

/-- Settles O59: the check of the bit number comes first. -/
theorem bitNumberOutOfRangeFaults : Obligations.BitNumberOutOfRangeFaults := by
  intro s b y
  have hfault : ∀ {w : Width} (r : Except Fault State), w.bits ≤ b.toNat →
      settle (withBit b w r) = .fault .bitIndexRange :=
    fun r h => congrArg settle (withBit_of_le r h)
  refine ⟨fun h i hi => ?_, fun h i hi => ?_⟩
  · simp only [List.mem_cons, List.not_mem_nil, or_false] at hi
    obtain rfl | rfl | rfl := hi <;> exact hfault _ h
  · simp only [List.mem_cons, List.not_mem_nil, or_false] at hi
    obtain rfl | rfl | rfl := hi <;> exact hfault (w := .byte) _ h

/-- Settles O57. -/
theorem setAndResetRegisterBit : Obligations.SetAndResetRegisterBit := by
  intro s b y hb
  have hfit := readReg_lt s y
  have h32 := Nat.lt_of_lt_of_le hb (bits_le y.width)
  refine ⟨⟨_, _, congrArg settle (withBit_of_lt _ hb),
      regBecomes_modifyReg (op := setCore b) (setCore_lt hb hfit _), setCore_getLsbD h32 _ _, rfl, rfl,
      rfl, ?_⟩,
    ⟨_, _, congrArg settle (withBit_of_lt _ hb),
      regBecomes_modifyReg (op := resCore y.width b) (resCore_lt _ b hfit _),
      resCore_getLsbD hb hfit _, ?_⟩⟩
  · exact sameExcept_modifyReg s y fun t a => sameExcept_setCoreFlags b t a
  · exact sameExcept_modifyReg s y fun t a => sameExcept_resCoreFlags _ b t a

end Sys2Proof.Machine
end

section
/-! The memory forms of the one-operand instructions, and `BIT X, [Y]` (spec/43_arithmetic.md R204, R206,
spec/45_shift_rotate.md R252 to R265, spec/46_bit_check.md R282 to R288): one byte is read, and written back
where the instruction has a result. -/

namespace Sys2Proof.Machine

/-! ### One byte read and written back -/

/-- A byte as a long. -/
theorem valueSeen_byte (s : State) (a : Nat) : valueSeen s [a] = (byteSeen s a).setWidth 32 := by
  rw [valueSeen, List.map_singleton, littleEndian, littleEndian, Nat.mul_zero, Nat.add_zero,
    BitVec.ofNat_toNat]

theorem leBytes_byte (v : Long) : leBytes v.toNat 1 = [v.setWidth 8] := by
  rw [leBytes, leBytes, BitVec.ofNat_toNat]

theorem setWidth_setWidth_byte {v : Long} (h : v.toNat < 2 ^ 8) :
    (v.setWidth 8).setWidth 32 = v := by
  apply BitVec.eq_of_toNat_eq
  rw [BitVec.toNat_setWidth, BitVec.toNat_setWidth, Nat.mod_eq_of_lt h]
  exact Nat.mod_eq_of_lt v.isLt

/-- The state after one byte at an address has been read, and another written there. -/
def afterRewrite (s : State) (a : Nat) (r : Byte) : State :=
  writeBytes (notePlatformWrite (notePlatformRead s [a]) [(a, r)]) a [r]

/-- A byte in memory has been replaced, or the platform has been asked for it and told the result (R76). -/
theorem byteRewritten_afterRewrite (s : State) (a : Nat) (r : Byte) (t : State)
    (hmem : t.mem = (afterRewrite s a r).mem) (hplat : t.platform = (afterRewrite s a r).platform) :
    byteRewritten a (byteSeen (notePlatformRead s [a]) a) r s t := by
  have hread : ∀ k, readByte t k = if k = a ∧ a < hwregStart then r else readByte s k := by
    intro k
    rw [readByte_congr hmem, afterRewrite, writeBytes, writeBytes, readByte_writeByte,
      readByte_congr (t := notePlatformWrite _ _) (s := s) (by simp)]
  refine ⟨?_, fun k hk => by rw [hread, if_neg fun h => hk h.1]⟩
  by_cases ha : a < hwregStart
  · have hr : notePlatformRead s [a] = s := notePlatformRead_of_le s (n := 1) ha
    have hw : notePlatformWrite s [(a, r)] = s := notePlatformWrite_of_le s (n := 1) (l := [r]) ha
    rw [if_pos ha]
    refine ⟨?_, by rw [hread, if_pos ⟨rfl, ha⟩], ?_⟩
    · rw [hr, byteSeen, inHwPage, decide_eq_false (Nat.not_le.2 ha)]
      rfl
    · rw [hplat, afterRewrite, hr, hw, writeBytes_platform]
  · have hin : inHwPage a = true := decide_eq_true (Nat.not_lt.1 ha)
    rw [if_neg ha]
    refine ⟨?_, ?_, by rw [hread, if_neg fun h => ha h.2]⟩
    · simp [byteSeen, notePlatformRead, tellPlatform, hin]
    · rw [hplat, afterRewrite, writeBytes_platform]
      simp [notePlatformRead, notePlatformWrite, tellPlatform, hin]

/-- The memory form of a one-operand instruction above ROM: the byte, the flags, and of the frame what its
operation keeps (R265). -/
theorem modifyMem_spec {l : List Field} {op : UnaryOp} (s : State) {addr : Long}
    (hr : romLimit ≤ addr.toNat) (hop : ∀ t a, sameExcept l t { t with flags := (op a t.flags).2 }) :
    ∃ (t : State) (v : Byte), modifyMem s addr op = .ok t ∧
      byteRewritten addr.toNat v ((op (v.setWidth 32) s.flags).1.setWidth 8) s t ∧
      t.flags = (op (v.setWidth 32) s.flags).2 ∧ sameExcept (.mem :: .platform :: l) s t := by
  have hlimit : addr.toNat + 1 ≤ addrLimit := addr.isLt
  have hread := memRead_byte s addr
  rw [valueSeen_byte] at hread
  generalize hv : byteSeen (notePlatformRead s [addr.toNat]) addr.toNat = v at hread
  have hwrite : memWrite (notePlatformRead s [addr.toNat]) addr 1 (op (v.setWidth 32) s.flags).1 =
      .ok (afterRewrite s addr.toNat ((op (v.setWidth 32) s.flags).1.setWidth 8)) := by
    rw [memWrite_of_le _ hlimit hr, leBytes_byte]
    rfl
  have hframe : sameExcept [.mem, .platform] s
      (afterRewrite s addr.toNat ((op (v.setWidth 32) s.flags).1.setWidth 8)) :=
    sameExcept_trans (sameExcept_mono (sameExcept_notePlatformRead s [addr.toNat]) (by simp))
      (sameExcept_stored _ _ _ _)
  have hflags : (afterRewrite s addr.toNat ((op (v.setWidth 32) s.flags).1.setWidth 8)).flags =
      s.flags := by simp [afterRewrite]
  refine ⟨{ afterRewrite s addr.toNat ((op (v.setWidth 32) s.flags).1.setWidth 8) with
    flags := (op (v.setWidth 32) s.flags).2 }, v, ?_, ?_, rfl, ?_⟩
  · rw [modifyMem, memopWidth_eq, Width.bytes, hread]
    simp only [notePlatformRead_flags, hwrite]
  · rw [← hv]
    exact byteRewritten_afterRewrite s _ _ _ rfl rfl
  · have hlast := hop (afterRewrite s addr.toNat ((op (v.setWidth 32) s.flags).1.setWidth 8))
      (v.setWidth 32)
    rw [hflags] at hlast
    exact sameExcept_trans (sameExcept_mono hframe (by simp)) (sameExcept_mono hlast (by simp))

theorem modifyMem_rom (s : State) {addr : Long} (op : UnaryOp) (h : addr.toNat < romLimit) :
    modifyMem s addr op = .error .romWrite := by
  rw [modifyMem, memopWidth_eq, Width.bytes, memRead_byte]
  simp only [memWrite_rom _ (show addr.toNat + 1 ≤ addrLimit from addr.isLt) h]

theorem withMemoryOperand_wrap {s : State} {x y : Reg} (k : State → Reg → Long → State)
    (h : addrLimit < (readReg s y).toNat + x.width.bytes) :
    withMemoryOperand s x y k = .error .addressWrap := by
  rw [withMemoryOperand, show pointer s y = readReg s y from rfl, memRead_of_lt s h]

/-- Settles O50: the operand's read wraps, or the result's write meets ROM. -/
theorem memoryFormsFaultOnBadAddresses : Obligations.MemoryFormsFaultOnBadAddresses := by
  intro s x y b
  refine ⟨fun h i hi => ?_, fun h hb i hi => ?_⟩
  · simp only [List.mem_cons, List.not_mem_nil, or_false] at hi
    obtain rfl | rfl | rfl | rfl | rfl | rfl | rfl | rfl := hi <;>
      exact congrArg settle (withMemoryOperand_wrap _ h)
  · simp only [List.mem_cons, List.not_mem_nil, or_false] at hi
    have hbit : ∀ op, withBit b memopWidth (modifyMem s (readReg s y) op) = .error .romWrite :=
      fun op => (withBit_of_lt _ hb).trans (modifyMem_rom s op h)
    obtain rfl | rfl | rfl | rfl | rfl | rfl | rfl | rfl | rfl | rfl | rfl | rfl := hi
    case inl => rw [exec_incM, modifyMem_rom s _ h, settle_error]
    case inr.inr.inr.inr.inr.inr.inr.inr.inr.inl => exact congrArg settle (hbit _)
    case inr.inr.inr.inr.inr.inr.inr.inr.inr.inr.inl => exact congrArg settle (hbit _)
    all_goals exact congrArg settle (modifyMem_rom s _ h)

/-! ### The instructions -/

theorem byte_toNat_setWidth (v : Byte) : (v.setWidth 32 : Long).toNat = v.toNat := by
  have := v.isLt
  rw [BitVec.toNat_setWidth, Nat.mod_eq_of_lt (by omega)]

theorem incCore_fst_lt (w : Width) (freeH : Bool) (a : Long) (f : Flags) :
    (incCore w freeH a f).1.toNat < 2 ^ w.bits := narrow_lt _ _

theorem incCore_z_iff (w : Width) (freeH : Bool) (a : Long) (f : Flags) :
    (incCore w freeH a f).2.z = true ↔ (incCore w freeH a f).1 = 0 :=
  decide_eq_true_iff.trans (narrow_eq_zero w _).symm

theorem incCore_byte_fst (freeH : Bool) (v : Byte) (f : Flags) :
    (incCore .byte freeH (v.setWidth 32) f).1.setWidth 8 = v + 1 := by
  have h : (incCore .byte freeH (v.setWidth 32) f).1.toNat = _ := narrow_toNat _ _
  apply BitVec.eq_of_toNat_eq
  rw [BitVec.toNat_setWidth, h, byte_toNat_setWidth, BitVec.toNat_add]
  exact Nat.mod_mod _ _

theorem decCore_byte_fst (v : Byte) (f : Flags) :
    (decCore .byte (v.setWidth 32) f).1.setWidth 8 = v - 1 := by
  have hv := v.isLt
  have h := decCore_fst_toNat .byte (v.setWidth 32) f
  have hlt := decCore_fst_lt .byte (v.setWidth 32) f
  rw [byte_toNat_setWidth] at h
  simp only [Width.bits] at h hlt
  bv_omega

theorem byte_eq_zero_iff (v : Byte) : v = 0 ↔ (v.setWidth 32 : Long) = 0 := by
  rw [← BitVec.toNat_inj, ← BitVec.toNat_inj, byte_toNat_setWidth]
  rfl

/-- A result that fits a byte is zero exactly if its byte is. -/
theorem setWidth_byte_eq_zero {v : Long} (h : v.toNat < 2 ^ 8) : v.setWidth 8 = 0 ↔ v = 0 := by
  rw [byte_eq_zero_iff, setWidth_setWidth_byte h]

/-- Settles O49. -/
theorem incrementAndDecrementMemory : Obligations.IncrementAndDecrementMemory := by
  intro s y hr
  constructor
  · obtain ⟨t, v, ht, hbyte, hflags, hframe⟩ := modifyMem_spec s hr
      (fun t a => sameExcept_incCoreFlags .byte (Config.incLongH s.draws) t a)
    rw [incCore_byte_fst] at hbyte
    refine ⟨t, v, by rw [exec_incM, ht, settle_ok], hbyte, ?_, ?_, ?_, hframe⟩
    · rw [hflags, incCore_z_iff, ← incCore_byte_fst (Config.incLongH s.draws) v s.flags,
        setWidth_byte_eq_zero (incCore_fst_lt .byte _ _ _)]
    · rw [hflags]
      rfl
    · rw [hflags, incCore_h_iff (by decide), byte_toNat_setWidth]
      rfl
  · obtain ⟨t, v, ht, hbyte, hflags, hframe⟩ := modifyMem_spec s hr
      (fun t a => sameExcept_decCoreFlags .byte t a)
    rw [decCore_byte_fst] at hbyte
    refine ⟨t, v, congrArg settle ht, hbyte, ?_, ?_, ?_, hframe⟩
    · rw [hflags, decCore_z_iff, ← decCore_byte_fst v s.flags,
        setWidth_byte_eq_zero (decCore_fst_lt .byte _ _)]
    · rw [hflags]
      rfl
    · rw [hflags, decCore_h_iff, byte_toNat_setWidth]
      rfl

/-- The seven memory forms are `ShiftCore` of their kind, on a byte. -/
theorem exec_shiftM {i : Instr} {x : Reg} {kind : ShiftKind}
    (h : (i, kind) ∈ [(Instr.slaM x, ShiftKind.sla), (.sraM x, .sra), (.srlM x, .srl), (.rlM x, .rl),
      (.rlcM x, .rlc), (.rrM x, .rr), (.rrcM x, .rrc)]) (s : State) :
    exec i s = settle (modifyMem s (readReg s x) (shiftCore kind .byte)) := by
  simp only [List.mem_cons, Prod.mk.injEq, List.not_mem_nil, or_false] at h
  obtain ⟨rfl, rfl⟩ | ⟨rfl, rfl⟩ | ⟨rfl, rfl⟩ | ⟨rfl, rfl⟩ | ⟨rfl, rfl⟩ | ⟨rfl, rfl⟩ | ⟨rfl, rfl⟩ := h
  all_goals rfl

/-- Settles O54. -/
theorem shiftMemoryForms : Obligations.ShiftMemoryForms := by
  intro s x i kind hr hi
  obtain ⟨t, v, ht, hbyte, hflags, hframe⟩ := modifyMem_spec s hr
    (fun t a => sameExcept_shiftCoreFlags kind .byte t a)
  have hlt := shiftCore_lt kind .byte (v.setWidth 32) s.flags
  refine ⟨t, v, _, by rw [exec_shiftM hi, ht, settle_ok], hbyte, setWidth_setWidth_byte hlt, ?_, ?_, ?_,
    ?_, ?_, ?_, hframe⟩ <;> rw [hflags]
  · rw [setWidth_byte_eq_zero hlt]
    exact decide_eq_true_iff
  all_goals rfl

/-- Settles O58. -/
theorem setAndResetMemoryBit : Obligations.SetAndResetMemoryBit := by
  intro s b y hb hr
  have hbits : ∀ (v : Byte) (k : Nat), (v.setWidth 32 : Long).getLsbD k = v.getLsbD k := by
    intro v k
    rw [BitVec.getLsbD, byte_toNat_setWidth]
    rfl
  constructor
  · obtain ⟨t, v, ht, hbyte, hflags, hframe⟩ := modifyMem_spec s hr
      (fun t a => sameExcept_setCoreFlags b t a)
    refine ⟨t, v, _, congrArg settle ((withBit_of_lt _ hb).trans ht), hbyte, fun k => ?_, ?_, ?_, ?_,
      hframe⟩
    · rw [BitVec.getLsbD_setWidth, setCore_getLsbD (by omega), hbits]
      by_cases hk : k < 8
      · simp [hk]
      · simp [hk, show k ≠ b.toNat by omega, BitVec.getLsbD_of_ge v k (by omega)]
    all_goals rw [hflags]; rfl
  · obtain ⟨t, v, ht, hbyte, hflags, hframe⟩ := modifyMem_spec s hr
      (fun t a => sameExcept_resCoreFlags .byte b t a)
    refine ⟨t, v, _, congrArg settle ((withBit_of_lt _ hb).trans ht), hbyte, fun k => ?_, hframe⟩
    rw [BitVec.getLsbD_setWidth, resCore_getLsbD hb (setWidth_byte_lt v), hbits]
    by_cases hk : k < 8
    · simp [hk]
    · simp [hk, BitVec.getLsbD_of_ge v k (by omega)]

/-- Settles O56. -/
theorem bitTestsTheBit : Obligations.BitTestsTheBit := by
  intro s b y
  refine ⟨fun hb => ⟨_, congrArg settle (withBit_of_lt _ hb), rfl, rfl, rfl, sameExcept_bitFlags b s _⟩,
    fun hb => ?_⟩
  obtain ⟨v, t, hread, hval, hframe⟩ := memRead_spec s (addr := readReg s y) (n := 1) (by decide)
    (readReg s y).isLt
  have hexec : exec (.bitM b y) s = .next { t with flags := bitFlags b v t.flags } := by
    change settle (withBit b .byte (match memRead s (readReg s y) 1 with
      | .error e => .error e
      | .ok (v, s') => .ok { s' with flags := bitFlags b v s'.flags })) = _
    rw [withBit_of_lt _ hb, hread]
    rfl
  exact ⟨_, v, hexec, valueRead_congr rfl hval, rfl, rfl, rfl,
    sameExcept_trans (sameExcept_mono hframe (by simp))
      (sameExcept_mono (sameExcept_bitFlags b t v) (by simp))⟩

/-- The nibbles of a byte exchanged (R288). -/
theorem swapCore_byte_fst (v : Byte) (f : Flags) :
    (swapCore .byte (v.setWidth 32) f).1.setWidth 8 = v.extractLsb' 0 4 ++ v.extractLsb' 4 4 := by
  have hv := v.isLt
  apply BitVec.eq_of_toNat_eq
  rw [BitVec.toNat_append, ← Nat.shiftLeft_add_eq_or_of_lt (BitVec.isLt _), Nat.shiftLeft_eq,
    BitVec.extractLsb'_toNat, BitVec.extractLsb'_toNat, Nat.shiftRight_eq_div_pow,
    Nat.shiftRight_eq_div_pow, BitVec.toNat_setWidth, swapCore, narrow_toNat, swapNumber,
    byte_toNat_setWidth]
  simp only [modulus, halfModulus, Width.bits, Width.half, Nat.reducePow, Nat.div_one]
  have hhigh : v.toNat / 16 < 16 := by omega
  have hlow : v.toNat % 16 < 16 := by omega
  generalize v.toNat / 16 = q, v.toNat % 16 = r at hhigh hlow ⊢
  omega

/-- Settles O60. -/
theorem swapExchangesHalves : Obligations.SwapExchangesHalves := by
  intro s x
  have hfit := readReg_lt s x
  refine ⟨⟨_, rfl, ?_, swapCore_z_iff hfit _, rfl, rfl, rfl, rfl, rfl,
    sameExcept_modifyReg s x fun t a => sameExcept_swapCoreFlags x.width t a⟩, fun hr => ?_⟩
  · have hreg := regBecomes_modifyReg (s := s) (x := x) (op := swapCore x.width) (swapCore_lt _ _ _)
    rwa [swapCore, narrow, Nat.mod_eq_of_lt (swapNumber_lt hfit)] at hreg
  · obtain ⟨t, v, ht, hbyte, hflags, hframe⟩ := modifyMem_spec s hr
      (fun t a => sameExcept_swapCoreFlags .byte t a)
    rw [swapCore_byte_fst] at hbyte
    refine ⟨t, v, congrArg settle ht, hbyte, ?_, ?_, ?_, ?_, ?_, ?_, hframe⟩ <;> rw [hflags]
    · rw [swapCore_z_iff (setWidth_byte_lt v), byte_eq_zero_iff]
    all_goals rfl

end Sys2Proof.Machine
end
